-- ==== Sys2Proof/Word.lean ====
section
/-! DEFINITION. The word types of the block (spec/00_scope.md R7, R8, R12, R13; spec/30_encoding.md R80) and the
per-direction family of state elements (spec/00_scope.md R10). -/

namespace Sys2Proof

/-- A stream byte, `BYTE_W = 8` (R7, R8). -/
abbrev Byte := BitVec 8

/-- A port index or a command code, `PORT_W = CMD_W = 4` (R7). -/
abbrev Nibble := BitVec 4

/-- The frame-end sentinel (R80). -/
def FEND : Byte := 0xC0#8

/-- The byte that introduces a two-byte escape sequence (R80). -/
def FESC : Byte := 0xDB#8

/-- The escaped substitute for FEND, special only directly after FESC (R80). -/
def TFEND : Byte := 0xDC#8

/-- The escaped substitute for FESC, special only directly after FESC (R80). -/
def TFESC : Byte := 0xDD#8

/-- The two directions (R12): `n2m` from the node to the modem, `m2n` from the modem to the node. -/
inductive Dir where
  | n2m
  | m2n
  deriving DecidableEq, Repr

/-- The opposite direction (R12). -/
def Dir.other : Dir → Dir
  | .n2m => .m2n
  | .m2n => .n2m

/-- A family of state elements indexed by the direction: the spec's `acc[d]`, `pump[d]`, `phase[d]`, `ovf[d]` (R10). -/
structure PerDir (α : Type) where
  n2m : α
  m2n : α
  deriving DecidableEq, Repr

/-- The element of direction `d`. -/
def PerDir.get {α : Type} (x : PerDir α) : Dir → α
  | .n2m => x.n2m
  | .m2n => x.m2n

/-- The family with the element of direction `d` replaced. -/
def PerDir.set {α : Type} (x : PerDir α) : Dir → α → PerDir α
  | .n2m, v => { x with n2m := v }
  | .m2n, v => { x with m2n := v }

/-- The family that holds `v` in both directions. -/
def PerDir.both {α : Type} (v : α) : PerDir α := ⟨v, v⟩

end Sys2Proof
end

