-- ==== Sys2Proof/Config.lean ====
section
/-! DEFINITION. What is fixed for the life of an instance: the configuration inputs of spec/10_state.md R35, the open
parameters of spec/00_scope.md R7, and the values the spec leaves to nobody (free values, opaque constants). -/

namespace Sys2Proof

/-- The configuration inputs (R35) and the open parameters (R7) of one instance. They stand in State as a field that no
step writes, so that a statement about every state holds for every configuration and every parameter value.
Names, devices and texts are byte sequences: the spec gives them no encoding and no rule reads inside them. -/
structure Cfg where
  /-- `cfg.sink_present`: a telemetry sink is configured (R35, R220). -/
  sinkPresent : Bool
  /-- `cfg.b64`: the presentation switch, carried through on every observation record (R35, R230). -/
  b64 : Bool
  /-- `cfg.instance`: the name of the proxy, carried through on records and log events (R35). -/
  instName : List Byte
  /-- `cfg.listen_port`, handed to the TCP transport by ENG.BIND (R35, R191). -/
  listenPort : Nat
  /-- `cfg.loopback_only`, handed to the TCP transport by ENG.BIND (R35, R191). -/
  loopbackOnly : Bool
  /-- `cfg.ser_device`, handed to the serial transport by ENG.OPEN (R35, R193). -/
  serDevice : List Byte
  /-- `cfg.baud`, handed to the serial transport by ENG.OPEN (R35, R193). -/
  baud : Nat
  /-- `ACC_DEPTH` (R7, R21): `none` is the unbounded accumulator KP describes, `some n` a capacity of `n` bytes. -/
  accDepth : Option Nat
  /-- `FLUSH_ON_TEARDOWN` (R7, R196, R207). -/
  flushOnTeardown : Bool
  deriving DecidableEq, Repr

/-- The configuration `State.reset` carries.
DESIGN CHOICE (notes/assumptions/1.md, unsafe): the spec gives the configuration inputs no value of their own, so this is the
zero value of each; `ACC_DEPTH` is KP's own unbounded one. -/
def Cfg.zero : Cfg :=
  { sinkPresent := false, b64 := false, instName := [], listenPort := 0, loopbackOnly := false, serDevice := [],
    baud := 0, accDepth := none, flushOnTeardown := false }

/-- FREE VALUE (notes/assumptions/5.md): whether the n-th hand-off of a frame that the environment's script does not
decide succeeds. R220: "Which of the two branches is taken is not determined by any state of the block". -/
opaque Config.handoffSucceeds : Nat → Bool

/-- FREE VALUE (notes/assumptions/6.md): the frame, with its norm flag, that a faulted assembler hands out, if any.
R256: "Once `ovf[d] = 1` this spec promises nothing about the frame events of direction `d`". -/
opaque Config.faultedFrame : Nat → Option (List Byte × Bool)

/-- FREE VALUE (notes/assumptions/24.md): the describer's n-th answer that the environment's script does not state, a text or none.
R228: "which answer comes is the environment's free choice, and a task in stage `Describe` is never stuck for ever". -/
opaque Config.describerText : Nat → Option (List Byte)

end Sys2Proof
end

