-- ==== Sys2Proof/Machine/Operands.lean ====
section
/-! DEFINITION. The operand forms of the block: the two fields of the type byte (spec/30_encoding.md R82, R83), the kinds a
type byte selects (R84 to R86), and the fields of a frame (R81). -/

namespace Sys2Proof.Machine

/-- `t[7:4]`, the port index (R82, R83). -/
def portOf (t : Byte) : Nibble := t.extractLsb' 4 4

/-- `t[3:0]`, the command code (R82, R83). -/
def cmdOf (t : Byte) : Nibble := t.extractLsb' 0 4

/-- `(port << 4) | cmd` (R83). -/
def packType (p c : Nibble) : Byte := (p.setWidth 8 <<< 4) ||| c.setWidth 8

/-- The kind of a frame (R84, R86, R138). -/
inductive Kind where
  | dataFrame
  | txDelay
  | persistence
  | slotTime
  | txTail
  | fullDuplex
  | ackMode
  | exitKissMode
  | unknown (c : Nibble)
  deriving DecidableEq, Repr

/-- `KIND(port, cmd)` (R138). -/
def kindOf (p c : Nibble) : Kind :=
  if c = 0x0#4 then .dataFrame
  else if c = 0x1#4 then .txDelay
  else if c = 0x2#4 then .persistence
  else if c = 0x3#4 then .slotTime
  else if c = 0x4#4 then .txTail
  else if c = 0x5#4 then .fullDuplex
  else if c = 0xC#4 then .ackMode
  else if c = 0xF#4 ∧ p = 0xF#4 then .exitKissMode
  else .unknown c

/-- `one_byte(t)` in terms of the command code (R87): the kinds that take exactly one payload byte. -/
def takesOneByte (c : Nibble) : Bool := 1 ≤ c.toNat && c.toNat ≤ 5

/-- The bytes of a frame from its fields (R81): opening FEND, type byte, body, closing FEND. -/
def frameOf (t : Byte) (body : List Byte) : List Byte := [FEND, t] ++ body ++ [FEND]

/-- The body of a frame, the bytes at index 2 to `len - 2` (R81). -/
def bodyOf (f : List Byte) : List Byte := (f.drop 2).dropLast

end Sys2Proof.Machine
end

