-- ==== Sys2Proof/Syntax.lean ====
section
/-! DEFINITION. The operations of the block: one constructor per row of spec/opcode_table.json (spec/30_encoding.md
R99, R100; spec/00_scope.md R2, section 6). A row of the formats STREAM8, UNESC, STUFF8, TYPE8 and FRAME carries the fields
of its pattern and the operand the port presents with it; an OP row carries the operands of its rule. -/

namespace Sys2Proof

/-- The rows of spec/opcode_table.json, in the table's order. -/
inductive Instr where
  -- STREAM8 (R91, R113): a byte offered to the assembler of direction `d`
  | feedFend (d : Dir)
  | feedData (d : Dir) (b : Byte)
  -- UNESC (R89, R136): one case of the unescape scan; `n` is the byte after the one scanned, absent at the end of the body
  | unescFend
  | unescFesc
  | unescLonefesc (n : Option Byte)
  | unescLit (b : Byte) (n : Option Byte)
  -- STUFF8 (R88, R151): one payload byte
  | stuffFend
  | stuffFesc
  | stuffLit (b : Byte)
  -- TYPE8 (R84 to R87): the type byte's row, with the port index `p` and the unescaped payload it is checked against
  | exitkiss (payload : List Byte)
  | dataframe (p : Nibble) (payload : List Byte)
  | txdelay (p : Nibble) (payload : List Byte)
  | persistence (p : Nibble) (payload : List Byte)
  | slottime (p : Nibble) (payload : List Byte)
  | txtail (p : Nibble) (payload : List Byte)
  | fullduplex (p : Nibble) (payload : List Byte)
  | rsvd6 (p : Nibble) (payload : List Byte)
  | rsvd7 (p : Nibble) (payload : List Byte)
  | rsvd8 (p : Nibble) (payload : List Byte)
  | rsvd9 (p : Nibble) (payload : List Byte)
  | rsvda (p : Nibble) (payload : List Byte)
  | rsvdb (p : Nibble) (payload : List Byte)
  | ackmode (p : Nibble) (payload : List Byte)
  | rsvdd (p : Nibble) (payload : List Byte)
  | rsvde (p : Nibble) (payload : List Byte)
  | rsvdf (p : Nibble) (payload : List Byte)
  -- FRAME (R81, R82): a whole frame by its fields
  | frame (p : Nibble) (c : Nibble) (body : List Byte)
  -- OP: the operations, selected by the port or the agent that invokes them
  | drd (d : Dir)
  | iscomplete (q : List Byte)
  | normalize (q : List Byte)
  | processbyte (d : Dir) (b : Byte)
  | decode (f : List Byte)
  | unescape (q : List Byte)
  | encode (payload : List Byte) (portIn : Nat) (cmd : Nibble)
  | stuff (b : Byte)
  | feed (d : Dir) (b : Byte)
  | pumpN2m
  | pumpM2n
  | engBind
  | engAccept
  | engOpen
  | engJoin
  | engTeardown
  | engFatal
  | dispatch (task : Nat)
  deriving DecidableEq, Repr

end Sys2Proof
end

