-- ==== Sys2Proof/WellFormed.lean ====
section
/-! DEFINITION. Which terms of Instr stand for a word of their row: the side conditions the table's `fields` notes put on a
default row (spec/opcode_table.json, spec/30_encoding.md R99), and the operand conditions of the OP rows. -/

namespace Sys2Proof

/-- The side conditions of spec/opcode_table.json, one per row that has one; every other term is well formed.
FEED.DATA: "any byte other than 0xC0". UNESC.LONEFESC: "neither DC nor DD, or absent". UNESC.LIT: "not DB".
STUFF.LIT: "any byte other than C0 and DB". RSVDF: "with port other than 15 only". NORMALIZE (R112): a non-empty sequence. -/
def WellFormed : Instr → Bool
  | .feedData _ b => b != FEND
  | .unescLonefesc n => n != some TFEND && n != some TFESC
  | .unescLit b _ => b != FESC
  | .stuffLit b => b != FEND && b != FESC
  | .rsvdf p _ => p != 0xF#4
  | .normalize q => !q.isEmpty
  | .feedFend _ | .unescFend | .unescFesc | .stuffFend | .stuffFesc | .exitkiss _ | .dataframe _ _ | .txdelay _ _
  | .persistence _ _ | .slottime _ _ | .txtail _ _ | .fullduplex _ _ | .rsvd6 _ _ | .rsvd7 _ _ | .rsvd8 _ _
  | .rsvd9 _ _ | .rsvda _ _ | .rsvdb _ _ | .ackmode _ _ | .rsvdd _ _ | .rsvde _ _ | .frame _ _ _ | .drd _
  | .iscomplete _ | .processbyte _ _ | .decode _ | .unescape _ | .encode _ _ _ | .stuff _ | .feed _ _ | .pumpN2m
  | .pumpM2n | .engBind | .engAccept | .engOpen | .engJoin | .engTeardown | .engFatal | .dispatch _ => true

end Sys2Proof
end

