-- ==== Sys2Proof/Decode.lean ====
section
/-! DEFINITION. Reading an operation from what stands on a port (spec/30_encoding.md R99, R100): the formats, the request,
the decoder, total and rejecting by name, then the encoder, the table's rows as data and the host's `decodeTableWord`. -/

namespace Sys2Proof

open Machine (portOf cmdOf packType frameOf bodyOf)

/-- The formats of spec/opcode_table.json (R99). The bits of two formats overlap: which format a word is read in is decided by
the port that presents it, never by the word. -/
inductive Format where
  | stream8
  | unesc
  | stuff8
  | type8
  | frame
  | op
  deriving DecidableEq, Repr

/-- What stands on a port for one step: the format, the row's own bits as bytes (the byte with the highest bit numbers
first, R99), and the operands that travel beside them (R41). `sel` numbers the operation of an OP request by its row's
`priority`; an OP row has no bits.
DESIGN CHOICE (notes/assumptions/2.md): the spec gives the OP rows and the operands beside a row no encoding. -/
structure Request where
  fmt : Format
  sel : Nat := 0
  bits : List Byte := []
  dir : Dir := .n2m
  seq : List Byte := []
  byte : Byte := 0#8
  portIn : Nat := 0
  cmd : Nibble := 0#4
  task : Nat := 0
  deriving DecidableEq, Repr

/-- Why a request stands for no row, by name. -/
inductive DecodeError where
  /-- The request has more or fewer bytes than a word of its format. -/
  | badLength (fmt : Format)
  /-- A FRAME request that is no frame: shorter than 3, or without FEND at either end (R81). -/
  | notAFrame
  /-- An OP request whose number is no row's. -/
  | noSuchOperation (sel : Nat)
  /-- NORMALIZE of the empty sequence (R112: "never applied to `[]`"). -/
  | emptyOperand
  deriving DecidableEq, Repr

/-- STREAM8 (R91): FEND, then the default row. -/
def decodeStream8 (d : Dir) (b : Byte) : Instr :=
  if b = FEND then .feedFend d else .feedData d b

/-- UNESC (R89, R99): the two pairs, the lone FESC, the default row; `n` absent at the end of the body. -/
def decodeUnesc (b : Byte) (n : Option Byte) : Instr :=
  if b = FESC ∧ n = some TFEND then .unescFend
  else if b = FESC ∧ n = some TFESC then .unescFesc
  else if b = FESC then .unescLonefesc n
  else .unescLit b n

/-- STUFF8 (R88): FEND and FESC, then the default row. -/
def decodeStuff8 (b : Byte) : Instr :=
  if b = FEND then .stuffFend else if b = FESC then .stuffFesc else .stuffLit b

/-- TYPE8 (R84, R85): `0xFF` first, then the row of the low nibble. -/
def decodeType8 (t : Byte) (payload : List Byte) : Instr :=
  let p := portOf t
  let c := cmdOf t
  if t = 0xFF#8 then .exitkiss payload
  else if c = 0x0#4 then .dataframe p payload
  else if c = 0x1#4 then .txdelay p payload
  else if c = 0x2#4 then .persistence p payload
  else if c = 0x3#4 then .slottime p payload
  else if c = 0x4#4 then .txtail p payload
  else if c = 0x5#4 then .fullduplex p payload
  else if c = 0x6#4 then .rsvd6 p payload
  else if c = 0x7#4 then .rsvd7 p payload
  else if c = 0x8#4 then .rsvd8 p payload
  else if c = 0x9#4 then .rsvd9 p payload
  else if c = 0xA#4 then .rsvda p payload
  else if c = 0xB#4 then .rsvdb p payload
  else if c = 0xC#4 then .ackmode p payload
  else if c = 0xD#4 then .rsvdd p payload
  else if c = 0xE#4 then .rsvde p payload
  else .rsvdf p payload

/-- FRAME (R81): FEND first and last, length at least 3. -/
def decodeFrameWord (f : List Byte) : Except DecodeError Instr :=
  match f with
  | x :: t :: y :: rest =>
    if x = FEND ∧ (y :: rest).getLast? = some FEND
    then .ok (.frame (portOf t) (cmdOf t) (y :: rest).dropLast)
    else .error .notAFrame
  | _ => .error .notAFrame

/-- OP (R99): the operation whose row has the priority `r.sel`, with its operands from the port. -/
def decodeOp (r : Request) : Except DecodeError Instr :=
  match r.sel with
  | 0 => .ok (.drd r.dir)
  | 1 => .ok (.iscomplete r.seq)
  | 2 => if r.seq.isEmpty then .error .emptyOperand else .ok (.normalize r.seq)
  | 3 => .ok (.processbyte r.dir r.byte)
  | 4 => .ok (.decode r.seq)
  | 5 => .ok (.unescape r.seq)
  | 6 => .ok (.encode r.seq r.portIn r.cmd)
  | 7 => .ok (.stuff r.byte)
  | 8 => .ok (.feed r.dir r.byte)
  | 9 => .ok .pumpN2m
  | 10 => .ok .pumpM2n
  | 11 => .ok .engBind
  | 12 => .ok .engAccept
  | 13 => .ok .engOpen
  | 14 => .ok .engJoin
  | 15 => .ok .engTeardown
  | 16 => .ok .engFatal
  | 17 => .ok (.dispatch r.task)
  | n => .error (.noSuchOperation n)

/-- The decoder: total, and it rejects by name. Operands a row does not have are not looked at. -/
def decode (r : Request) : Except DecodeError Instr :=
  match r.fmt with
  | .stream8 =>
    match r.bits with
    | [b] => .ok (decodeStream8 r.dir b)
    | _ => .error (.badLength .stream8)
  | .unesc =>
    match r.bits with
    | [b, n] => .ok (decodeUnesc b (some n))
    | [b] => .ok (decodeUnesc b none)
    | _ => .error (.badLength .unesc)
  | .stuff8 =>
    match r.bits with
    | [b] => .ok (decodeStuff8 b)
    | _ => .error (.badLength .stuff8)
  | .type8 =>
    match r.bits with
    | [t] => .ok (decodeType8 t r.seq)
    | _ => .error (.badLength .type8)
  | .frame => decodeFrameWord r.bits
  | .op => decodeOp r

/-- The type byte of a TYPE8 row (R82, R84): its port index over its command code. -/
def type8Request (p c : Nibble) (payload : List Byte) : Request :=
  { fmt := .type8, bits := [packType p c], seq := payload }

/-- The request of an OP row that takes no operand. -/
def opRequest (sel : Nat) : Request := { fmt := .op, sel := sel }

/-- The encoder: the request that stands for a term, every operand the row does not have at its default. -/
def encode : Instr → Request
  | .feedFend d => { fmt := .stream8, bits := [FEND], dir := d }
  | .feedData d b => { fmt := .stream8, bits := [b], dir := d }
  | .unescFend => { fmt := .unesc, bits := [FESC, TFEND] }
  | .unescFesc => { fmt := .unesc, bits := [FESC, TFESC] }
  | .unescLonefesc n => { fmt := .unesc, bits := FESC :: n.toList }
  | .unescLit b n => { fmt := .unesc, bits := b :: n.toList }
  | .stuffFend => { fmt := .stuff8, bits := [FEND] }
  | .stuffFesc => { fmt := .stuff8, bits := [FESC] }
  | .stuffLit b => { fmt := .stuff8, bits := [b] }
  | .exitkiss payload => { fmt := .type8, bits := [0xFF#8], seq := payload }
  | .dataframe p payload => type8Request p 0x0#4 payload
  | .txdelay p payload => type8Request p 0x1#4 payload
  | .persistence p payload => type8Request p 0x2#4 payload
  | .slottime p payload => type8Request p 0x3#4 payload
  | .txtail p payload => type8Request p 0x4#4 payload
  | .fullduplex p payload => type8Request p 0x5#4 payload
  | .rsvd6 p payload => type8Request p 0x6#4 payload
  | .rsvd7 p payload => type8Request p 0x7#4 payload
  | .rsvd8 p payload => type8Request p 0x8#4 payload
  | .rsvd9 p payload => type8Request p 0x9#4 payload
  | .rsvda p payload => type8Request p 0xA#4 payload
  | .rsvdb p payload => type8Request p 0xB#4 payload
  | .ackmode p payload => type8Request p 0xC#4 payload
  | .rsvdd p payload => type8Request p 0xD#4 payload
  | .rsvde p payload => type8Request p 0xE#4 payload
  | .rsvdf p payload => type8Request p 0xF#4 payload
  | .frame p c body => { fmt := .frame, bits := frameOf (packType p c) body }
  | .drd d => { fmt := .op, sel := 0, dir := d }
  | .iscomplete q => { fmt := .op, sel := 1, seq := q }
  | .normalize q => { fmt := .op, sel := 2, seq := q }
  | .processbyte d b => { fmt := .op, sel := 3, dir := d, byte := b }
  | .decode f => { fmt := .op, sel := 4, seq := f }
  | .unescape q => { fmt := .op, sel := 5, seq := q }
  | .encode payload portIn cmd => { fmt := .op, sel := 6, seq := payload, portIn := portIn, cmd := cmd }
  | .stuff b => { fmt := .op, sel := 7, byte := b }
  | .feed d b => { fmt := .op, sel := 8, dir := d, byte := b }
  | .pumpN2m => opRequest 9
  | .pumpM2n => opRequest 10
  | .engBind => opRequest 11
  | .engAccept => opRequest 12
  | .engOpen => opRequest 13
  | .engJoin => opRequest 14
  | .engTeardown => opRequest 15
  | .engFatal => opRequest 16
  | .dispatch task => { fmt := .op, sel := 17, task := task }

/-- A row of spec/opcode_table.json that has a pattern: its place in the file counted from 0, its format, priority, mask and
match, as numbers of the format's width (R100). -/
structure Row where
  place : Nat
  fmt : Format
  priority : Nat
  mask : Nat
  pattern : Nat
  deriving DecidableEq, Repr

/-- The rows of spec/opcode_table.json that have a pattern, in the file's order (R99, R100). -/
def tableRows : List Row :=
  [⟨0, .stream8, 0, 0xFF, 0xC0⟩, ⟨1, .stream8, 1, 0x00, 0x00⟩] ++
  [⟨2, .unesc, 0, 0xFFFF, 0xDBDC⟩, ⟨3, .unesc, 1, 0xFFFF, 0xDBDD⟩, ⟨4, .unesc, 2, 0xFF00, 0xDB00⟩,
   ⟨5, .unesc, 3, 0x0000, 0x0000⟩] ++
  [⟨6, .stuff8, 0, 0xFF, 0xC0⟩, ⟨7, .stuff8, 0, 0xFF, 0xDB⟩, ⟨8, .stuff8, 1, 0x00, 0x00⟩] ++
  [⟨9, .type8, 0, 0xFF, 0xFF⟩, ⟨10, .type8, 1, 0x0F, 0x00⟩, ⟨11, .type8, 1, 0x0F, 0x01⟩, ⟨12, .type8, 1, 0x0F, 0x02⟩,
   ⟨13, .type8, 1, 0x0F, 0x03⟩, ⟨14, .type8, 1, 0x0F, 0x04⟩, ⟨15, .type8, 1, 0x0F, 0x05⟩, ⟨16, .type8, 1, 0x0F, 0x06⟩,
   ⟨17, .type8, 1, 0x0F, 0x07⟩, ⟨18, .type8, 1, 0x0F, 0x08⟩, ⟨19, .type8, 1, 0x0F, 0x09⟩, ⟨20, .type8, 1, 0x0F, 0x0A⟩,
   ⟨21, .type8, 1, 0x0F, 0x0B⟩, ⟨22, .type8, 1, 0x0F, 0x0C⟩, ⟨23, .type8, 1, 0x0F, 0x0D⟩, ⟨24, .type8, 1, 0x0F, 0x0E⟩,
   ⟨25, .type8, 1, 0x0F, 0x0F⟩] ++
  [⟨26, .frame, 0, 0xFF00, 0xC000⟩]

/-- Whether the word `w` of the row's width fits the row. -/
def Row.fits (r : Row) (w : Nat) : Bool := w &&& r.mask == r.pattern

/-- The row's place in spec/opcode_table.json, counted from 0, of every term. -/
def Instr.place : Instr → Nat
  | .feedFend _ => 0 | .feedData _ _ => 1
  | .unescFend => 2 | .unescFesc => 3 | .unescLonefesc _ => 4 | .unescLit _ _ => 5
  | .stuffFend => 6 | .stuffFesc => 7 | .stuffLit _ => 8
  | .exitkiss _ => 9 | .dataframe _ _ => 10 | .txdelay _ _ => 11 | .persistence _ _ => 12 | .slottime _ _ => 13
  | .txtail _ _ => 14 | .fullduplex _ _ => 15 | .rsvd6 _ _ => 16 | .rsvd7 _ _ => 17 | .rsvd8 _ _ => 18
  | .rsvd9 _ _ => 19 | .rsvda _ _ => 20 | .rsvdb _ _ => 21 | .ackmode _ _ => 22 | .rsvdd _ _ => 23
  | .rsvde _ _ => 24 | .rsvdf _ _ => 25 | .frame _ _ _ => 26
  | .drd _ => 27 | .iscomplete _ => 28 | .normalize _ => 29 | .processbyte _ _ => 30 | .decode _ => 31
  | .unescape _ => 32 | .encode _ _ _ => 33 | .stuff _ => 34 | .feed _ _ => 35 | .pumpN2m => 36 | .pumpM2n => 37
  | .engBind => 38 | .engAccept => 39 | .engOpen => 40 | .engJoin => 41 | .engTeardown => 42 | .engFatal => 43
  | .dispatch _ => 44

/-- The request the host's number `w` of `nbits` bits is read as. A 16-bit row has the byte scanned first in bits 15 to 8
(R99). The table's formats overlap and the number does not say its format, so one is chosen.
DESIGN CHOICE (notes/assumptions/3.md, safe): of 8 bits, `0xC0` is read in STREAM8, `0xDB` in STUFF8, any other byte in TYPE8;
of 16 bits, a first byte `0xC0` opens a FRAME (completed by its closing FEND, the body empty) and any other is read in
UNESC; no bits select the OP row of priority 0. -/
def tableRequest (nbits w : Nat) : Request :=
  let lo : Byte := BitVec.ofNat 8 w
  let hi : Byte := BitVec.ofNat 8 (w >>> 8)
  if nbits = 0 then opRequest 0
  else if nbits ≤ 8 then
    if lo = FEND then { fmt := .stream8, bits := [lo] }
    else if lo = FESC then { fmt := .stuff8, bits := [lo] }
    else { fmt := .type8, bits := [lo] }
  else if hi = FEND then { fmt := .frame, bits := [hi, lo, FEND] }
  else { fmt := .unesc, bits := [hi, lo] }

/-- The operation the decoder reads from the host's number (none where it refuses). -/
def decodeTableWord (nbits w : Nat) : Option Instr :=
  match decode (tableRequest nbits w) with
  | .ok i => some i
  | .error _ => none

end Sys2Proof
end

