-- ==== Sys2Proof/Machine/Codec.lean ====
section
/-! DEFINITION. The pure functions of the codec: UNESCAPE and its one-bit machine, DECODE (spec/41_decode.md), STUFF and
ENCODE (spec/42_encode.md). They read no state and write none (spec/10_state.md R33, head paragraph). -/

namespace Sys2Proof.Machine

/-- The reason DECODE reports with `InvalidFrame` (R131 to R135, R139). -/
inductive FrameReason where
  | tooShort
  | noLeadingFend
  | noTrailingFend
  | fixedLen
  | exitPayload
  deriving DecidableEq, Repr

/-- The answer of `dec(frame)` (R41, R130). -/
inductive DecResult where
  | ok (payload : List Byte) (port cmd : Nibble) (kind : Kind)
  | invalidFrame (reason : FrameReason)
  deriving DecidableEq, Repr

/-- The answer of `enc(payload, port_in, cmd)` (R41, R150); `PortRange` is the only reason of `InvalidArgument`. -/
inductive EncResult where
  | ok (frame : List Byte)
  | invalidArgument
  deriving DecidableEq, Repr

/-- `UNESCAPE(s)` (R136): left to right, a recognised pair gives the byte it stands for and consumes two bytes, any other
byte gives itself. -/
def unescapeSeq : List Byte → List Byte
  | [] => []
  | [b] => [b]
  | b :: n :: rest =>
    if b = FESC ∧ n = TFEND then FEND :: unescapeSeq rest
    else if b = FESC ∧ n = TFESC then FESC :: unescapeSeq rest
    else b :: unescapeSeq (n :: rest)

/-- One row of the table of R137: the bytes put out and the next `esc`. -/
def escStep (esc : Bool) (b : Byte) : List Byte × Bool :=
  match esc with
  | false => if b = FESC then ([], true) else ([b], false)
  | true =>
    if b = TFEND then ([FEND], false)
    else if b = TFESC then ([FESC], false)
    else if b = FESC then ([FESC], true)
    else ([FESC, b], false)

/-- The end-of-body rows of R137. -/
def escEnd (esc : Bool) : List Byte := if esc then [FESC] else []

/-- The one-bit machine of R137 run over a body from a given `esc`. -/
def escRun : Bool → List Byte → List Byte
  | esc, [] => escEnd esc
  | esc, b :: rest => (escStep esc b).1 ++ escRun (escStep esc b).2 rest

/-- The length check of DECODE on the unescaped payload (R134, R135, R139) and its result (R130). -/
def decodeTail (t : Byte) (payload : List Byte) : DecResult :=
  if takesOneByte (cmdOf t) ∧ payload.length ≠ 1 then .invalidFrame .fixedLen
  else if t = 0xFF#8 ∧ payload.length ≠ 0 then .invalidFrame .exitPayload
  else .ok payload (portOf t) (cmdOf t) (kindOf (portOf t) (cmdOf t))

/-- `DECODE(f)` (R130), the checks in the order of R139. The type byte is the byte at index 1. -/
def decodeFrame (f : List Byte) : DecResult :=
  if f.length < 3 then .invalidFrame .tooShort
  else if f.head? ≠ some FEND then .invalidFrame .noLeadingFend
  else if f.getLast? ≠ some FEND then .invalidFrame .noTrailingFend
  else decodeTail (f.getD 1 0#8) (unescapeSeq (bodyOf f))

/-- `STUFF(b)` (R151). -/
def stuffByte (b : Byte) : List Byte :=
  if b = FEND then [FESC, TFEND] else if b = FESC then [FESC, TFESC] else [b]

/-- The stuffed payload of ENCODE (R150). -/
def stuffSeq (p : List Byte) : List Byte := p.flatMap stuffByte

/-- `ENCODE(p, port_in, cmd)` (R150). `port_in` is a number of any width `PORT_IN_W` (R7, notes/assumptions/7.md). -/
def encodeFrame (p : List Byte) (portIn : Nat) (cmd : Nibble) : EncResult :=
  if 15 < portIn then .invalidArgument
  else .ok (frameOf (packType (BitVec.ofNat 4 portIn) cmd) (stuffSeq p))

end Sys2Proof.Machine
end

