-- ==== Sys2Proof/Machine/Flags.lean ====
section
/-! DEFINITION. Every flag of the block: the `norm` flag of a frame event (spec/10_state.md R31), the completion test
(spec/40_stream_segmentation.md R111) and the overflow test behind the sticky `ovf[d]` (spec/10_state.md R30, R119). -/

namespace Sys2Proof.Machine

/-- `norm` (R31, R112): 1 when the sequence does not start with the FEND that should have arrived. -/
def normFlag (q : List Byte) : Bool := q.head? != some FEND

/-- `ISCOMPLETE(s)` (R111): length above 2, FEND first and FEND last. -/
def isComplete (q : List Byte) : Bool := 2 < q.length && q.head? == some FEND && q.getLast? == some FEND

/-- The overflow test of PROCESSBYTE (R113, R119): the accumulator already holds `ACC_DEPTH` bytes; never with an unbounded
one. -/
def accFull (depth : Option Nat) (acc : List Byte) : Bool := depth == some acc.length

/-- `ovf[d]` is sticky (R30): once set, an operation leaves it set. -/
def stickyOvf (old raised : Bool) : Bool := old || raised

end Sys2Proof.Machine
end

