-- ==== Sys2Proof/Machine/Segment.lean ====
section
/-! DEFINITION. The stream segmenter on one accumulator value (spec/40_stream_segmentation.md): DRD, NORMALIZE, PROCESSBYTE
and the named conditions of an accumulator (spec/10_state.md R24). -/

namespace Sys2Proof.Machine

/-- `DRD` on an accumulator value (R110): one trailing FEND of two is removed, every other value is kept. -/
def drdAcc (acc : List Byte) : List Byte :=
  if 2 ≤ acc.length ∧ acc.getLast? = some FEND ∧ acc.dropLast.getLast? = some FEND then acc.dropLast else acc

/-- `NORMALIZE(s)` (R112). Its operand is a non-empty sequence; PROCESSBYTE applies it to no other, and the row NORMALIZE refuses
the empty one. -/
def normalizeSeq (q : List Byte) : List Byte × Bool :=
  if normFlag q then (FEND :: q, true) else (q, false)

/-- What PROCESSBYTE leaves (R113): the accumulator, the frame it returns with its norm flag, and whether it raised
`AccOverflow`. -/
structure ByteResult where
  acc : List Byte
  frame : Option (List Byte × Bool)
  overflow : Bool
  deriving DecidableEq, Repr

/-- `PROCESSBYTE(d, b)` on the value of `acc[d]` (R113): the discard of item 1, the overflow of R119, the append of item 2, the
completion test on the normalised sequence (items 3 and 4; spec/90_conflicts.md C1). -/
def processByteAcc (depth : Option Nat) (acc : List Byte) (b : Byte) : ByteResult :=
  if b = FEND ∧ acc = [FEND] then ⟨acc, none, false⟩
  else if accFull depth acc then ⟨acc, none, true⟩
  else if b = FEND ∧ isComplete (normalizeSeq (acc ++ [b])).1 then
    ⟨[], some (normalizeSeq (acc ++ [b])), false⟩
  else ⟨acc ++ [b], none, false⟩

/-- The conditions of an accumulator between two steps (R24). -/
inductive AccCondition where
  | empty
  | opened
  | collectingDelimited
  | collectingUndelimited
  deriving DecidableEq, Repr

/-- The condition of an accumulator value that meets R23; `none` for a value no run reaches (R24). -/
def accCondition (acc : List Byte) : Option AccCondition :=
  if acc = [] then some .empty
  else if acc = [FEND] then some .opened
  else if acc.getLast? = some FEND then none
  else if acc.head? = some FEND then some .collectingDelimited
  else some .collectingUndelimited

end Sys2Proof.Machine
end

