-- ==== Sys2Proof/Machine/State.lean ====
section
/-! DEFINITION. The state of one proxy instance (spec/10_state.md R20 to R46), what the environment offers at its ports
(R36 to R41), the history of its port events, its failures (spec/60_exceptions.md R240) and the machine after reset. -/

namespace Sys2Proof.Machine

/-- `eng` (R26). -/
inductive Eng where
  | idle
  | listening
  | connected
  | relaying
  | tornDown
  | dead
  deriving DecidableEq, Repr

/-- The 3-bit code of `eng` (R26, R46). -/
def Eng.code : Eng → BitVec 3
  | .idle => 0#3 | .listening => 1#3 | .connected => 2#3 | .relaying => 3#3 | .tornDown => 4#3 | .dead => 7#3

/-- `pump[d]` (R27). -/
inductive Pump where
  | stopped
  | running
  deriving DecidableEq, Repr

/-- `phase[d]` (R28): `awaitWrite b` holds the byte read and fed and not yet written. -/
inductive Phase where
  | awaitRead
  | awaitWrite (b : Byte)
  deriving DecidableEq, Repr

/-- `tcp` and `ser` (R29). -/
inductive Link where
  | closed
  | opened
  deriving DecidableEq, Repr

/-- `lsn` (R29). -/
inductive Listener where
  | unbound
  | bound
  deriving DecidableEq, Repr

/-- The stage of a dispatch task (R32, R221). -/
inductive Stage where
  | framed
  | decode
  | unframed
  | describe
  | done
  deriving DecidableEq, Repr

/-- A dispatch task, the record of R32. `port`, `cmd` and `payload` are written by the stage Decode and read after it. -/
structure Task where
  dir : Dir
  frame : List Byte
  norm : Bool
  stage : Stage
  port : Nibble
  cmd : Nibble
  payload : List Byte
  deriving DecidableEq, Repr

/-- The failures of R240, one constructor per code. `invalidArgument` is an answer of ENCODE and `invalidFrame` one of DECODE;
all others are raised where R240 says. -/
inductive Failure where
  | invalidFrame (r : FrameReason)
  | invalidArgument
  | externalTool
  | tcpRead
  | serialWrite
  | serialRead
  | tcpWrite
  | bindFail
  | serialOpenFail
  | unexpected
  | accOverflow
  | handoffFail
  deriving DecidableEq, Repr

/-- The numeric code of a failure (R240). -/
def Failure.code : Failure → Nibble
  | .invalidFrame .tooShort => 0x1#4
  | .invalidFrame .noLeadingFend => 0x2#4
  | .invalidFrame .noTrailingFend => 0x3#4
  | .invalidFrame .fixedLen => 0x4#4
  | .invalidFrame .exitPayload => 0x5#4
  | .invalidArgument => 0x6#4
  | .externalTool => 0x7#4
  | .tcpRead => 0x8#4
  | .serialWrite => 0x9#4
  | .serialRead => 0xA#4
  | .tcpWrite => 0xB#4
  | .bindFail => 0xC#4
  | .serialOpenFail => 0xD#4
  | .unexpected => 0xE#4
  | .accOverflow => 0xF#4
  | .handoffFail => 0x0#4

/-- KP's classes of failure (R240). -/
inductive FailureClass where
  | protocolError
  | configurationError
  | externalToolError
  | transportError
  deriving DecidableEq, Repr

/-- The class R240 gives a failure; none where KP names none. -/
def Failure.kpClass : Failure → Option FailureClass
  | .invalidFrame _ => some .protocolError
  | .invalidArgument => some .configurationError
  | .externalTool => some .externalToolError
  | .tcpRead | .serialWrite | .serialRead | .tcpWrite => some .transportError
  | .bindFail | .serialOpenFail | .unexpected | .accOverflow | .handoffFail => none

/-- What a failure ends (R240, column "fatal to"). -/
inductive Extent where
  | nothing
  | call
  | iteration
  | proxy
  | assembler
  deriving DecidableEq, Repr

/-- The column "fatal to" of R240. -/
def Failure.fatalTo : Failure → Extent
  | .invalidFrame _ | .externalTool | .serialOpenFail | .handoffFail => .nothing
  | .invalidArgument => .call
  | .tcpRead | .serialWrite | .serialRead | .tcpWrite => .iteration
  | .bindFail | .unexpected => .proxy
  | .accOverflow => .assembler

/-- An event offered on `rx[d]` (R36). -/
inductive RxOffer where
  | byte (b : Byte)
  | fail
  deriving DecidableEq, Repr

/-- The describer's answer (R40, R228). -/
inductive DescAnswer where
  | text (t : List Byte)
  | noText
  deriving DecidableEq, Repr

/-- What the environment offers, in the order it offers it on each port (R36 to R40, R257). An answer is `true` for
`TxOk`, `BindOk`, `OpenOk`. An event stays here until a step consumes it (R258).
DESIGN CHOICE (notes/assumptions/4.md): the environment's free choices are plain data of the state. -/
structure Env where
  /-- `rx[d]`: the bytes and failures on offer. -/
  rx : PerDir (List RxOffer)
  /-- The answers the environment gives to `tx[d].TxWrite`. -/
  tx : PerDir (List Bool)
  /-- The answers to `ctl.ListenBind`. -/
  bind : List Bool
  /-- The answers to `ctl.SerOpen`. -/
  serOpen : List Bool
  /-- How many `ctl.Accepted` are on offer. -/
  accepted : Nat
  /-- How many `ctl.UnexpectedFailure` are on offer. -/
  unexpected : Nat
  /-- The environment's choice at each hand-off of a frame (R220); past the end of the list the choice is a free value. -/
  handoff : List Bool
  /-- The describer's answers; past the end of the list the answer is a free value (R228). -/
  describer : List DescAnswer
  /-- The reset input of the instance (R280) is asserted. -/
  resetIn : Bool
  deriving DecidableEq, Repr

/-- The environment that offers nothing. -/
def Env.quiet : Env :=
  { rx := ⟨[], []⟩, tx := ⟨[], []⟩, bind := [], serOpen := [], accepted := 0, unexpected := 0, handoff := [],
    describer := [], resetIn := false }

/-- An observation record (R40). `descReq` carries the answer it was given. -/
inductive ObsRec where
  | framed (d : Dir) (frame : List Byte) (norm : Bool)
  | unframed (d : Dir) (port cmd : Nibble) (kind : Kind) (payload : List Byte)
  | descReq (d : Dir) (port : Nibble) (payload : List Byte) (answer : DescAnswer)
  | decoded (d : Dir) (port : Nibble) (text : List Byte)
  deriving DecidableEq, Repr

/-- The answer of a codec call (R41) or of an operation called by itself. -/
inductive Answer where
  | isComplete (r : Bool)
  | normalized (q : List Byte) (norm : Bool)
  | processed (d : Dir) (r : Option (List Byte × Bool))
  | fed (d : Dir) (r : Option (List Byte × Bool))
  | dec (r : DecResult)
  | unescaped (q : List Byte)
  | enc (r : EncResult)
  | stuffed (q : List Byte)
  | scanned (emitted : List Byte) (consumed : Nat)
  deriving DecidableEq, Repr

/-- A port event (R36 to R41): an input the block consumed, or an output it produced. A call carries the answer it was
given. -/
inductive Event where
  | rxByte (d : Dir) (b : Byte)
  | rxFail (d : Dir)
  | txWrite (d : Dir) (b : Byte) (ok : Bool)
  | listenBind (port : Nat) (loopbackOnly ok : Bool)
  | accepted
  | serOpen (device : List Byte) (baud : Nat) (ok : Bool)
  | serClose
  | tcpClose
  | unexpected
  | frame (d : Dir) (frame : List Byte) (norm : Bool)
  | obs (inst : List Byte) (b64 : Bool) (r : ObsRec)
  | log (inst : List Byte) (f : Failure) (d : Option Dir)
  | codec (a : Answer)
  | reset
  deriving DecidableEq, Repr

/-- What stops the machine with a fault. No failure of R240 is one: each has a reaction the spec gives, and is modelled. -/
inductive Fault where
  /-- Raised by `step` alone, when what the scheduler presents stands for no row of the table. Safe: the block has no such
  input, so no run of it is cut short. -/
  | undecodable (e : DecodeError)
  deriving DecidableEq, Repr

/-- Why an operation has no meaning. -/
inductive Refusal where
  /-- Raised by an arm of `exec` whose instruction has no meaning yet. Safe. -/
  | notModelled (mnemonic : String)
  /-- Raised by FEED, FEED.FEND, FEED.DATA, PROCESSBYTE and DRD when they are called from outside while the pump of the same
  direction runs: a second source on one assembler (R171, R286; spec/93_implementation_defined.md U1: "refuse"). Safe. -/
  | secondSource (d : Dir)
  /-- Raised by NORMALIZE of the empty sequence, which is no operand of it (R112, R11 "no meaning"). Safe. -/
  | emptyOperand
  deriving DecidableEq, Repr

/-- The state of one proxy instance: the elements of R46, then the model's own fields (`cfg` and below). -/
structure State where
  /-- `acc[d]`, the accumulators (R20, R21). -/
  acc : PerDir (List Byte)
  /-- `eng` (R26). -/
  eng : Eng
  /-- `pump[d]` (R27). -/
  pump : PerDir Pump
  /-- `phase[d]` (R28). -/
  phase : PerDir Phase
  /-- `tcp` (R29). -/
  tcp : Link
  /-- `ser` (R29). -/
  ser : Link
  /-- `lsn` (R29). -/
  lsn : Listener
  /-- `ovf[d]`, sticky (R30). -/
  ovf : PerDir Bool
  /-- `inflight` (R32): a multiset, held as the list of its tasks in the order they were created. -/
  inflight : List Task
  /-- The configuration inputs (R35) and open parameters (R7); no step writes them. -/
  cfg : Cfg
  /-- What the environment offers (R36 to R40). -/
  env : Env
  /-- MODEL'S OWN: which agent moves next and what stands on its port (R6, R41), oldest first. -/
  sched : List Request
  /-- MODEL'S OWN: the events of every port so far, oldest first (R36 to R41). -/
  trace : List Event
  /-- MODEL'S OWN: how many free values `Config.handoffSucceeds` have been taken. -/
  freeHandoff : Nat
  /-- MODEL'S OWN: how many free values `Config.faultedFrame` have been taken. -/
  freeFrame : Nat
  /-- MODEL'S OWN: how many free values `Config.describerText` have been taken. -/
  freeDescriber : Nat
  deriving DecidableEq, Repr

/-- A new instance under the configuration `c` (R42 to R45, R281): every element at its reset value, nothing offered,
nothing scheduled, nothing yet seen. -/
def State.resetWith (c : Cfg) : State :=
  { acc := .both [], eng := .idle, pump := .both .stopped, phase := .both .awaitRead, tcp := .closed, ser := .closed,
    lsn := .unbound, ovf := .both false, inflight := [], cfg := c, env := .quiet, sched := [], trace := [],
    freeHandoff := 0, freeFrame := 0, freeDescriber := 0 }

/-- The machine right after reset (R42 to R45, R281), under the zero configuration. -/
def State.reset : State := State.resetWith Cfg.zero

end Sys2Proof.Machine
end

