-- ==== Sys2Proof/Machine/Ops.lean ====
section
/-! DEFINITION. The named operations on the state every meaning is written over: emitting a port event, raising a failure
(spec/60_exceptions.md R240, R262), closing a transport, the assembler (spec/43_assembler_feed.md), the hand-off of a frame
(spec/45_dispatch.md R220), the reaction to a transport failure and the way back from it, and the reset input. -/

namespace Sys2Proof.Machine

/-- The outcome of one step. -/
abbrev Result := Host.Outcome State Fault Refusal

/-- `emit <port>.<event>` (R10). -/
def State.emit (s : State) (e : Event) : State := { s with trace := s.trace ++ [e] }

/-- The answer of an operation called by itself, on the codec port (R41). -/
def State.answer (s : State) (a : Answer) : State := s.emit (.codec a)

/-- `log.Failure(code, reason, d?)`, carrying `cfg.instance` (R255, R262). -/
def State.logFailure (s : State) (f : Failure) (d : Option Dir) : State := s.emit (.log s.cfg.instName f d)

/-- An observation record, carrying `cfg.instance` and `cfg.b64` unchanged (R40, R230). -/
def State.observe (s : State) (r : ObsRec) : State := s.emit (.obs s.cfg.instName s.cfg.b64 r)

/-- `MemRead(d, i, 1)` (R10, R56): the byte of `acc[d]` at index `i`, none outside the accumulator (R9). -/
def State.accRead (s : State) (d : Dir) (i : Nat) : Option Byte := (s.acc.get d)[i]?

def State.setAcc (s : State) (d : Dir) (v : List Byte) : State := { s with acc := s.acc.set d v }

def State.setPump (s : State) (d : Dir) (v : Pump) : State := { s with pump := s.pump.set d v }

def State.setPhase (s : State) (d : Dir) (v : Phase) : State := { s with phase := s.phase.set d v }

def State.setOvf (s : State) (d : Dir) (v : Bool) : State := { s with ovf := s.ovf.set d v }

/-- A step that is not enabled, or whose event is not on offer, is not taken and consumes nothing (R258, R303;
spec/95_test_vectors.md V-R9 "nothing changes"). -/
def State.wait (s : State) : State := s

/-- `emit ctl.SerClose; ser <- Closed` (R38, R181). -/
def State.closeSer (s : State) : State := { s.emit .serClose with ser := .closed }

/-- `emit ctl.TcpClose; tcp <- Closed` (R38, R182). -/
def State.closeTcp (s : State) : State := { s.emit .tcpClose with tcp := .closed }

/-- Each pump closes the transport it writes to (R183). -/
def State.closeSink (s : State) : Dir → State
  | .n2m => s.closeSer
  | .m2n => s.closeTcp

/-- TAKING A TRANSPORT FAILURE (R243 to R247, R260): the pump closes the transport it writes to, logs, is back at
`AwaitRead`, and stops. Nothing is saved and no other agent is told. -/
def State.transportFail (s : State) (d : Dir) (f : Failure) : State :=
  (((s.closeSink d).logFailure f none).setPhase d .awaitRead).setPump d .stopped

/-- The failure of the read of direction `d` (R244, R246). -/
def readFailure : Dir → Failure
  | .n2m => .tcpRead
  | .m2n => .serialRead

/-- The failure of the write of direction `d` (R245, R247). -/
def writeFailure : Dir → Failure
  | .n2m => .serialWrite
  | .m2n => .tcpWrite

/-- THE WAY BACK from a transport failure (R261) ends here: both pumps run again, from `AwaitRead` (R193). Nothing is
restored, because nothing was saved; the accumulators are not touched. -/
def State.startPumps (s : State) : State := { s with phase := .both .awaitRead, pump := .both .running }

/-- A failure that ends the instance (R248, R250): logged, then `eng <- Dead`, all else left as it was (R197). -/
def State.die (s : State) (f : Failure) : State := { s.logFailure f none with eng := .dead }

/-- The flush of `ENG.TEARDOWN` under `FLUSH_ON_TEARDOWN` (R196, R207). -/
def State.flush (s : State) : State := if s.cfg.flushOnTeardown then { s with acc := .both [] } else s

/-- The pump of direction `d` runs: its steps are enabled (R180). -/
abbrev State.pumpRuns (s : State) (d : Dir) : Prop := s.eng = .relaying ∧ s.pump.get d = .running

/-- The assembler of direction `d` takes calls from outside: the instance has not ended (R26, R198) and no pump feeds it (R171).
Relaying with that pump stopped is among these states by choice (notes/assumptions/25.md). -/
abbrev State.openTo (s : State) (d : Dir) : Prop := s.eng ≠ .dead ∧ ¬ s.pumpRuns d

/-- `DRD(d)` (R110). -/
def State.drd (s : State) (d : Dir) : State := s.setAcc d (drdAcc (s.acc.get d))

/-- The result of PROCESSBYTE when the assembler is not faulted, or overflows: the one of R113. A faulted assembler that does
not overflow hands out a free value (R30, R256; notes/assumptions/6.md). -/
def State.assemblerResult (s : State) (d : Dir) (r : ByteResult) : Option (List Byte × Bool) :=
  if s.ovf.get d ∧ ¬ r.overflow then Config.faultedFrame s.freeFrame else r.frame

/-- `PROCESSBYTE(d, b)` on the state (R113, R119, R256): the accumulator, the sticky `ovf[d]`, the log event of an overflow. -/
def State.processByte (s : State) (d : Dir) (b : Byte) : State × Option (List Byte × Bool) :=
  let r := processByteAcc s.cfg.accDepth (s.acc.get d) b
  let taken := if s.ovf.get d ∧ ¬ r.overflow then 1 else 0
  let s1 := (s.setAcc d r.acc).setOvf d (stickyOvf (s.ovf.get d) r.overflow)
  let s2 := if r.overflow then s1.logFailure .accOverflow (some d) else s1
  ({ s2 with freeFrame := s2.freeFrame + taken }, s.assemblerResult d r)

/-- The record a frame event puts into `inflight` (R220): stage Framed, nothing decoded yet. -/
def newTask (d : Dir) (frame : List Byte) (norm : Bool) : Task :=
  { dir := d, frame := frame, norm := norm, stage := .framed, port := 0#4, cmd := 0#4, payload := [] }

/-- The environment's choice at a hand-off (R220; spec/93_implementation_defined.md U6): the next one it offers, a free value
when it offers none; and the state with the choice taken. -/
def State.takeHandoff (s : State) : Bool × State :=
  match s.env.handoff with
  | c :: rest => (c, { s with env := { s.env with handoff := rest } })
  | [] => (Config.handoffSucceeds s.freeHandoff, { s with freeHandoff := s.freeHandoff + 1 })

/-- What follows a frame event in the same step (R220): nothing without a sink; else a task, or the failure `HandoffFail`. -/
def State.handOff (s : State) (d : Dir) (frame : List Byte) (norm : Bool) : State :=
  if s.cfg.sinkPresent then
    match s.takeHandoff with
    | (true, s1) => { s1 with inflight := s1.inflight ++ [newTask d frame norm] }
    | (false, s1) => s1.logFailure .handoffFail none
  else s

/-- `emit frame_ev.Frame(d, frame, norm)` and the hand-off that follows it (R39, R220). -/
def State.frameEvent (s : State) (d : Dir) (frame : List Byte) (norm : Bool) : State :=
  (s.emit (.frame d frame norm)).handOff d frame norm

/-- `FEED(d, b)` (R170): DRD, then PROCESSBYTE, then the frame event of a completed frame. -/
def State.feed (s : State) (d : Dir) (b : Byte) : State × Option (List Byte × Bool) :=
  let r := (s.drd d).processByte d b
  match r.2 with
  | some (frame, norm) => (r.1.frameEvent d frame norm, r.2)
  | none => r

/-- The reset input (R280, R281): every element of R46 at its reset value at once; the configuration, what the environment
offers and the history of the ports are not the block's and stay. -/
def State.applyReset (s : State) : State :=
  { State.resetWith s.cfg with
    env := { s.env with resetIn := false }, sched := s.sched, trace := s.trace ++ [.reset],
    freeHandoff := s.freeHandoff, freeFrame := s.freeFrame, freeDescriber := s.freeDescriber }

end Sys2Proof.Machine
end

