-- ==== Sys2Proof/Machine/CodecRows.lean ====
section
/-! DEFINITION. The meanings of the codec: the rows of UNESC, STUFF8, TYPE8 and FRAME (spec/30_encoding.md) and the
operations DECODE, UNESCAPE (spec/41_decode.md), ENCODE, STUFF (spec/42_encode.md). They change nothing but the answer on
the codec port; `InvalidFrame` and `InvalidArgument` are answers there and are not logged (R262). -/

namespace Sys2Proof.Machine

/-- One case of the unescape scan (R89): the bytes emitted and how many were consumed. -/
def scanRow (emitted : List Byte) (consumed : Nat) (s : State) : Result :=
  .next (s.answer (.scanned emitted consumed))

/-- UNESC.FEND (R89, R136): the pair DB DC gives C0. -/
def execUnescFend (s : State) : Result := scanRow [FEND] 2 s

/-- UNESC.FESC (R89, R136): the pair DB DD gives DB. -/
def execUnescFesc (s : State) : Result := scanRow [FESC] 2 s

/-- UNESC.LONEFESC (R89, R136): FESC that starts no recognised pair gives itself; the byte after it is not consumed. -/
def execUnescLonefesc (_n : Option Byte) (s : State) : Result := scanRow [FESC] 1 s

/-- UNESC.LIT (R89, R136): any byte other than FESC gives itself; the byte after it is not looked at. -/
def execUnescLit (b : Byte) (_n : Option Byte) (s : State) : Result := scanRow [b] 1 s

/-- One case of the stuffing (R88): the body bytes of one payload byte. -/
def stuffRow (out : List Byte) (s : State) : Result := .next (s.answer (.stuffed out))

/-- STUFF.FEND (R88, R151). -/
def execStuffFend (s : State) : Result := stuffRow [FESC, TFEND] s

/-- STUFF.FESC (R88, R151). -/
def execStuffFesc (s : State) : Result := stuffRow [FESC, TFESC] s

/-- STUFF.LIT (R88, R151). -/
def execStuffLit (b : Byte) (s : State) : Result := stuffRow [b] s

/-- A TYPE8 row whose payload has any length (R84, R86, R87). -/
def anyLengthRow (k : Kind) (p c : Nibble) (payload : List Byte) (s : State) : Result :=
  .next (s.answer (.dec (.ok payload p c k)))

/-- A TYPE8 row that takes exactly one payload byte (R84, R87, R134). -/
def oneByteRow (k : Kind) (p c : Nibble) (payload : List Byte) (s : State) : Result :=
  if payload.length = 1 then .next (s.answer (.dec (.ok payload p c k)))
  else .next (s.answer (.dec (.invalidFrame .fixedLen)))

/-- EXITKISS (R85, R135): port 15 and command 15 together, no payload at all. -/
def execExitkiss (payload : List Byte) (s : State) : Result :=
  if payload.length = 0 then .next (s.answer (.dec (.ok payload 0xF#4 0xF#4 .exitKissMode)))
  else .next (s.answer (.dec (.invalidFrame .exitPayload)))

/-- DATAFRAME (R84). -/
def execDataframe (p : Nibble) (payload : List Byte) (s : State) : Result := anyLengthRow .dataFrame p 0x0#4 payload s

/-- TXDELAY (R84). -/
def execTxdelay (p : Nibble) (payload : List Byte) (s : State) : Result := oneByteRow .txDelay p 0x1#4 payload s

/-- PERSISTENCE (R84). -/
def execPersistence (p : Nibble) (payload : List Byte) (s : State) : Result := oneByteRow .persistence p 0x2#4 payload s

/-- SLOTTIME (R84). -/
def execSlottime (p : Nibble) (payload : List Byte) (s : State) : Result := oneByteRow .slotTime p 0x3#4 payload s

/-- TXTAIL (R84). -/
def execTxtail (p : Nibble) (payload : List Byte) (s : State) : Result := oneByteRow .txTail p 0x4#4 payload s

/-- FULLDUPLEX (R84). -/
def execFullduplex (p : Nibble) (payload : List Byte) (s : State) : Result := oneByteRow .fullDuplex p 0x5#4 payload s

/-- RSVD6 (R86). -/
def execRsvd6 (p : Nibble) (payload : List Byte) (s : State) : Result := anyLengthRow (.unknown 0x6#4) p 0x6#4 payload s

/-- RSVD7 (R86). -/
def execRsvd7 (p : Nibble) (payload : List Byte) (s : State) : Result := anyLengthRow (.unknown 0x7#4) p 0x7#4 payload s

/-- RSVD8 (R86). -/
def execRsvd8 (p : Nibble) (payload : List Byte) (s : State) : Result := anyLengthRow (.unknown 0x8#4) p 0x8#4 payload s

/-- RSVD9 (R86). -/
def execRsvd9 (p : Nibble) (payload : List Byte) (s : State) : Result := anyLengthRow (.unknown 0x9#4) p 0x9#4 payload s

/-- RSVDA (R86). -/
def execRsvda (p : Nibble) (payload : List Byte) (s : State) : Result := anyLengthRow (.unknown 0xA#4) p 0xA#4 payload s

/-- RSVDB (R86). -/
def execRsvdb (p : Nibble) (payload : List Byte) (s : State) : Result := anyLengthRow (.unknown 0xB#4) p 0xB#4 payload s

/-- ACKMODE (R84, R224): nothing is stripped from the payload. -/
def execAckmode (p : Nibble) (payload : List Byte) (s : State) : Result := anyLengthRow .ackMode p 0xC#4 payload s

/-- RSVDD (R86). -/
def execRsvdd (p : Nibble) (payload : List Byte) (s : State) : Result := anyLengthRow (.unknown 0xD#4) p 0xD#4 payload s

/-- RSVDE (R86). -/
def execRsvde (p : Nibble) (payload : List Byte) (s : State) : Result := anyLengthRow (.unknown 0xE#4) p 0xE#4 payload s

/-- RSVDF (R86): with a port other than 15. -/
def execRsvdf (p : Nibble) (payload : List Byte) (s : State) : Result := anyLengthRow (.unknown 0xF#4) p 0xF#4 payload s

/-- FRAME (R81, R82): a whole frame given by its fields, decoded. -/
def execFrame (p c : Nibble) (body : List Byte) (s : State) : Result :=
  .next (s.answer (.dec (decodeFrame (frameOf (packType p c) body))))

/-- DECODE (R130) on the codec port `dec` (R41). -/
def execDecode (f : List Byte) (s : State) : Result := .next (s.answer (.dec (decodeFrame f)))

/-- UNESCAPE (R136). -/
def execUnescape (q : List Byte) (s : State) : Result := .next (s.answer (.unescaped (unescapeSeq q)))

/-- ENCODE (R150) on the codec port `enc` (R41). -/
def execEncode (payload : List Byte) (portIn : Nat) (cmd : Nibble) (s : State) : Result :=
  .next (s.answer (.enc (encodeFrame payload portIn cmd)))

/-- STUFF (R151). -/
def execStuff (b : Byte) (s : State) : Result := .next (s.answer (.stuffed (stuffByte b)))

end Sys2Proof.Machine
end

