-- ==== Sys2Proof/Machine/Dispatcher.lean ====
section
/-! DEFINITION. The frame dispatcher (spec/45_dispatch.md R221 to R232): the steps of one dispatch task. -/

namespace Sys2Proof.Machine

/-- `inflight` with the task at place `k` replaced. -/
def State.setTask (s : State) (k : Nat) (t : Task) : State := { s with inflight := s.inflight.set k t }

/-- `inflight - {task}` (R221). -/
def State.dropTask (s : State) (k : Nat) : State := { s with inflight := s.inflight.eraseIdx k }

/-- Whether a description is requested for the kind (R221, R224). -/
def Kind.described : Kind → Bool
  | .dataFrame | .ackMode => true
  | .txDelay | .persistence | .slotTime | .txTail | .fullDuplex | .exitKissMode | .unknown _ => false

/-- Stage Framed (R222): the record goes out before the decode is tried. -/
def dispatchFramed (s : State) (k : Nat) (t : Task) : State :=
  (s.observe (.framed t.dir t.frame t.norm)).setTask k { t with stage := .decode }

/-- Stage Decode (R223): a decode failure is logged and ends the task. -/
def dispatchDecode (s : State) (k : Nat) (t : Task) : State :=
  match decodeFrame t.frame with
  | .invalidFrame r => (s.logFailure (.invalidFrame r) (some t.dir)).setTask k { t with stage := .done }
  | .ok payload port cmd _ => s.setTask k { t with stage := .unframed, payload := payload, port := port, cmd := cmd }

/-- Stage Unframed (R223, R224). -/
def dispatchUnframed (s : State) (k : Nat) (t : Task) : State :=
  (s.observe (.unframed t.dir t.port t.cmd (kindOf t.port t.cmd) t.payload)).setTask k
    { t with stage := if (kindOf t.port t.cmd).described then .describe else .done }

/-- The n-th answer of the describer that the environment's list does not state (R228; notes/assumptions/24.md): a free value. -/
def freeDescription (n : Nat) : DescAnswer :=
  match Config.describerText n with
  | some x => .text x
  | none => .noText

/-- The describer's answer (R228; D19 of spec/92_eei_decisions.md): the next one the environment states, a free value when it states
none, so that it always comes; and the state with the answer taken. -/
def State.takeDescription (s : State) : DescAnswer × State :=
  match s.env.describer with
  | a :: rest => (a, { s with env := { s.env with describer := rest } })
  | [] => (freeDescription s.freeDescriber, { s with freeDescriber := s.freeDescriber + 1 })

/-- The request for a description with its answer, and what follows the answer (R40, R221, R228, R251). -/
def State.describe (s : State) (t : Task) (a : DescAnswer) : State :=
  let s1 := s.observe (.descReq t.dir t.port t.payload a)
  match a with
  | .text x => s1.observe (.decoded t.dir t.port x)
  | .noText => s1.logFailure .externalTool (some t.dir)

/-- Stage Describe (R221, R224): it ends with the answer, which always comes. -/
def dispatchDescribe (s : State) (k : Nat) (t : Task) : State :=
  (s.takeDescription.2.describe t s.takeDescription.1).setTask k { t with stage := .done }

/-- DISPATCH (R221): one step of the task at place `k` of `inflight`; no such task, no step. -/
def execDispatch (k : Nat) (s : State) : Result :=
  .next
    (match s.inflight[k]? with
    | none => s.wait
    | some t =>
      match t.stage with
      | .framed => dispatchFramed s k t
      | .decode => dispatchDecode s k t
      | .unframed => dispatchUnframed s k t
      | .describe => dispatchDescribe s k t
      | .done => s.dropTask k)

end Sys2Proof.Machine
end

