-- ==== Sys2Proof/Machine/Relay.lean ====
section
/-! DEFINITION. The relay (spec/44_relay.md): the two byte pumps and the engine's life cycle. A step whose enabling condition
fails, or whose event or answer is not on offer, waits (spec/60_exceptions.md R258; notes/assumptions/8.md). -/

namespace Sys2Proof.Machine

/-- The reading half of a pump (R181, R182): `await rx[d]`. -/
def pumpRead (s : State) (d : Dir) : State :=
  match s.env.rx.get d with
  | [] => s.wait
  | .fail :: rest =>
    (({ s with env := { s.env with rx := s.env.rx.set d rest } }).emit (.rxFail d)).transportFail d (readFailure d)
  | .byte b :: rest =>
    ((({ s with env := { s.env with rx := s.env.rx.set d rest } }).emit (.rxByte d b)).feed d b).1.setPhase d
      (.awaitWrite b)

/-- The writing half of a pump (R181, R182): the same byte, unchanged, and the answer to its `TxWrite`. -/
def pumpWrite (s : State) (d : Dir) (b : Byte) : State :=
  match s.env.tx.get d with
  | [] => s.wait
  | true :: rest =>
    (({ s with env := { s.env with tx := s.env.tx.set d rest } }).emit (.txWrite d b true)).setPhase d .awaitRead
  | false :: rest =>
    (({ s with env := { s.env with tx := s.env.tx.set d rest } }).emit (.txWrite d b false)).transportFail d
      (writeFailure d)

/-- One step of the pump of direction `d`, enabled when `eng = Relaying` and `pump[d] = Running` (R180). -/
def pumpStep (s : State) (d : Dir) : State :=
  if s.pumpRuns d then
    match s.phase.get d with
    | .awaitRead => pumpRead s d
    | .awaitWrite b => pumpWrite s d b
  else s.wait

/-- PUMP.N2M (R181). -/
def execPumpN2m (s : State) : Result := .next (pumpStep s .n2m)

/-- PUMP.M2N (R182). -/
def execPumpM2n (s : State) : Result := .next (pumpStep s .m2n)

/-- `emit ctl.ListenBind(cfg.listen_port, cfg.loopback_only)` with its answer (R38, R191). -/
def State.callBind (s : State) (rest : List Bool) (ok : Bool) : State :=
  ({ s with env := { s.env with bind := rest } }).emit (.listenBind s.cfg.listenPort s.cfg.loopbackOnly ok)

/-- ENG.BIND (R191). -/
def execEngBind (s : State) : Result :=
  .next
    (if s.eng = .idle then
      match s.env.bind with
      | [] => s.wait
      | true :: rest => { s.callBind rest true with lsn := .bound, eng := .listening }
      | false :: rest => (s.callBind rest false).die .bindFail
    else s.wait)

/-- ENG.ACCEPT (R192). -/
def execEngAccept (s : State) : Result :=
  .next
    (if s.eng = .listening then
      match s.env.accepted with
      | 0 => s.wait
      | n + 1 =>
        { ({ s with env := { s.env with accepted := n } }).emit .accepted with tcp := .opened, eng := .connected }
    else s.wait)

/-- `emit ctl.SerOpen(cfg.ser_device, cfg.baud)` with its answer (R38, R193). -/
def State.callSerOpen (s : State) (rest : List Bool) (ok : Bool) : State :=
  ({ s with env := { s.env with serOpen := rest } }).emit (.serOpen s.cfg.serDevice s.cfg.baud ok)

/-- ENG.OPEN (R193). -/
def execEngOpen (s : State) : Result :=
  .next
    (if s.eng = .connected then
      match s.env.serOpen with
      | [] => s.wait
      | true :: rest => { (s.callSerOpen rest true).startPumps with ser := .opened, eng := .relaying }
      | false :: rest =>
        { (((s.callSerOpen rest false).logFailure .serialOpenFail none).closeTcp) with eng := .listening }
    else s.wait)

/-- ENG.JOIN (R194). -/
def execEngJoin (s : State) : Result :=
  .next
    (if s.eng = .relaying ∧ s.pump.get .n2m = .stopped ∧ s.pump.get .m2n = .stopped then { s with eng := .tornDown }
    else s.wait)

/-- ENG.TEARDOWN (R196). -/
def execEngTeardown (s : State) : Result :=
  .next (if s.eng = .tornDown then { s.closeSer.closeTcp.flush with eng := .listening } else s.wait)

/-- The states in which `UnexpectedFailure` is consumed (R197, R258). -/
def Eng.mayFail : Eng → Bool
  | .listening | .connected | .relaying | .tornDown => true
  | .idle | .dead => false

/-- ENG.FATAL (R197). -/
def execEngFatal (s : State) : Result :=
  .next
    (if s.eng.mayFail then
      match s.env.unexpected with
      | 0 => s.wait
      | n + 1 => (({ s with env := { s.env with unexpected := n } }).emit .unexpected).die .unexpected
    else s.wait)

end Sys2Proof.Machine
end

