-- ==== Sys2Proof/Machine/Stream.lean ====
section
/-! DEFINITION. The meanings of the segmenter and the assembler: the rows FEED.FEND, FEED.DATA (format STREAM8) and the
operations DRD, ISCOMPLETE, NORMALIZE, PROCESSBYTE (spec/40_stream_segmentation.md), FEED (spec/43_assembler_feed.md). -/

namespace Sys2Proof.Machine

/-- A call from outside on the assembler of direction `d`. In `Dead` it is not enabled, as no step of the instance is (R26; D29 of
spec/92_eei_decisions.md), and nothing changes. Else it has a meaning only while no pump feeds that direction (R171, R286): with two
sources the spec's treatment is to refuse (spec/93_implementation_defined.md U1). notes/assumptions/9.md.
DESIGN CHOICE (notes/assumptions/25.md, unsafe): in `Relaying` with `pump[d]` stopped the call runs. R22 and R41 say that during relaying
only the pump of `d` calls, R171 and R286 deny a meaning only while that pump runs, and no rule says what this call does. -/
def whenSoleSource (s : State) (d : Dir) (t : State) : Result :=
  if s.eng = .dead then .next s.wait
  else if s.pumpRuns d then .refused (.secondSource d)
  else .next t

/-- `FEED(d, b)` on the codec port `feed` (R41, R170). -/
def feedCall (s : State) (d : Dir) (b : Byte) : Result :=
  whenSoleSource s d ((s.feed d b).1.answer (.fed d (s.feed d b).2))

/-- FEED.FEND (R91, R113): the stream byte is FEND. -/
def execFeedFend (d : Dir) (s : State) : Result := feedCall s d FEND

/-- FEED.DATA (R91, R113): any other stream byte. -/
def execFeedData (d : Dir) (b : Byte) (s : State) : Result := feedCall s d b

/-- FEED (R170). -/
def execFeed (d : Dir) (b : Byte) (s : State) : Result := feedCall s d b

/-- DRD (R110). -/
def execDrd (d : Dir) (s : State) : Result := whenSoleSource s d (s.drd d)

/-- ISCOMPLETE (R111): reads and writes no state, answers. -/
def execIscomplete (q : List Byte) (s : State) : Result := .next (s.answer (.isComplete (isComplete q)))

/-- NORMALIZE (R112): answers the pair; no operand is the empty sequence. -/
def execNormalize (q : List Byte) (s : State) : Result :=
  if q = [] then .refused .emptyOperand
  else .next (s.answer (.normalized (normalizeSeq q).1 (normalizeSeq q).2))

/-- PROCESSBYTE (R113): answers `None` or `Some(frame, norm)`; the frame event is its caller's. -/
def execProcessbyte (d : Dir) (b : Byte) (s : State) : Result :=
  whenSoleSource s d ((s.processByte d b).1.answer (.processed d (s.processByte d b).2))

end Sys2Proof.Machine
end

