-- ==== Sys2Proof/Machine/Dispatch.lean ====
section
/-! DEFINITION. One arm per row of spec/opcode_table.json, each a call of its meaning. -/

namespace Sys2Proof.Machine

/-- The effect of one operation. -/
def exec (i : Instr) (s : State) : Host.Outcome State Fault Refusal :=
  match i with
  | .feedFend d => Sys2Proof.Machine.execFeedFend d s
  | .feedData d b => Sys2Proof.Machine.execFeedData d b s
  | .unescFend => Sys2Proof.Machine.execUnescFend s
  | .unescFesc => Sys2Proof.Machine.execUnescFesc s
  | .unescLonefesc n => Sys2Proof.Machine.execUnescLonefesc n s
  | .unescLit b n => Sys2Proof.Machine.execUnescLit b n s
  | .stuffFend => Sys2Proof.Machine.execStuffFend s
  | .stuffFesc => Sys2Proof.Machine.execStuffFesc s
  | .stuffLit b => Sys2Proof.Machine.execStuffLit b s
  | .exitkiss payload => Sys2Proof.Machine.execExitkiss payload s
  | .dataframe p payload => Sys2Proof.Machine.execDataframe p payload s
  | .txdelay p payload => Sys2Proof.Machine.execTxdelay p payload s
  | .persistence p payload => Sys2Proof.Machine.execPersistence p payload s
  | .slottime p payload => Sys2Proof.Machine.execSlottime p payload s
  | .txtail p payload => Sys2Proof.Machine.execTxtail p payload s
  | .fullduplex p payload => Sys2Proof.Machine.execFullduplex p payload s
  | .rsvd6 p payload => Sys2Proof.Machine.execRsvd6 p payload s
  | .rsvd7 p payload => Sys2Proof.Machine.execRsvd7 p payload s
  | .rsvd8 p payload => Sys2Proof.Machine.execRsvd8 p payload s
  | .rsvd9 p payload => Sys2Proof.Machine.execRsvd9 p payload s
  | .rsvda p payload => Sys2Proof.Machine.execRsvda p payload s
  | .rsvdb p payload => Sys2Proof.Machine.execRsvdb p payload s
  | .ackmode p payload => Sys2Proof.Machine.execAckmode p payload s
  | .rsvdd p payload => Sys2Proof.Machine.execRsvdd p payload s
  | .rsvde p payload => Sys2Proof.Machine.execRsvde p payload s
  | .rsvdf p payload => Sys2Proof.Machine.execRsvdf p payload s
  | .frame p c body => Sys2Proof.Machine.execFrame p c body s
  | .drd d => Sys2Proof.Machine.execDrd d s
  | .iscomplete q => Sys2Proof.Machine.execIscomplete q s
  | .normalize q => Sys2Proof.Machine.execNormalize q s
  | .processbyte d b => Sys2Proof.Machine.execProcessbyte d b s
  | .decode f => Sys2Proof.Machine.execDecode f s
  | .unescape q => Sys2Proof.Machine.execUnescape q s
  | .encode payload portIn cmd => Sys2Proof.Machine.execEncode payload portIn cmd s
  | .stuff b => Sys2Proof.Machine.execStuff b s
  | .feed d b => Sys2Proof.Machine.execFeed d b s
  | .pumpN2m => Sys2Proof.Machine.execPumpN2m s
  | .pumpM2n => Sys2Proof.Machine.execPumpM2n s
  | .engBind => Sys2Proof.Machine.execEngBind s
  | .engAccept => Sys2Proof.Machine.execEngAccept s
  | .engOpen => Sys2Proof.Machine.execEngOpen s
  | .engJoin => Sys2Proof.Machine.execEngJoin s
  | .engTeardown => Sys2Proof.Machine.execEngTeardown s
  | .engFatal => Sys2Proof.Machine.execEngFatal s
  | .dispatch task => Sys2Proof.Machine.execDispatch task s

end Sys2Proof.Machine
end

