-- ==== Sys2Proof/Machine/Step.lean ====
section
/-! DEFINITION. One step of the block: the reset input, then the agent the schedule names (spec/00_scope.md R6,
spec/70_reset_and_hazards.md R280; notes/assumptions/4.md). -/

namespace Sys2Proof.Machine

/-- The effect of what stands first in the schedule, once it is taken from it. -/
def runRequest (r : Request) (s : State) : Result :=
  match decode r with
  | .ok i => exec i s
  | .error e => .fault (.undecodable e)

/-- One step. An asserted reset input resets (R280). With nothing scheduled no agent moves (R303). Else the first request of the
schedule is taken, decoded and run. -/
def step (s : State) : Host.Outcome State Fault Refusal :=
  if s.env.resetIn then .next s.applyReset
  else
    match s.sched with
    | [] => .next s.wait
    | r :: rest => runRequest r { s with sched := rest }

/-- `s` with the instruction of the host's number scheduled next and the reset input released (notes/assumptions/3.md). -/
def State.withFetchWord (s : State) (nbits w : Nat) : State :=
  { s with sched := tableRequest nbits w :: s.sched, env := { s.env with resetIn := false } }

end Sys2Proof.Machine
end

