-- ==== Sys2Proof/Machine/System.lean ====
section
/-! DEFINITION. Several instances side by side (spec/60_exceptions.md R266): copies of the state that share nothing. -/

namespace Sys2Proof.Machine

/-- A system of `N_INSTANCES` instances (R7, R266). -/
structure System where
  insts : List State
  deriving DecidableEq, Repr

/-- A step of the system is a step of one instance; the others keep their state (R266). An instance that stops with a fault
or a refusal stops the step. -/
def System.step (y : System) (k : Nat) : Host.Outcome System Fault Refusal :=
  match y.insts[k]? with
  | none => .next y
  | some s =>
    match Sys2Proof.Machine.step s with
    | .next t => .next ⟨y.insts.set k t⟩
    | .fault f => .fault f
    | .refused r => .refused r

end Sys2Proof.Machine
end

