-- ==== Sys2Proof/Safety.lean ====
section
/-! DEFINITION. The terms the claims are written in: runs, the streams read off the port history, the invariants of the
block, the ownership view of the relay, and the reference functions the segmenter and the codec are compared with. -/

namespace Sys2Proof.Machine

/-- The next state of an outcome, if it is one. -/
def nextOf : Result → Option State
  | .next t => some t
  | .fault _ => none
  | .refused _ => none

/-- The operations of a list, one after the other, from `s`. -/
def execAll : List Instr → State → Result
  | [], s => .next s
  | i :: rest, s =>
    match exec i s with
    | .next t => execAll rest t
    | .fault f => .fault f
    | .refused r => .refused r

/-- The instruction `i` offers the byte `b` to the assembler of direction `d` through the port `feed`: the operation FEED or the
STREAM8 row of the byte (R91, R170). -/
def FeedsByte (i : Instr) (d : Dir) (b : Byte) : Prop :=
  i = .feed d b ∨ (b = FEND ∧ i = .feedFend d) ∨ (b ≠ FEND ∧ i = .feedData d b)

/-- The pump of a direction, as an instruction. -/
def pumpOf : Dir → Instr
  | .n2m => .pumpN2m
  | .m2n => .pumpM2n

/-- The state with events appended to the port history. -/
def State.emitAll (s : State) (es : List Event) : State := { s with trace := s.trace ++ es }

/-! ### Streams read off the port history -/

/-- The bytes an event list gives since the last successful open of the serial transport, or the last reset: one relay
iteration (R195). -/
def iterationBytes (pick : Event → List Byte) (es : List Event) : List Byte :=
  es.foldl
    (fun acc e =>
      match e with
      | .serOpen _ _ true => []
      | .reset => []
      | e => acc ++ pick e) []

/-- The byte an event delivers on `rx[d]` (R36). -/
def deliveredBy (d : Dir) : Event → List Byte
  | .rxByte d' b => if d' = d then [b] else []
  | _ => []

/-- The byte for which an event calls `tx[d].TxWrite` (R37), answered either way. -/
def forwardedBy (d : Dir) : Event → List Byte
  | .txWrite d' b _ => if d' = d then [b] else []
  | _ => []

/-- The delivered stream of direction `d` in this relay iteration (R36, R61). -/
def delivered (d : Dir) (es : List Event) : List Byte := iterationBytes (deliveredBy d) es

/-- The forwarded stream of direction `d` in this relay iteration (R37). -/
def forwarded (d : Dir) (es : List Event) : List Byte := iterationBytes (forwardedBy d) es

/-- The byte a pump holds between its read and its write (R28). -/
def heldBytes : Phase → List Byte
  | .awaitRead => []
  | .awaitWrite b => [b]

/-- The frame events of direction `d`, in order (R39). -/
def frameEvents (d : Dir) (es : List Event) : List (List Byte × Bool) :=
  es.filterMap fun e =>
    match e with
    | .frame d' f n => if d' = d then some (f, n) else none
    | _ => none

/-- The bytes for which `tx[d].TxWrite` was called, over the whole history. -/
def writtenBytes (d : Dir) (es : List Event) : List Byte := es.flatMap (forwardedBy d)

/-- Every event carries the configuration it should: records `cfg.instance` and `cfg.b64`, log events `cfg.instance` (R40,
R230, R255). -/
def CarriesConfig (c : Cfg) : Event → Prop
  | .obs inst b64 _ => inst = c.instName ∧ b64 = c.b64
  | .log inst _ _ => inst = c.instName
  | _ => True

/-- The frame property of R117: ISCOMPLETE, and no FEND from index 1 to `len - 2`. -/
def WellFramed (f : List Byte) : Prop :=
  3 ≤ f.length ∧ f.head? = some FEND ∧ f.getLast? = some FEND ∧ ∀ i, 1 ≤ i → i + 1 < f.length → f[i]? ≠ some FEND

/-! ### Invariants -/

/-- R23, for one direction: every byte at an index of 1 or more differs from FEND. -/
def AccClean (s : State) (d : Dir) : Prop := ∀ i, 1 ≤ i → s.accRead d i ≠ some FEND

/-- R23. -/
def AccInv (s : State) : Prop := ∀ d, AccClean s d

/-- R21: no accumulator exceeds `ACC_DEPTH`. -/
def DepthInv (s : State) : Prop := ∀ d n, s.cfg.accDepth = some n → (s.acc.get d).length ≤ n

/-- R201 with R64: what was delivered in this iteration is what was forwarded, then the byte in hand. -/
def TransparentInv (s : State) : Prop :=
  ∀ d, delivered d s.trace = forwarded d s.trace ++ heldBytes (s.phase.get d)

/-- How `eng`, the pumps, their phases and the block's record of its transports belong together (R26 to R29, R43,
R199). -/
def LifeInv (s : State) : Prop :=
  match s.eng with
  | .idle =>
    s.lsn = .unbound ∧ s.tcp = .closed ∧ s.ser = .closed ∧ s.pump = .both .stopped ∧ s.phase = .both .awaitRead
  | .listening =>
    s.lsn = .bound ∧ s.tcp = .closed ∧ s.ser = .closed ∧ s.pump = .both .stopped ∧ s.phase = .both .awaitRead
  | .connected =>
    s.lsn = .bound ∧ s.tcp = .opened ∧ s.ser = .closed ∧ s.pump = .both .stopped ∧ s.phase = .both .awaitRead
  | .relaying =>
    s.lsn = .bound ∧ (s.ser = .opened ↔ s.pump.n2m = .running) ∧ (s.tcp = .opened ↔ s.pump.m2n = .running) ∧
      ∀ d, s.pump.get d = .stopped → s.phase.get d = .awaitRead
  | .tornDown =>
    s.lsn = .bound ∧ s.tcp = .closed ∧ s.ser = .closed ∧ s.pump = .both .stopped ∧ s.phase = .both .awaitRead
  | .dead => True

/-- What a task past its stage Decode holds (R221): the fields DECODE gave for its own frame, and a description is under way
only for the kinds that have one. -/
def TaskSound (t : Task) : Prop :=
  match t.stage with
  | .unframed => decodeFrame t.frame = .ok t.payload t.port t.cmd (kindOf t.port t.cmd)
  | .describe =>
    decodeFrame t.frame = .ok t.payload t.port t.cmd (kindOf t.port t.cmd) ∧
      (kindOf t.port t.cmd = .dataFrame ∨ kindOf t.port t.cmd = .ackMode)
  | .framed | .decode | .done => True

/-- R221 for every task in flight. -/
def TasksInv (s : State) : Prop := ∀ t ∈ s.inflight, TaskSound t

/-- R117 for an unbounded accumulator (with it `ovf[d]` is constantly 0, R30): every frame handed out, on `frame_ev` or to a
dispatch task, is well formed. -/
def FramesInv (s : State) : Prop :=
  s.cfg.accDepth = none ∧ s.ovf = .both false ∧ AccInv s ∧
    (∀ d f n, Event.frame d f n ∈ s.trace → WellFramed f) ∧ ∀ t ∈ s.inflight, WellFramed t.frame

/-- R40, R230, R255 for the whole port history. -/
def ConfigInv (s : State) : Prop := ∀ e ∈ s.trace, CarriesConfig s.cfg e

/-- D18, the assumption about the environment a progress claim carries (R38, R184, R295): on a transport the block holds
closed, no byte is on offer and no write is answered `TxOk`. -/
def ClosedTransportsFail (s : State) : Prop :=
  (s.ser = .closed → (∀ b, (s.env.rx.get .m2n).head? ≠ some (.byte b)) ∧ (s.env.tx.get .n2m).head? ≠ some true) ∧
    (s.tcp = .closed → (∀ b, (s.env.rx.get .n2m).head? ≠ some (.byte b)) ∧ (s.env.tx.get .m2n).head? ≠ some true)

/-! ### Fair runs -/

/-- An unending run of operations, each with its next state. -/
def IsRun (ops : Nat → Instr) (run : Nat → State) : Prop := ∀ n, exec (ops n) (run n) = .next (run (n + 1))

/-- The steps of the engine and of the pumps (R6). -/
def relaySteps : List Instr :=
  [.pumpN2m, .pumpM2n, .engBind, .engAccept, .engOpen, .engJoin, .engTeardown, .engFatal]

/-- A step is enabled, and what it awaits is on offer: taking it changes something (notes/assumptions/8.md). -/
def Enabled (i : Instr) (s : State) : Prop := exec i s ≠ .next s

/-- R185, weak fairness: every enabled step of the engine and of a pump is eventually taken or disabled. -/
def FairRun (ops : Nat → Instr) (run : Nat → State) : Prop :=
  ∀ i ∈ relaySteps, ∀ n, Enabled i (run n) → ∃ m, n ≤ m ∧ (ops m = i ∨ ¬ Enabled i (run m))

/-! ### The engine's table -/

/-- The transitions of `eng`, each with the step that makes it (R199). -/
def engineTable : List (Instr × Eng × Eng) :=
  [(.engBind, .idle, .listening), (.engBind, .idle, .dead), (.engAccept, .listening, .connected),
   (.engOpen, .connected, .relaying), (.engOpen, .connected, .listening), (.engJoin, .relaying, .tornDown),
   (.engTeardown, .tornDown, .listening)] ++
  [(.engFatal, .listening, .dead), (.engFatal, .connected, .dead), (.engFatal, .relaying, .dead),
   (.engFatal, .tornDown, .dead)]

/-! ### The relay without its observer -/

/-- The events of the ports `rx`, `tx`, `ctl` and `frame_ev` (R226). -/
def relayEvent : Event → Bool
  | .rxByte _ _ | .rxFail _ | .txWrite _ _ _ | .listenBind _ _ _ | .accepted | .serOpen _ _ _ | .serClose | .tcpClose
  | .unexpected | .frame _ _ _ | .reset => true
  | .obs _ _ _ | .log _ _ _ | .codec _ => false

/-- What R226 says the dispatcher can never change: the state elements it names, the events of the relay's own ports, and what
the relay reads of its surroundings. -/
structure RelayView where
  acc : PerDir (List Byte)
  eng : Eng
  pump : PerDir Pump
  phase : PerDir Phase
  tcp : Link
  ser : Link
  lsn : Listener
  ovf : PerDir Bool
  events : List Event
  freeFrame : Nat
  rx : PerDir (List RxOffer)
  tx : PerDir (List Bool)
  bind : List Bool
  serOpen : List Bool
  accepted : Nat
  unexpected : Nat
  listenPort : Nat
  loopbackOnly : Bool
  serDevice : List Byte
  baud : Nat
  accDepth : Option Nat
  flushOnTeardown : Bool
  deriving DecidableEq, Repr

/-- The steps of the dispatch tasks (R221). -/
def isDispatch (i : Instr) : Bool := i.place == 44

/-- The relay's view of a state: neither the tasks, nor the sink, nor the describer, nor the records and log events. -/
def relayView (s : State) : RelayView :=
  { acc := s.acc, eng := s.eng, pump := s.pump, phase := s.phase, tcp := s.tcp, ser := s.ser, lsn := s.lsn, ovf := s.ovf,
    events := s.trace.filter relayEvent, freeFrame := s.freeFrame, rx := s.env.rx, tx := s.env.tx, bind := s.env.bind,
    serOpen := s.env.serOpen, accepted := s.env.accepted, unexpected := s.env.unexpected,
    listenPort := s.cfg.listenPort, loopbackOnly := s.cfg.loopbackOnly, serDevice := s.cfg.serDevice,
    baud := s.cfg.baud, accDepth := s.cfg.accDepth, flushOnTeardown := s.cfg.flushOnTeardown }

/-! ### Reference functions -/

/-- A stream cut at every FEND into its runs of other bytes (R173): the last run is the one not yet followed by a FEND. -/
def runsOf : List Byte → List (List Byte)
  | [] => [[]]
  | b :: rest =>
    if b = FEND then [] :: runsOf rest
    else
      match runsOf rest with
      | [] => [[b]]
      | r :: rs => (b :: r) :: rs

/-- The frame events of the runs of a stream (R173). `opened` says that the run is directly preceded by a FEND that closed no
frame. -/
def framesOfRuns : Bool → List (List Byte) → List (List Byte × Bool)
  | _, [] => []
  | _, [_] => []
  | opened, r :: r' :: rs =>
    if r = [] then framesOfRuns true (r' :: rs)
    else ([FEND] ++ r ++ [FEND], !opened) :: framesOfRuns false (r' :: rs)

/-- The accumulator after the runs of a stream (R173): the last run, preceded by FEND under the same condition. -/
def restOfRuns : Bool → List (List Byte) → List Byte
  | _, [] => []
  | opened, [r] => if opened then FEND :: r else r
  | _, r :: r' :: rs => if r = [] then restOfRuns true (r' :: rs) else restOfRuns false (r' :: rs)

/-- The segmenter run over a stream from an accumulator value, without a capacity: the accumulator left and the frames, in
order. -/
def segmentAll : List Byte → List Byte → List Byte × List (List Byte × Bool)
  | acc, [] => (acc, [])
  | acc, b :: rest =>
    let r := processByteAcc none (drdAcc acc) b
    ((segmentAll r.acc rest).1, r.frame.toList ++ (segmentAll r.acc rest).2)

/-- A canonical frame (R95). -/
def Canonical (f : List Byte) : Prop :=
  3 ≤ f.length ∧ f.head? = some FEND ∧ f.getLast? = some FEND ∧ (∀ b ∈ bodyOf f, b ≠ FEND) ∧
    ∀ i, (bodyOf f)[i]? = some FESC → (bodyOf f)[i + 1]? = some TFEND ∨ (bodyOf f)[i + 1]? = some TFESC

/-- A valid triple (R153). -/
def ValidTriple (p : List Byte) (port cmd : Nibble) : Prop :=
  (1 ≤ cmd.toNat → cmd.toNat ≤ 5 → p.length = 1) ∧ (port = 0xF#4 → cmd = 0xF#4 → p.length = 0)

end Sys2Proof.Machine
end

