-- ==== Sys2Proof/Certificates/Slice0/Obligations.lean ====
section
/-! DEFINITION. The statements for the provers, one `def Obligations.<Name> : Prop` each, in the order of OBLIGATIONS.json.
Each docstring names the rules of spec/ it formalises, or the log entry of a choice of the model it rests on. -/

open Sys2Proof Sys2Proof.Machine

/-! ### Encoding and the step -/

/-- R99, R100: decoding what the encoder lays on a port gives the operation back, with every operand it carries; and whatever the
decoder reads meets the side conditions of the table's rows. The layout of a request is the model's (notes/assumptions/2.md). -/
def Obligations.DecodeOfEncode : Prop :=
  (∀ i : Instr, WellFormed i = true → decode (encode i) = .ok i) ∧
    ∀ (r : Request) (i : Instr), decode r = .ok i → WellFormed i = true

/-- R99: within a format the row of the lowest priority number that fits the word is the one decoded. A one-byte UNESC request
(the end of a body) has no word of the table and is not spoken of here. -/
def Obligations.DecoderTakesFirstFittingRow : Prop :=
  ∀ (r : Request) (w : Nat),
    ((r.fmt = .stream8 ∨ r.fmt = .stuff8 ∨ r.fmt = .type8) ∧ (∃ b : Byte, r.bits = [b] ∧ w = b.toNat)) ∨
      (r.fmt = .unesc ∧ ∃ b n : Byte, r.bits = [b, n] ∧ w = b.toNat * 256 + n.toNat) ∨
      (r.fmt = .frame ∧ ∃ (t : Byte) (body : List Byte), r.bits = [FEND, t] ++ body ++ [FEND] ∧
        w = 0xC0 * 256 + t.toNat) →
    ∃ (i : Instr) (row : Row), decode r = .ok i ∧ row ∈ tableRows ∧ row.fmt = r.fmt ∧ row.place = i.place ∧
      row.fits w = true ∧
      ∀ row' ∈ tableRows, row'.fmt = r.fmt → row'.fits w = true → row.priority ≤ row'.priority

/-- R80, R81, R84, R85, R88, R89: words written out from the table decode to their rows. The bytes are the spec's; that a request carries
the direction, the payload and a frame's fields as it does here, `dir` and `seq` beside the row's own bytes, is the model's layout
(notes/assumptions/2.md). -/
def Obligations.SampleWordsDecode : Prop :=
  decode { fmt := .stream8, bits := [0b11000000#8], dir := .m2n } = .ok (.feedFend .m2n) ∧
    decode { fmt := .unesc, bits := [0b11011011#8, 0b11011100#8] } = .ok .unescFend ∧
    decode { fmt := .unesc, bits := [0b11011011#8, 0b11011101#8] } = .ok .unescFesc ∧
    decode { fmt := .stuff8, bits := [0b11011011#8] } = .ok .stuffFesc ∧
    decode { fmt := .type8, bits := [0b11111111#8] } = .ok (.exitkiss []) ∧
    decode { fmt := .type8, bits := [0b01110001#8], seq := [0x32#8] } = .ok (.txdelay 7#4 [0x32#8]) ∧
    decode { fmt := .type8, bits := [0b00111100#8] } = .ok (.ackmode 3#4 []) ∧
    decode { fmt := .frame, bits := [0b11000000#8, 0b00010000#8, 0x41#8, 0b11000000#8] } =
      .ok (.frame 1#4 0#4 [0x41#8])

/-- The model's step (notes/assumptions/4.md): the first request of the schedule is taken, decoded and run. -/
def Obligations.StepRunsDecodedRequest : Prop :=
  ∀ (s : State) (r : Request) (rest : List Request) (i : Instr),
    s.env.resetIn = false → s.sched = r :: rest → decode r = .ok i → step s = exec i { s with sched := rest }

/-- The model's step where no operation runs (notes/assumptions/4.md): nothing scheduled, or what stands on the port is no row; and
the host's fetch (notes/assumptions/3.md): the very next step runs the operation decoded from the host's number. -/
def Obligations.StepWithoutOperation : Prop :=
  ∀ s : State,
    (s.env.resetIn = false → s.sched = [] → step s = .next s) ∧
    (∀ (r : Request) (rest : List Request) (e : DecodeError), s.env.resetIn = false → s.sched = r :: rest →
      decode r = .error e → step s = .fault (.undecodable e)) ∧
    ∀ (nbits w : Nat) (i : Instr), decodeTableWord nbits w = some i →
      step (s.withFetchWord nbits w) = exec i { s with env := { s.env with resetIn := false } }

/-! ### Reset -/

/-- R42, R43, R44: every element of a new instance has its reset value. R280, R281: the reset input, asserted in any state, puts every
element at that value at once; R45: the configuration is not changed by it. -/
def Obligations.ResetPutsEveryElement : Prop :=
  let atReset (s : State) : Prop :=
    (∀ d, s.acc.get d = [] ∧ s.pump.get d = .stopped ∧ s.phase.get d = .awaitRead ∧ s.ovf.get d = false) ∧
    s.eng = .idle ∧ s.tcp = .closed ∧ s.ser = .closed ∧ s.lsn = .unbound ∧ s.inflight = []
  atReset State.reset ∧ (∀ c : Cfg, atReset (State.resetWith c) ∧ (State.resetWith c).cfg = c) ∧
    ∀ s : State, s.env.resetIn = true →
      ∃ t : State, step s = .next t ∧ atReset t ∧ t.cfg = s.cfg

/-! ### The segmenter and the assembler -/

/-- R110: DRD removes exactly one byte from an accumulator that ends in two FENDs and changes nothing else; every other accumulator is
left as it is. This and the following statements about calls on an assembler are of the states in which it takes them, `openTo`
(notes/assumptions/9.md): the instance has not ended, and no pump feeds that direction. That among these states is Relaying with the
pump of that direction stopped is the model's choice (notes/assumptions/25.md). What the calls do in `Dead` is in DeadIsFinal, and while
the pump runs in FormsWithoutMeaningAreRefused. -/
def Obligations.DrdRemovesOneRepeatedFend : Prop :=
  ∀ (s : State) (d : Dir), s.openTo d →
    (∀ w : List Byte, s.acc.get d = w ++ [FEND, FEND] →
      exec (.drd d) s = .next { s with acc := s.acc.set d (w ++ [FEND]) }) ∧
    ((∀ w : List Byte, s.acc.get d ≠ w ++ [FEND, FEND]) → exec (.drd d) s = .next s)

/-- R111: ISCOMPLETE answers whether the length is above 2 and both ends are FEND; no state is written but the answer. R112:
NORMALIZE keeps a sequence that starts with FEND and prefixes FEND to any other non-empty one. -/
def Obligations.IsCompleteAndNormalizeAnswer : Prop :=
  ∀ (s : State) (b : Byte) (q : List Byte),
    (∃ r : Bool, exec (.iscomplete q) s = .next (s.emitAll [.codec (.isComplete r)]) ∧
      (r = true ↔ 2 < q.length ∧ q[0]? = some FEND ∧ q[q.length - 1]? = some FEND)) ∧
    exec (.normalize (FEND :: q)) s = .next (s.emitAll [.codec (.normalized (FEND :: q) false)]) ∧
    (b ≠ FEND → exec (.normalize (b :: q)) s = .next (s.emitAll [.codec (.normalized (FEND :: b :: q) true)]))

/-- R113, R114: the eight cases of PROCESSBYTE on an assembler that is not faulted, each with the whole next state. `w` is a run of
bytes other than FEND, `x` a byte other than FEND. -/
def Obligations.ProcessByteCases : Prop :=
  ∀ (s : State) (d : Dir) (x y : Byte) (w : List Byte),
    s.openTo d → s.ovf.get d = false → s.cfg.accDepth ≠ some (s.acc.get d).length → x ≠ FEND → y ≠ FEND →
    (∀ b ∈ w, b ≠ FEND) →
    let after (acc : List Byte) (r : Option (List Byte × Bool)) : Result :=
      .next ({ s with acc := s.acc.set d acc }.emitAll [.codec (.processed d r)])
    (s.acc.get d = [] → exec (.processbyte d FEND) s = after [FEND] none ∧ exec (.processbyte d x) s = after [x] none) ∧
    (s.acc.get d = [FEND] →
      exec (.processbyte d FEND) s = after [FEND] none ∧ exec (.processbyte d x) s = after [FEND, x] none) ∧
    (s.acc.get d = FEND :: x :: w →
      exec (.processbyte d FEND) s = after [] (some (FEND :: x :: w ++ [FEND], false)) ∧
      exec (.processbyte d y) s = after (FEND :: x :: w ++ [y]) none) ∧
    (s.acc.get d = x :: w →
      exec (.processbyte d FEND) s = after [] (some (FEND :: x :: w ++ [FEND], true)) ∧
      exec (.processbyte d y) s = after (x :: w ++ [y]) none)

/-- R114, R172: FEED, and the STREAM8 row of the byte, where no frame completes, each with the whole next state. -/
def Obligations.FeedCollects : Prop :=
  ∀ (s : State) (d : Dir) (x : Byte) (i : Instr),
    s.openTo d → s.ovf.get d = false → AccClean s d → s.cfg.accDepth ≠ some (s.acc.get d).length →
    (x ≠ FEND → FeedsByte i d x →
      exec i s = .next ({ s with acc := s.acc.set d (s.acc.get d ++ [x]) }.emitAll [.codec (.fed d none)])) ∧
    (s.acc.get d = [] → FeedsByte i d FEND →
      exec i s = .next ({ s with acc := s.acc.set d [FEND] }.emitAll [.codec (.fed d none)]))

/-- R114, R39, R59: a FEND closes whatever was collected: the frame event, the hand-off that follows it in the same step, the answer;
the accumulator is left empty. -/
def Obligations.FeedClosesFrame : Prop :=
  ∀ (s : State) (d : Dir) (x : Byte) (w : List Byte) (i : Instr),
    s.openTo d → s.ovf.get d = false → s.cfg.accDepth ≠ some (s.acc.get d).length → x ≠ FEND →
    (∀ b ∈ w, b ≠ FEND) → FeedsByte i d FEND →
    let after (norm : Bool) : Result :=
      .next ((({ s with acc := s.acc.set d [] }.emitAll [.frame d (FEND :: x :: w ++ [FEND]) norm]).handOff d
        (FEND :: x :: w ++ [FEND]) norm).emitAll [.codec (.fed d (some (FEND :: x :: w ++ [FEND], norm)))])
    (s.acc.get d = FEND :: x :: w → exec i s = after false) ∧ (s.acc.get d = x :: w → exec i s = after true)

/-- R119: an append that finds `ACC_DEPTH` bytes sets the sticky flag, logs, leaves the accumulator and returns no frame, the first
time and every time after, whether or not the flag is set already, by PROCESSBYTE and by FEED; the discard of a repeated FEND comes
first, at any capacity; and no operation clears the flag. That the log event carries the direction is the model's reading
(notes/assumptions/11.md): R119 says only that there is a log event. -/
def Obligations.FullAccumulatorOverflows : Prop :=
  (∀ (s : State) (d : Dir) (b : Byte), s.openTo d →
    let overflows (i : Instr) (a : Answer) : Prop := exec i s = .next ({ s with ovf := s.ovf.set d true }.emitAll
      [.log s.cfg.instName .accOverflow (some d), .codec a])
    (s.cfg.accDepth = some (s.acc.get d).length → ¬ (b = FEND ∧ s.acc.get d = [FEND]) →
      overflows (.processbyte d b) (.processed d none) ∧
      ∀ i : Instr, FeedsByte i d b → AccClean s d → overflows i (.fed d none)) ∧
    (s.ovf.get d = false → b = FEND → s.acc.get d = [FEND] →
      exec (.processbyte d b) s = .next (s.emitAll [.codec (.processed d none)]) ∧
      ∀ i : Instr, FeedsByte i d b → exec i s = .next (s.emitAll [.codec (.fed d none)]))) ∧
    ∀ (s t : State) (i : Instr) (d : Dir), s.ovf.get d = true → exec i s = .next t → t.ovf.get d = true

/-- R22, R58, R263: in every state in which no pump feeds direction `d` a FEED of it completes and touches nothing but `acc[d]`,
`ovf[d]`, `inflight` and the ports (in `Dead` not even these: notes/assumptions/8.md and 9.md; in Relaying with that pump stopped:
notes/assumptions/25.md); the flag, once set, stays. -/
def Obligations.FeedTouchesItsOwnDirectionOnly : Prop :=
  ∀ (s : State) (d : Dir) (b : Byte) (i : Instr), ¬ s.pumpRuns d → FeedsByte i d b →
    ∃ t : State, exec i s = .next t ∧ t.acc.get d.other = s.acc.get d.other ∧ t.ovf.get d.other = s.ovf.get d.other ∧
      (s.ovf.get d = true → t.ovf.get d = true) ∧
      t.eng = s.eng ∧ t.pump = s.pump ∧ t.phase = s.phase ∧ t.tcp = s.tcp ∧ t.ser = s.ser ∧ t.lsn = s.lsn ∧
      t.cfg = s.cfg ∧ t.sched = s.sched ∧ t.env.rx = s.env.rx ∧ t.env.tx = s.env.tx

/-- R58: two FEEDs of different directions, in either order, leave the same accumulators and the same flags; the ports, the tasks and the
free values are not compared. In `Dead` both complete as the unchanged state, which is the model's reading (notes/assumptions/8.md and
9.md); that they have their effect in Relaying while both pumps are stopped is its choice (notes/assumptions/25.md). -/
def Obligations.FeedsOfTwoDirectionsCommute : Prop :=
  ∀ (s : State) (d : Dir) (b c : Byte), ¬ s.pumpRuns d → ¬ s.pumpRuns d.other →
    ∃ t u : State, execAll [.feed d b, .feed d.other c] s = .next t ∧ execAll [.feed d.other c, .feed d b] s = .next u ∧
      t.acc = u.acc ∧ t.ovf = u.ovf

/-- R171, R286 (spec/93_implementation_defined.md U1; notes/assumptions/9.md): a second source on an assembler whose pump runs has no
meaning, be it FEED, a STREAM8 row, PROCESSBYTE or DRD. That NORMALIZE of the empty sequence, to which it is never applied (R112), is
refused is the model's reading (notes/assumptions/21.md). -/
def Obligations.FormsWithoutMeaningAreRefused : Prop :=
  (∀ (s : State) (d : Dir) (b : Byte) (i : Instr), s.pumpRuns d →
    FeedsByte i d b ∨ i = .processbyte d b ∨ i = .drd d → exec i s = .refused (.secondSource d)) ∧
    ∀ s : State, exec (.normalize []) s = .refused .emptyOperand

/-- R172: where the accumulator is as R23 says, FEED and PROCESSBYTE have the same result and leave the same accumulator and flag. -/
def Obligations.FeedEqualsProcessByte : Prop :=
  ∀ (s : State) (d : Dir) (b : Byte), AccClean s d → s.openTo d →
    ∃ (t u : State) (r : Option (List Byte × Bool)), exec (.feed d b) s = .next t ∧ exec (.processbyte d b) s = .next u ∧
      t.trace.getLast? = some (.codec (.fed d r)) ∧ u.trace.getLast? = some (.codec (.processed d r)) ∧
      t.acc = u.acc ∧ t.ovf = u.ovf

/-- R173: FEED as a function of the stream. From an empty accumulator, the frame events and the accumulator are those of the
stream's runs between FENDs. -/
def Obligations.FeedCutsStreamAtFend : Prop :=
  ∀ (s : State) (d : Dir) (bytes : List Byte),
    s.openTo d → s.cfg.accDepth = none → s.ovf.get d = false → s.acc.get d = [] →
    ∃ t : State, execAll (bytes.map (Instr.feed d)) s = .next t ∧
      frameEvents d t.trace = frameEvents d s.trace ++ framesOfRuns false (runsOf bytes) ∧
      t.acc.get d = restOfRuns false (runsOf bytes)

/-! ### The codec -/

/-- R83: unpacking and packing the type byte, as numbers; that the two are inverse is the spec's own derivation there. -/
def Obligations.TypeBytePacksAndUnpacks : Prop :=
  (∀ p c : Nibble, (packType p c).toNat = p.toNat * 16 + c.toNat ∧ portOf (packType p c) = p ∧ cmdOf (packType p c) = c) ∧
    ∀ t : Byte, (portOf t).toNat = t.toNat / 16 ∧ (cmdOf t).toNat = t.toNat % 16 ∧ packType (portOf t) (cmdOf t) = t

/-- R89: what each of the four rows of UNESC emits and consumes, and which row stands for the bytes at the scan position; R88, R151: the
body bytes of the three rows of STUFF8, and which one stands for a payload byte. That such a row runs by itself and answers its case is
the model's choice (notes/assumptions/19.md). The clauses on `unescLonefesc`, `unescLit` and `stuffLit` hold for every operand, the
ill-formed ones among them (WellFormed), which no request decodes to and of which the spec says nothing. -/
def Obligations.ScanAndStuffRowsAnswer : Prop :=
  ∀ (s : State) (b : Byte) (n : Option Byte),
    let scans (i : Instr) (emitted : List Byte) (consumed : Nat) : Prop :=
      exec i s = .next (s.emitAll [.codec (.scanned emitted consumed)])
    let stuffs (i : Instr) (out : List Byte) : Prop := exec i s = .next (s.emitAll [.codec (.stuffed out)])
    (scans .unescFend [0xC0#8] 2 ∧ scans .unescFesc [0xDB#8] 2 ∧ scans (.unescLonefesc n) [0xDB#8] 1 ∧
      scans (.unescLit b n) [b] 1) ∧
    (scans (decodeUnesc 0xDB#8 (some 0xDC#8)) [0xC0#8] 2 ∧ scans (decodeUnesc 0xDB#8 (some 0xDD#8)) [0xDB#8] 2 ∧
      (n ≠ some 0xDC#8 → n ≠ some 0xDD#8 → scans (decodeUnesc 0xDB#8 n) [0xDB#8] 1) ∧
      (b ≠ 0xDB#8 → scans (decodeUnesc b n) [b] 1)) ∧
    (stuffs .stuffFend [0xDB#8, 0xDC#8] ∧ stuffs .stuffFesc [0xDB#8, 0xDD#8] ∧ stuffs (.stuffLit b) [b]) ∧
    (stuffs (decodeStuff8 0xC0#8) [0xDB#8, 0xDC#8] ∧ stuffs (decodeStuff8 0xDB#8) [0xDB#8, 0xDD#8] ∧
      (b ≠ 0xC0#8 → b ≠ 0xDB#8 → stuffs (decodeStuff8 b) [b]))

/-- R84, R86: a row whose payload has any length answers with that payload, its port, its code and its kind; a one-byte command
answers with its one byte, and `FixedLen` for every other length; R85, R135: ExitKissMode takes no payload at all. That a TYPE8 row
runs by itself and answers its case is the model's choice (notes/assumptions/19.md). The clause on `rsvdf` holds for every port, port 15
among them: that operand is ill-formed (WellFormed), no request decodes to it, since port 15 with code F is ExitKissMode (R85, R86,
R138), and the spec says nothing of it. -/
def Obligations.TypeRowsAnswer : Prop :=
  ∀ (s : State) (p : Nibble) (payload : List Byte),
    let any (i : Instr) (c : Nibble) (k : Kind) : Prop :=
      exec i s = .next (s.emitAll [.codec (.dec (.ok payload p c k))])
    let one (i : Instr) (c : Nibble) (k : Kind) : Prop :=
      (payload.length = 1 → any i c k) ∧
      (payload.length ≠ 1 → exec i s = .next (s.emitAll [.codec (.dec (.invalidFrame .fixedLen))]))
    any (.dataframe p payload) 0x0#4 .dataFrame ∧ any (.ackmode p payload) 0xC#4 .ackMode ∧
    (any (.rsvd6 p payload) 0x6#4 (.unknown 0x6#4) ∧ any (.rsvd7 p payload) 0x7#4 (.unknown 0x7#4) ∧
      any (.rsvd8 p payload) 0x8#4 (.unknown 0x8#4) ∧ any (.rsvd9 p payload) 0x9#4 (.unknown 0x9#4) ∧
      any (.rsvda p payload) 0xA#4 (.unknown 0xA#4) ∧ any (.rsvdb p payload) 0xB#4 (.unknown 0xB#4) ∧
      any (.rsvdd p payload) 0xD#4 (.unknown 0xD#4) ∧ any (.rsvde p payload) 0xE#4 (.unknown 0xE#4) ∧
      any (.rsvdf p payload) 0xF#4 (.unknown 0xF#4)) ∧
    (one (.txdelay p payload) 0x1#4 .txDelay ∧ one (.persistence p payload) 0x2#4 .persistence ∧
      one (.slottime p payload) 0x3#4 .slotTime ∧ one (.txtail p payload) 0x4#4 .txTail ∧
      one (.fullduplex p payload) 0x5#4 .fullDuplex) ∧
    exec (.exitkiss []) s = .next (s.emitAll [.codec (.dec (.ok [] 0xF#4 0xF#4 .exitKissMode))]) ∧
    (payload ≠ [] → exec (.exitkiss payload) s = .next (s.emitAll [.codec (.dec (.invalidFrame .exitPayload))]))

/-- R130 to R135, R139: DECODE in the order of its checks, on any byte sequence. The clause that FRAME, run by itself, answers DECODE of
the frame its fields name is the model's choice (notes/assumptions/19.md). -/
def Obligations.DecodeChecksInOrder : Prop :=
  ∀ (s : State) (f : List Byte) (t : Byte) (body : List Byte),
    let answered (i : Instr) (r : DecResult) : Prop := exec i s = .next (s.emitAll [.codec (.dec r)])
    (f.length < 3 → answered (.decode f) (.invalidFrame .tooShort)) ∧
    (3 ≤ f.length → f.head? ≠ some FEND → answered (.decode f) (.invalidFrame .noLeadingFend)) ∧
    (3 ≤ f.length → f.head? = some FEND → f.getLast? ≠ some FEND → answered (.decode f) (.invalidFrame .noTrailingFend)) ∧
    (∀ i : Instr, i = .decode ([FEND, t] ++ body ++ [FEND]) ∨ i = .frame (portOf t) (cmdOf t) body →
      (1 ≤ (cmdOf t).toNat → (cmdOf t).toNat ≤ 5 → (unescapeSeq body).length ≠ 1 →
        answered i (.invalidFrame .fixedLen)) ∧
      (t = 0xFF#8 → unescapeSeq body ≠ [] → answered i (.invalidFrame .exitPayload)) ∧
      ((1 ≤ (cmdOf t).toNat → (cmdOf t).toNat ≤ 5 → (unescapeSeq body).length = 1) →
        (t = 0xFF#8 → unescapeSeq body = []) →
        answered i (.ok (unescapeSeq body) (portOf t) (cmdOf t) (kindOf (portOf t) (cmdOf t)))))

/-- R84, R100, R138: DECODE of a frame answers what the TYPE8 row of its type byte answers for its unescaped body: the type
byte's row alone decides kind, port, code and length rule. That a TYPE8 row runs by itself is the model's choice
(notes/assumptions/19.md). -/
def Obligations.DecodeAgreesWithTypeRows : Prop :=
  ∀ (s : State) (t : Byte) (body : List Byte),
    exec (.decode ([FEND, t] ++ body ++ [FEND])) s = exec (decodeType8 t (unescapeSeq body)) s

/-- R89, R100, R136: UNESCAPE is the UNESC rows of the table applied one after the other: the row decoded at the scan position emits
what UNESCAPE emits there and consumes what it consumes. That an UNESC row runs by itself is the model's choice
(notes/assumptions/19.md). -/
def Obligations.UnescapeIsItsRows : Prop :=
  ∀ (s : State) (b : Byte) (rest : List Byte), ∃ (emitted : List Byte) (consumed : Nat),
    exec (decodeUnesc b rest.head?) s = .next (s.emitAll [.codec (.scanned emitted consumed)]) ∧ 1 ≤ consumed ∧
      consumed ≤ (b :: rest).length ∧
      unescapeSeq (b :: rest) = emitted ++ unescapeSeq ((b :: rest).drop consumed)

/-- UNESCAPE of any sequence answers the concatenated outputs of the one-bit machine started with `esc = 0`: the spec's own derivation
at R137. -/
def Obligations.UnescapeEqualsOneBitMachine : Prop :=
  ∀ (s : State) (q : List Byte), exec (.unescape q) s = .next (s.emitAll [.codec (.unescaped (escRun false q))])

/-- R150: ENCODE fails exactly for a port index above 15, before any byte is produced; else it answers the frame. R151: STUFF, on its
three kinds of payload byte. -/
def Obligations.EncodeAnswers : Prop :=
  ∀ (s : State) (p : List Byte) (port : Nat) (cmd : Nibble) (b : Byte),
    let stuffs (x : Byte) (out : List Byte) : Prop :=
      exec (.stuff x) s = .next (s.emitAll [.codec (.stuffed out)]) ∧ stuffByte x = out
    (15 < port → exec (.encode p port cmd) s = .next (s.emitAll [.codec (.enc .invalidArgument)])) ∧
    (port ≤ 15 → exec (.encode p port cmd) s =
      .next (s.emitAll [.codec (.enc
        (.ok ([0xC0#8, BitVec.ofNat 8 (port * 16 + cmd.toNat)] ++ p.flatMap stuffByte ++ [0xC0#8])))])) ∧
    stuffs 0xC0#8 [0xDB#8, 0xDC#8] ∧ stuffs 0xDB#8 [0xDB#8, 0xDD#8] ∧
    (b ≠ 0xC0#8 → b ≠ 0xDB#8 → stuffs b [b])

/-- R141: the round trip, decoder after encoder, on every valid triple (R153). -/
def Obligations.DecodeInvertsEncode : Prop :=
  ∀ (p : List Byte) (port cmd : Nibble), ValidTriple p port cmd →
    ∃ f : List Byte, encodeFrame p port.toNat cmd = .ok f ∧ decodeFrame f = .ok p port cmd (kindOf port cmd)

/-- R142: encoding what DECODE gave reproduces the frame exactly for the canonical frames (R95), and decoding that encoding gives the
same result again for every frame DECODE accepts. -/
def Obligations.EncodeInvertsDecodeOnCanonicalFrames : Prop :=
  ∀ (f p : List Byte) (port cmd : Nibble) (k : Kind), decodeFrame f = .ok p port cmd k →
    (encodeFrame p port.toNat cmd = .ok f ↔ Canonical f) ∧
      ∃ g : List Byte, encodeFrame p port.toNat cmd = .ok g ∧ decodeFrame g = decodeFrame f

/-- The bounds on a decoded payload's length, the upper one met exactly when the body has no recognised escape pair, and the length of
an encoded frame: the spec's own derivations at R140 and R154. -/
def Obligations.CodecLengths : Prop :=
  (∀ (f p : List Byte) (port cmd : Nibble) (k : Kind), decodeFrame f = .ok p port cmd k →
    (f.length - 3 + 1) / 2 ≤ p.length ∧ p.length ≤ f.length - 3 ∧
      (p.length = f.length - 3 ↔ ∀ i, (bodyOf f)[i]? = some FESC →
        (bodyOf f)[i + 1]? ≠ some TFEND ∧ (bodyOf f)[i + 1]? ≠ some TFESC)) ∧
    ∀ (f p : List Byte) (port : Nat) (cmd : Nibble), encodeFrame p port cmd = .ok f →
      f.length = 3 + p.length + p.count FEND + p.count FESC ∧ 3 + p.length ≤ f.length ∧ f.length ≤ 3 + 2 * p.length

/-- No FEND in the body of an encoded frame, and every FESC there is directly followed by TFEND or TFESC: the spec's own derivation at
R152. -/
def Obligations.EncodedBodyIsEscaped : Prop :=
  ∀ (f p : List Byte) (port : Nat) (cmd : Nibble), encodeFrame p port cmd = .ok f →
    ∀ i, 2 ≤ i → i + 2 ≤ f.length →
      f[i]? ≠ some FEND ∧ (f[i]? = some FESC → f[i + 1]? = some TFEND ∨ f[i + 1]? = some TFESC)

/-- R157: ENCODE is injective on triples with a port index of at most 15. -/
def Obligations.EncodeIsInjective : Prop :=
  ∀ (p q f : List Byte) (port port' : Nat) (cmd cmd' : Nibble), port ≤ 15 → port' ≤ 15 →
    encodeFrame p port cmd = .ok f → encodeFrame q port' cmd' = .ok f → p = q ∧ port = port' ∧ cmd = cmd'

/-- R155: an encoded frame whose type byte is not FEND, fed to an assembler that holds nothing or an opening FEND, gives exactly one
frame event, at its last byte, the frame unchanged with `norm = 0`; a valid triple decodes from it. -/
def Obligations.EncodedFrameComesOutOfAssembler : Prop :=
  ∀ (s : State) (d : Dir) (p f : List Byte) (port cmd : Nibble),
    s.openTo d → s.cfg.accDepth = none → s.ovf.get d = false → s.acc.get d = [] ∨ s.acc.get d = [FEND] →
    encodeFrame p port.toNat cmd = .ok f → packType port cmd ≠ FEND →
    ∃ t u : State, execAll (f.dropLast.map (Instr.feed d)) s = .next t ∧ frameEvents d t.trace = frameEvents d s.trace ∧
      exec (.feed d FEND) t = .next u ∧ frameEvents d u.trace = frameEvents d s.trace ++ [(f, false)] ∧
      u.acc.get d = [] ∧ (ValidTriple p port cmd → decodeFrame f = .ok p port cmd (kindOf port cmd))

/-- R156, R285: a type byte equal to FEND is lost to the segmenter: the frame that comes out starts with the first body byte, and an
empty body gives no frame at all. -/
def Obligations.TypeByteFendIsSwallowed : Prop :=
  ∀ (p f : List Byte), encodeFrame p 12 0x0#4 = .ok f →
    (p ≠ [] → segmentAll [] f = ([], [([FEND] ++ p.flatMap stuffByte ++ [FEND], false)])) ∧
    (p = [] → segmentAll [] f = ([FEND], []))

/-! ### The relay -/

/-- R181, R182: a pump takes the byte on offer, feeds it and holds it for its write; where no frame completes the whole next state
is this; a closing FEND gives the frame event and its hand-off before the byte is written. -/
def Obligations.PumpReadsByte : Prop :=
  ∀ (s : State) (d : Dir) (b x : Byte) (w : List Byte) (rest : List RxOffer),
    s.pumpRuns d → s.phase.get d = .awaitRead → s.env.rx.get d = .byte b :: rest → s.ovf.get d = false →
    AccClean s d → s.cfg.accDepth ≠ some (s.acc.get d).length →
    let after (acc : List Byte) : Result :=
      .next { s with acc := s.acc.set d acc, phase := s.phase.set d (.awaitWrite b),
                     env := { s.env with rx := s.env.rx.set d rest }, trace := s.trace ++ [.rxByte d b] }
    let closed (norm : Bool) : Result :=
      .next ((({ s with acc := s.acc.set d [], env := { s.env with rx := s.env.rx.set d rest } }.emitAll
        [.rxByte d FEND, .frame d (FEND :: x :: w ++ [FEND]) norm]).handOff d (FEND :: x :: w ++ [FEND]) norm).setPhase d
          (.awaitWrite FEND))
    (b ≠ FEND → exec (pumpOf d) s = after (s.acc.get d ++ [b])) ∧
    (b = FEND → s.acc.get d = [] ∨ s.acc.get d = [FEND] → exec (pumpOf d) s = after [FEND]) ∧
    (b = FEND → s.acc.get d = FEND :: x :: w → exec (pumpOf d) s = closed false) ∧
    (b = FEND → x ≠ FEND → s.acc.get d = x :: w → exec (pumpOf d) s = closed true)

/-- Whatever the accumulator, its flag, the sink or the dispatcher, a pump that reads a byte holds that byte for its write and stays
running, and a write answered `TxOk` is of that byte, unchanged, and brings the pump back to its read: the spec derives this (R64) from
the pumps' rules (R181, R182). -/
def Obligations.PumpHoldsAndWritesEveryByte : Prop :=
  ∀ (s : State) (d : Dir) (b : Byte), s.pumpRuns d →
    (∀ rest : List RxOffer, s.phase.get d = .awaitRead → s.env.rx.get d = .byte b :: rest →
      ∃ t : State, exec (pumpOf d) s = .next t ∧ t.phase.get d = .awaitWrite b ∧ t.env.rx.get d = rest ∧
        t.pump = s.pump ∧ t.eng = s.eng ∧ t.tcp = s.tcp ∧ t.ser = s.ser ∧ t.env.tx = s.env.tx ∧
        ∃ more : List Event, t.trace = s.trace ++ [.rxByte d b] ++ more) ∧
    ∀ rest : List Bool, s.phase.get d = .awaitWrite b → s.env.tx.get d = true :: rest →
      exec (pumpOf d) s = .next { s with phase := s.phase.set d .awaitRead, env := { s.env with tx := s.env.tx.set d rest },
                                         trace := s.trace ++ [.txWrite d b true] }

/-- R183, R244 to R247: each pump closes the transport it writes to, whichever of its two operations failed, logs the failure, and
stops; the whole next state of all four failures. That the log event of such a failure carries no direction is the model's reading
(notes/assumptions/11.md). -/
def Obligations.PumpFailureClosesItsSink : Prop :=
  ∀ (s : State) (b : Byte) (rx : List RxOffer) (tx : List Bool),
    let logged (f : Failure) : Event := .log s.cfg.instName f none
    (s.pumpRuns .n2m → s.phase.n2m = .awaitRead → s.env.rx.n2m = .fail :: rx →
      exec .pumpN2m s = .next { s with
        ser := .closed, pump := { s.pump with n2m := .stopped }, phase := { s.phase with n2m := .awaitRead },
        env := { s.env with rx := { s.env.rx with n2m := rx } },
        trace := s.trace ++ [.rxFail .n2m, .serClose, logged .tcpRead] }) ∧
    (s.pumpRuns .n2m → s.phase.n2m = .awaitWrite b → s.env.tx.n2m = false :: tx →
      exec .pumpN2m s = .next { s with
        ser := .closed, pump := { s.pump with n2m := .stopped }, phase := { s.phase with n2m := .awaitRead },
        env := { s.env with tx := { s.env.tx with n2m := tx } },
        trace := s.trace ++ [.txWrite .n2m b false, .serClose, logged .serialWrite] }) ∧
    (s.pumpRuns .m2n → s.phase.m2n = .awaitRead → s.env.rx.m2n = .fail :: rx →
      exec .pumpM2n s = .next { s with
        tcp := .closed, pump := { s.pump with m2n := .stopped }, phase := { s.phase with m2n := .awaitRead },
        env := { s.env with rx := { s.env.rx with m2n := rx } },
        trace := s.trace ++ [.rxFail .m2n, .tcpClose, logged .serialRead] }) ∧
    (s.pumpRuns .m2n → s.phase.m2n = .awaitWrite b → s.env.tx.m2n = false :: tx →
      exec .pumpM2n s = .next { s with
        tcp := .closed, pump := { s.pump with m2n := .stopped }, phase := { s.phase with m2n := .awaitRead },
        env := { s.env with tx := { s.env.tx with m2n := tx } },
        trace := s.trace ++ [.txWrite .m2n b false, .tcpClose, logged .tcpWrite] })

/-- R180, R263: a pump never reads or writes the other direction's accumulator, flag, pump state, phase or streams, nor the
engine, the listener or the transport it reads from. -/
def Obligations.PumpOwnsItsDirectionOnly : Prop :=
  ∀ (s t : State) (d : Dir), exec (pumpOf d) s = .next t →
    t.acc.get d.other = s.acc.get d.other ∧ t.ovf.get d.other = s.ovf.get d.other ∧
    t.pump.get d.other = s.pump.get d.other ∧ t.phase.get d.other = s.phase.get d.other ∧
    t.env.rx.get d.other = s.env.rx.get d.other ∧ t.env.tx.get d.other = s.env.tx.get d.other ∧
    t.eng = s.eng ∧ t.lsn = s.lsn ∧ t.cfg = s.cfg ∧ t.sched = s.sched ∧
    (d = .n2m → t.tcp = s.tcp) ∧ (d = .m2n → t.ser = s.ser)

/-- R186: a stopped pump takes no step, reads and writes nothing, and runs again only by a successful ENG.OPEN. That its step, not
enabled, is answered with the unchanged state is the model's reading (notes/assumptions/8.md). -/
def Obligations.StoppedPumpStaysStopped : Prop :=
  ∀ (s t : State) (i : Instr) (d : Dir), s.pump.get d = .stopped → exec i s = .next t →
    exec (pumpOf d) s = .next s ∧ t.env.rx.get d = s.env.rx.get d ∧ t.env.tx.get d = s.env.tx.get d ∧
      (t.pump.get d = .stopped ∨ (i = .engOpen ∧ s.eng = .connected ∧ t.eng = .relaying))

/-- R201, R195: within one relay iteration what was forwarded is a prefix of what was delivered, and what is missing is the byte in
hand; every step of the machine keeps this. -/
def Obligations.RelayIsTransparent : Prop :=
  ∀ s t : State, TransparentInv s → step s = .next t →
    TransparentInv t ∧ ∀ d, forwarded d t.trace <+: delivered d t.trace

/-- R201, R202, R205 (and spec/90_conflicts.md C2): a pump given a stream it can read and write forwards exactly that stream, and
the frame events on the way are those of the segmenter, from the accumulator the stream found. -/
def Obligations.PumpForwardsStreamAndObservesFrames : Prop :=
  ∀ (s : State) (d : Dir) (bytes : List Byte) (rx : List RxOffer) (tx : List Bool),
    s.pumpRuns d → s.phase.get d = .awaitRead → s.cfg.accDepth = none → s.ovf.get d = false →
    s.env.rx.get d = bytes.map RxOffer.byte ++ rx → s.env.tx.get d = List.replicate bytes.length true ++ tx →
    ∃ t : State, execAll (List.replicate (2 * bytes.length) (pumpOf d)) s = .next t ∧
      writtenBytes d t.trace = writtenBytes d s.trace ++ bytes ∧
      frameEvents d t.trace = frameEvents d s.trace ++ (segmentAll (s.acc.get d) bytes).2 ∧
      t.acc.get d = (segmentAll (s.acc.get d) bytes).1 ∧ t.pumpRuns d ∧ t.phase.get d = .awaitRead ∧
      t.env.rx.get d = rx ∧ t.env.tx.get d = tx

/-- R191: ENG.BIND, both answers, enabled in Idle only. R192: ENG.ACCEPT, enabled in Listening only. The two clauses that such a step,
not enabled, is answered with the unchanged state are the model's reading (notes/assumptions/8.md), and so is that the log event of
BindFail carries no direction (notes/assumptions/11.md). -/
def Obligations.EngineBindsAndAccepts : Prop :=
  ∀ (s : State) (rest : List Bool) (n : Nat),
    (s.eng = .idle → s.env.bind = true :: rest →
      exec .engBind s = .next { s with
        lsn := .bound, eng := .listening, env := { s.env with bind := rest },
        trace := s.trace ++ [.listenBind s.cfg.listenPort s.cfg.loopbackOnly true] }) ∧
    (s.eng = .idle → s.env.bind = false :: rest →
      exec .engBind s = .next { s with
        eng := .dead, env := { s.env with bind := rest },
        trace := s.trace ++
          [.listenBind s.cfg.listenPort s.cfg.loopbackOnly false, .log s.cfg.instName .bindFail none] }) ∧
    (s.eng ≠ .idle → exec .engBind s = .next s) ∧
    (s.eng = .listening → s.env.accepted = n + 1 →
      exec .engAccept s = .next { s with
        tcp := .opened, eng := .connected, env := { s.env with accepted := n }, trace := s.trace ++ [.accepted] }) ∧
    (s.eng ≠ .listening → exec .engAccept s = .next s)

/-- R193, R249: ENG.OPEN, both answers; the accumulators are touched in neither. The clause that the step, not enabled outside Connected,
is answered with the unchanged state is the model's reading (notes/assumptions/8.md), and so is that the log event of SerialOpenFail
carries no direction (notes/assumptions/11.md). -/
def Obligations.EngineOpens : Prop :=
  ∀ (s : State) (rest : List Bool),
    (s.eng = .connected → s.env.serOpen = true :: rest →
      exec .engOpen s = .next { s with
        ser := .opened, phase := ⟨.awaitRead, .awaitRead⟩, pump := ⟨.running, .running⟩, eng := .relaying,
        env := { s.env with serOpen := rest }, trace := s.trace ++ [.serOpen s.cfg.serDevice s.cfg.baud true] }) ∧
    (s.eng = .connected → s.env.serOpen = false :: rest →
      exec .engOpen s = .next { s with
        tcp := .closed, eng := .listening, env := { s.env with serOpen := rest },
        trace := s.trace ++
          [.serOpen s.cfg.serDevice s.cfg.baud false, .log s.cfg.instName .serialOpenFail none, .tcpClose] }) ∧
    (s.eng ≠ .connected → exec .engOpen s = .next s)

/-- R194: ENG.JOIN waits for both pumps. R196: ENG.TEARDOWN under both values of FLUSH_ON_TEARDOWN; the listener, `ovf[d]` and
`inflight` are not touched. The two clauses that a join or a teardown that is not enabled is answered with the unchanged state are the
model's reading (notes/assumptions/8.md). -/
def Obligations.EngineJoinsAndTearsDown : Prop :=
  ∀ s : State,
    (s.eng = .relaying → s.pump.n2m = .stopped → s.pump.m2n = .stopped →
      exec .engJoin s = .next { s with eng := .tornDown }) ∧
    (s.eng ≠ .relaying ∨ s.pump.n2m = .running ∨ s.pump.m2n = .running → exec .engJoin s = .next s) ∧
    (s.eng = .tornDown → exec .engTeardown s = .next { s with
      ser := .closed, tcp := .closed, eng := .listening, acc := if s.cfg.flushOnTeardown then ⟨[], []⟩ else s.acc,
      trace := s.trace ++ [.serClose, .tcpClose] }) ∧
    (s.eng ≠ .tornDown → exec .engTeardown s = .next s)

/-- R197, R250: ENG.FATAL ends the instance from the four states that may fail, and leaves all else as it was. The clause that in Idle and
Dead the step, not enabled, is answered with the unchanged state is the model's reading (notes/assumptions/8.md), and so is that the
log event of Unexpected carries no direction (notes/assumptions/11.md). -/
def Obligations.UnexpectedFailureEndsTheInstance : Prop :=
  ∀ (s : State) (n : Nat),
    (s.eng ≠ .idle → s.eng ≠ .dead → s.env.unexpected = n + 1 →
      exec .engFatal s = .next { s with
        eng := .dead, env := { s.env with unexpected := n },
        trace := s.trace ++ [.unexpected, .log s.cfg.instName .unexpected none] }) ∧
    (s.eng = .idle ∨ s.eng = .dead → exec .engFatal s = .next s)

/-- R190, R199: no operation changes `eng` but along a row of the engine's table, by that row's step. -/
def Obligations.EngineMovesAlongItsTable : Prop :=
  ∀ (s t : State) (i : Instr), exec i s = .next t → t.eng ≠ s.eng → (i, s.eng, t.eng) ∈ engineTable

/-- R26, R198, R280: in Dead no step of the engine or of a pump is enabled, nor a call on an assembler; no operation leaves Dead, moves
the relay, touches an accumulator or its flag, gives a frame event or adds a task; a dispatch task steps as it would in any other
state of the engine; and only the reset input leaves Dead. That a step that is not enabled is answered with the unchanged state is the
model's reading (notes/assumptions/8.md), and that a call on an assembler is such a step too (notes/assumptions/9.md). -/
def Obligations.DeadIsFinal : Prop :=
  ∀ s : State, s.eng = .dead →
    (∀ i ∈ [Instr.pumpN2m, .pumpM2n, .engBind, .engAccept, .engOpen, .engJoin, .engTeardown, .engFatal],
      exec i s = .next s) ∧
    (∀ (d : Dir) (b : Byte) (i : Instr), FeedsByte i d b ∨ i = .processbyte d b ∨ i = .drd d → exec i s = .next s) ∧
    (∀ (i : Instr) (t : State), exec i s = .next t →
      t.eng = .dead ∧ t.pump = s.pump ∧ t.phase = s.phase ∧ t.tcp = s.tcp ∧ t.ser = s.ser ∧ t.lsn = s.lsn ∧
      t.acc = s.acc ∧ t.ovf = s.ovf ∧ t.inflight.length ≤ s.inflight.length ∧
      ∀ d, frameEvents d t.trace = frameEvents d s.trace) ∧
    (∀ (k : Nat) (e : Eng) (t : State), exec (.dispatch k) { s with eng := e } = .next t →
      exec (.dispatch k) s = .next { t with eng := .dead }) ∧
    (s.env.resetIn = true → ∃ t : State, step s = .next t ∧ t.eng = .idle) ∧
    ∀ t : State, s.env.resetIn = false → step s = .next t → t.eng = .dead

/-- R258: an event is consumed only in the states that await it. -/
def Obligations.EventsAreConsumedOnlyWhereAwaited : Prop :=
  ∀ (s t : State) (i : Instr), exec i s = .next t →
    (t.env.accepted ≠ s.env.accepted → s.eng = .listening ∧ i = .engAccept) ∧
    (t.env.unexpected ≠ s.env.unexpected → s.eng ≠ .idle ∧ s.eng ≠ .dead ∧ i = .engFatal) ∧
    (∀ d, t.env.rx.get d ≠ s.env.rx.get d → s.pumpRuns d ∧ s.phase.get d = .awaitRead ∧ i = pumpOf d)

/-- R203, with R184 as hypotheses: the node or the modem disconnecting brings the engine back to Listening with both transports
released; the listener stays, and the accumulators are kept or flushed. -/
def Obligations.DisconnectReturnsToListening : Prop :=
  ∀ (s : State) (first : Dir),
    s.eng = .relaying → s.pump = ⟨.running, .running⟩ → s.phase = ⟨.awaitRead, .awaitRead⟩ →
    (∀ d, (s.env.rx.get d).head? = some .fail) →
    ∃ t : State, execAll [pumpOf first, pumpOf first.other, .engJoin, .engTeardown] s = .next t ∧
      t.eng = .listening ∧ t.ser = .closed ∧ t.tcp = .closed ∧ t.lsn = s.lsn ∧ t.pump = ⟨.stopped, .stopped⟩ ∧
      t.acc = (if s.cfg.flushOnTeardown then ⟨[], []⟩ else s.acc) ∧ t.ovf = s.ovf ∧ t.inflight = s.inflight

/-- The node or the modem disconnecting, with any bytes still in flight in either direction, brings the engine back to Listening
with both transports released, in EVERY fair run in which no operation is refused and no unexpected failure is on offer: the spec derives this (R203) under the
fairness it chooses (R185) and the environment it assumes (R184), which here is that each direction's offers end in a failure and that
every write is answered. -/
def Obligations.DisconnectRecoversInEveryFairRun : Prop :=
  ∀ (ops : Nat → Instr) (run : Nat → State), IsRun ops run → FairRun ops run →
    (run 0).eng = .relaying → (run 0).env.unexpected = 0 →
    (∀ d, (run 0).pump.get d = .running ∧ ∃ (bytes : List Byte) (rest : List RxOffer),
      (run 0).env.rx.get d = bytes.map RxOffer.byte ++ .fail :: rest ∧
      bytes.length + (heldBytes ((run 0).phase.get d)).length ≤ ((run 0).env.tx.get d).length) →
    ∃ n, (run n).eng = .listening ∧ (run n).ser = .closed ∧ (run n).tcp = .closed ∧ (run n).lsn = (run 0).lsn

/-! ### The dispatcher -/

/-- R220, R252: what follows a frame event. Without a sink nothing; with one, the environment's choice between a task and the
failure HandoffFail, and where it states none, one of the two by a free value (notes/assumptions/5.md). That the log event of
HandoffFail carries no direction is the model's reading (notes/assumptions/11.md); the new task's port 0, command 0 and empty payload,
of which R220 gives none, and its place at the end of the list are the model's choice (notes/assumptions/15.md). -/
def Obligations.HandOffOfFrame : Prop :=
  ∀ (s : State) (d : Dir) (f : List Byte) (n : Bool) (rest : List Bool),
    let taken (u : State) : State :=
      { u with inflight := u.inflight ++
        [{ dir := d, frame := f, norm := n, stage := .framed, port := 0#4, cmd := 0#4, payload := [] }] }
    let failed (u : State) : State := u.emitAll [.log s.cfg.instName .handoffFail none]
    (s.cfg.sinkPresent = false → s.handOff d f n = s) ∧
    (s.cfg.sinkPresent = true → s.env.handoff = true :: rest →
      s.handOff d f n = taken { s with env := { s.env with handoff := rest } }) ∧
    (s.cfg.sinkPresent = true → s.env.handoff = false :: rest →
      s.handOff d f n = failed { s with env := { s.env with handoff := rest } }) ∧
    (s.cfg.sinkPresent = true → s.env.handoff = [] →
      s.handOff d f n = taken { s with freeHandoff := s.freeHandoff + 1 } ∨
      s.handOff d f n = failed { s with freeHandoff := s.freeHandoff + 1 })

/-- R221 to R224, R228, R241, R251: each stage of a task, with the whole next state. Where the environment states no answer of the
describer, DescribedTaskRecordsInOrder says what happens. -/
def Obligations.DispatchStages : Prop :=
  ∀ (s : State) (k : Nat) (t : Task) (rest : List DescAnswer) (x : List Byte), s.inflight[k]? = some t →
    let put (u : State) (t' : Task) : Result := .next { u with inflight := s.inflight.set k t' }
    let rec_ (r : ObsRec) : Event := .obs s.cfg.instName s.cfg.b64 r
    (t.stage = .framed →
      exec (.dispatch k) s = put (s.emitAll [rec_ (.framed t.dir t.frame t.norm)]) { t with stage := .decode }) ∧
    (t.stage = .decode → ∀ r, decodeFrame t.frame = .invalidFrame r →
      exec (.dispatch k) s =
        put (s.emitAll [.log s.cfg.instName (.invalidFrame r) (some t.dir)]) { t with stage := .done }) ∧
    (t.stage = .decode → ∀ p port cmd kind, decodeFrame t.frame = .ok p port cmd kind →
      exec (.dispatch k) s = put s { t with stage := .unframed, payload := p, port := port, cmd := cmd }) ∧
    (t.stage = .unframed →
      exec (.dispatch k) s =
        put (s.emitAll [rec_ (.unframed t.dir t.port t.cmd (kindOf t.port t.cmd) t.payload)])
          { t with stage := if t.cmd = 0x0#4 ∨ t.cmd = 0xC#4 then .describe else .done }) ∧
    (t.stage = .describe → s.env.describer = .text x :: rest →
      exec (.dispatch k) s =
        put ({ s with env := { s.env with describer := rest } }.emitAll
          [rec_ (.descReq t.dir t.port t.payload (.text x)), rec_ (.decoded t.dir t.port x)]) { t with stage := .done }) ∧
    (t.stage = .describe → s.env.describer = .noText :: rest →
      exec (.dispatch k) s =
        put ({ s with env := { s.env with describer := rest } }.emitAll
          [rec_ (.descReq t.dir t.port t.payload .noText), .log s.cfg.instName .externalTool (some t.dir)])
          { t with stage := .done }) ∧
    (t.stage = .done → exec (.dispatch k) s = .next { s with inflight := s.inflight.eraseIdx k })

/-- R228: a task is never stuck: whatever its stage, and whatever the environment states of the describer, at most five of its own steps
end it. R221, R224, R227: five steps of a task whose frame carries a description give its records in order and end the task, with
whatever answer the describer gives: the next one the environment states, and where it states none one of the two kinds of answer, a
free value (notes/assumptions/24.md). -/
def Obligations.DescribedTaskRecordsInOrder : Prop :=
  ∀ (s : State) (k : Nat) (t : Task), s.inflight[k]? = some t →
    (∃ (n : Nat) (u : State), n ≤ 5 ∧ execAll (List.replicate n (.dispatch k)) s = .next u ∧
      u.inflight = s.inflight.eraseIdx k) ∧
    ∀ (p : List Byte) (port cmd : Nibble) (kind : Kind),
      t.stage = .framed → decodeFrame t.frame = .ok p port cmd kind → kind = .dataFrame ∨ kind = .ackMode →
      let rec_ (r : ObsRec) : Event := .obs s.cfg.instName s.cfg.b64 r
      ∃ (u : State) (a : DescAnswer), execAll (List.replicate 5 (.dispatch k)) s = .next u ∧
        u.inflight = s.inflight.eraseIdx k ∧
        (∀ (a' : DescAnswer) (rest : List DescAnswer), s.env.describer = a' :: rest → a = a' ∧ u.env.describer = rest) ∧
        u.trace = s.trace ++ [rec_ (.framed t.dir t.frame t.norm), rec_ (.unframed t.dir port cmd kind p),
          rec_ (.descReq t.dir port p a),
          match a with
          | .text x => rec_ (.decoded t.dir port x)
          | .noText => .log s.cfg.instName .externalTool (some t.dir)]

/-- R225, R263: a step of a task changes no state of the relay, no other task and no other environment input. That DISPATCH of a task
that does not exist is answered with the unchanged state is the model's reading (notes/assumptions/8.md). -/
def Obligations.DispatchTouchesItsTaskOnly : Prop :=
  ∀ (s t : State) (k : Nat), exec (.dispatch k) s = .next t →
    relayView t = relayView s ∧ t.cfg = s.cfg ∧ t.sched = s.sched ∧ t.freeHandoff = s.freeHandoff ∧
    t.env.handoff = s.env.handoff ∧ (s.inflight.length ≤ k → t = s) ∧
    ((∃ task, t.inflight = s.inflight.set k task) ∨ t.inflight = s.inflight.eraseIdx k)

/-- R226: deleting all dispatch steps from a run, and changing at will the tasks, the sink, the describer, the records and the log it
starts from, leaves the relay's view unchanged. -/
def Obligations.ObserverNeverAffectsRelay : Prop :=
  ∀ (run : List Instr) (s s' t : State), relayView s = relayView s' → execAll run s = .next t →
    ∃ t' : State, execAll (run.filter fun i => !isDispatch i) s' = .next t' ∧
      relayView t = relayView t'

/-! ### Invariants of every step -/

/-- Every step keeps every byte of an accumulator at an index of 1 or more different from FEND, and each accumulator within
`ACC_DEPTH`; an accumulator of the first kind is in one of the named conditions, and which one says what it holds. The spec derives this
(R116, R23, R24; R21 and R60 for the capacity). -/
def Obligations.EveryStepKeepsAccumulators : Prop :=
  (∀ s t : State, step s = .next t → (AccInv s → AccInv t) ∧ (DepthInv s → DepthInv t)) ∧
    ∀ (s : State) (d : Dir), AccClean s d →
      (accCondition (s.acc.get d) = some .empty ∧ s.acc.get d = []) ∨
      (accCondition (s.acc.get d) = some .opened ∧ s.acc.get d = [FEND]) ∨
      (accCondition (s.acc.get d) = some .collectingDelimited ∧
        ∃ (x : Byte) (w : List Byte), s.acc.get d = FEND :: x :: w ∧ (s.acc.get d).getLast? ≠ some FEND) ∨
      (accCondition (s.acc.get d) = some .collectingUndelimited ∧
        ∃ (x : Byte) (w : List Byte), x ≠ FEND ∧ s.acc.get d = x :: w ∧ (s.acc.get d).getLast? ≠ some FEND)

/-- R26 to R29, R43, R199: every step keeps the engine, the pumps and the block's record of its transports together. -/
def Obligations.EveryStepKeepsLifeCycle : Prop :=
  ∀ s t : State, LifeInv s → step s = .next t → LifeInv t

/-- With an unbounded accumulator, every step keeps every frame handed out well formed, and on such a frame DECODE fails only with
`FixedLen` or `ExitPayload`: the spec's own derivations at R117 and R143. -/
def Obligations.EveryStepKeepsFramesWellFormed : Prop :=
  (∀ s t : State, FramesInv s → step s = .next t → FramesInv t) ∧
    ∀ (f : List Byte) (r : FrameReason), WellFramed f → decodeFrame f = .invalidFrame r → r = .fixedLen ∨ r = .exitPayload

/-- R221: every step keeps what a task past its decode holds equal to the decode of its own frame. -/
def Obligations.EveryStepKeepsTasksSound : Prop :=
  ∀ s t : State, TasksInv s → step s = .next t → TasksInv t

/-- R40, R230, R255, R35: every record and log event carries the configuration of the instance, which no step changes. -/
def Obligations.EveryStepKeepsConfigCarried : Prop :=
  ∀ s t : State, ConfigInv s → step s = .next t → ConfigInv t ∧ t.cfg = s.cfg

/-- The invariants above hold at reset, under every configuration; the one about frames where `ACC_DEPTH` is unbounded. -/
def Obligations.InvariantsHoldAtReset : Prop :=
  ∀ c : Cfg, AccInv (State.resetWith c) ∧ DepthInv (State.resetWith c) ∧ TransparentInv (State.resetWith c) ∧
    LifeInv (State.resetWith c) ∧ TasksInv (State.resetWith c) ∧ ConfigInv (State.resetWith c) ∧
    (c.accDepth = none → FramesInv (State.resetWith c))

/-- R266: a step of one instance is that instance's own step, and changes no other, whatever state the others are in. -/
def Obligations.InstancesShareNothing : Prop :=
  ∀ (y z : System) (k : Nat), y.step k = .next z →
    (∀ j, j ≠ k → z.insts[j]? = y.insts[j]?) ∧ z.insts.length = y.insts.length ∧
      ∀ s, y.insts[k]? = some s → ∃ t, step s = .next t ∧ z.insts[k]? = some t
end

