-- ==== Sys2Proof/Laws/Segment.lean ====
section
/-! SUPPORT. The laws of the segmenter on one accumulator value: each of its functions case by case, on clean accumulators
(spec/10_state.md R23) and on any. -/

namespace Sys2Proof.Machine

/-- R23 in the form of the accumulator's tail. -/
theorem accClean_tail {s : State} {d : Dir} (h : AccClean s d) : ∀ b ∈ (s.acc.get d).tail, b ≠ FEND := by
  intro b hb heq
  obtain ⟨i, hi⟩ := List.mem_iff_getElem?.1 hb
  exact h (i + 1) (by omega) (by simpa [State.accRead, heq] using hi)

/-- R23 from the form of the accumulator's tail. -/
theorem accClean_of_tail {s : State} {d : Dir} (h : ∀ b ∈ (s.acc.get d).tail, b ≠ FEND) : AccClean s d := by
  intro i hi heq
  obtain ⟨j, rfl⟩ : ∃ j, i = j + 1 := ⟨i - 1, by omega⟩
  exact h FEND (List.mem_iff_getElem?.2 ⟨j, by simpa [State.accRead] using heq⟩) rfl

/-- R23 says the tail holds no FEND. -/
theorem accClean_iff {s : State} {d : Dir} : AccClean s d ↔ ∀ b ∈ (s.acc.get d).tail, b ≠ FEND :=
  ⟨accClean_tail, accClean_of_tail⟩

/-- R118: DRD changes no clean accumulator. -/
theorem drdAcc_of_clean {acc : List Byte} (h : ∀ b ∈ acc.tail, b ≠ FEND) : drdAcc acc = acc := by
  unfold drdAcc
  split
  · rename_i hc
    obtain ⟨hl, hlast, -⟩ := hc
    exfalso
    match acc, hl with
    | x :: y :: r, _ =>
      refine h FEND ?_ rfl
      rw [List.getLast?_cons_cons] at hlast
      exact List.mem_of_getLast? hlast
  · rfl

/-- R110: the one kind of accumulator DRD changes. -/
theorem drdAcc_append (w : List Byte) : drdAcc (w ++ [FEND, FEND]) = w ++ [FEND] := by
  have h : w ++ [FEND, FEND] = (w ++ [FEND]) ++ [FEND] := by simp
  rw [h]; unfold drdAcc; simp

/-- R110: DRD leaves every other accumulator as it is. -/
theorem drdAcc_of_ne {acc : List Byte} (h : ∀ w, acc ≠ w ++ [FEND, FEND]) : drdAcc acc = acc := by
  unfold drdAcc
  split
  · rename_i hc
    obtain ⟨-, h1, h2⟩ := hc
    obtain ⟨u, rfl⟩ := List.getLast?_eq_some_iff.1 h1
    simp only [List.dropLast_concat] at h2
    obtain ⟨v, rfl⟩ := List.getLast?_eq_some_iff.1 h2
    exact absurd (by simp) (h v)
  · rfl

/-- DRD never lengthens an accumulator (R57). -/
theorem drdAcc_length_le (acc : List Byte) : (drdAcc acc).length ≤ acc.length := by
  unfold drdAcc; split <;> simp

/-- The tail of what DRD leaves is part of the tail there was. -/
theorem drdAcc_tail_subset (acc : List Byte) : ∀ b ∈ (drdAcc acc).tail, b ∈ acc.tail := by
  unfold drdAcc
  split
  · intro b hb
    rw [List.tail_dropLast] at hb
    exact List.mem_of_mem_dropLast hb
  · exact fun b hb => hb

/-- R112: a sequence that starts with FEND is kept. -/
@[simp] theorem normalizeSeq_fend (q : List Byte) : normalizeSeq (FEND :: q) = (FEND :: q, false) := by
  simp [normalizeSeq, normFlag]

/-- R112: any other is prefixed. -/
theorem normalizeSeq_of_ne {b : Byte} (h : b ≠ FEND) (q : List Byte) :
    normalizeSeq (b :: q) = (FEND :: b :: q, true) := by
  simp [normalizeSeq, normFlag, h]

/-- The last byte of a sequence put together from its ends. -/
@[simp] theorem getLast_cons_concat (a b : Byte) (w : List Byte) : (a :: (w ++ [b])).getLast? = some b := by
  rw [← List.cons_append, List.getLast?_concat]

/-- R111 in the shape of a frame. -/
theorem isComplete_iff (q : List Byte) : isComplete q = true ↔ ∃ w, w ≠ [] ∧ q = [FEND] ++ w ++ [FEND] := by
  constructor
  · intro h
    simp only [isComplete, Bool.and_eq_true, decide_eq_true_eq, beq_iff_eq] at h
    obtain ⟨⟨hl, hf⟩, ht⟩ := h
    obtain ⟨u, rfl⟩ := List.getLast?_eq_some_iff.1 ht
    match u with
    | [] => simp at hl
    | x :: w =>
      simp at hf; subst hf
      refine ⟨w, ?_, by simp⟩
      rintro rfl; simp at hl
  · rintro ⟨w, hw, rfl⟩
    have : 0 < w.length := List.length_pos_iff.2 hw
    simp [isComplete]
    omega

/-- R119: an overflow leaves the accumulator and returns nothing. -/
theorem processByteAcc_overflow {depth : Option Nat} {acc : List Byte} {b : Byte}
    (h : (processByteAcc depth acc b).overflow = true) : (processByteAcc depth acc b).frame = none := by
  revert h; unfold processByteAcc
  split
  · simp
  · split
    · simp
    · split <;> simp

/-- R113 item 1: the discard. -/
@[simp] theorem processByteAcc_discard (depth : Option Nat) :
    processByteAcc depth [FEND] FEND = ⟨[FEND], none, false⟩ := by simp [processByteAcc]

/-- R119: the overflow. -/
theorem processByteAcc_full {depth : Option Nat} {acc : List Byte} {b : Byte} (hd : ¬ (b = FEND ∧ acc = [FEND]))
    (hf : depth = some acc.length) : processByteAcc depth acc b = ⟨acc, none, true⟩ := by
  unfold processByteAcc
  rw [if_neg hd, if_pos (by simp [accFull, hf])]

/-- R113 item 2, R120: a byte other than FEND is appended. -/
theorem processByteAcc_data {depth : Option Nat} {acc : List Byte} {b : Byte} (hb : b ≠ FEND)
    (hf : depth ≠ some acc.length) : processByteAcc depth acc b = ⟨acc ++ [b], none, false⟩ := by
  unfold processByteAcc
  rw [if_neg (by simp [hb]), if_neg (by simpa [accFull] using hf), if_neg (by simp [hb])]

/-- R114 row 1, R115 (c): a FEND opens an empty accumulator. -/
theorem processByteAcc_open {depth : Option Nat} (hf : depth ≠ some 0) :
    processByteAcc depth [] FEND = ⟨[FEND], none, false⟩ := by
  unfold processByteAcc
  rw [if_neg (by simp), if_neg (by simpa [accFull] using hf), if_neg (by simp [isComplete])]; rfl

/-- R114 row 5: a FEND closes a delimited accumulator. -/
theorem processByteAcc_close {depth : Option Nat} {x : Byte} {w : List Byte}
    (hf : depth ≠ some (w.length + 2)) :
    processByteAcc depth (FEND :: x :: w) FEND = ⟨[], some (FEND :: x :: w ++ [FEND], false), false⟩ := by
  unfold processByteAcc
  rw [if_neg (by simp), if_neg (by simpa [accFull] using hf)]
  have : isComplete (FEND :: x :: (w ++ [FEND])) = true := by
    rw [isComplete_iff]; exact ⟨x :: w, by simp, by simp⟩
  simp [this]

/-- R114 row 7, R115 (b): a FEND closes an undelimited accumulator, through NORMALIZE. -/
theorem processByteAcc_close_norm {depth : Option Nat} {x : Byte} {w : List Byte} (hx : x ≠ FEND)
    (hf : depth ≠ some (w.length + 1)) :
    processByteAcc depth (x :: w) FEND = ⟨[], some (FEND :: x :: w ++ [FEND], true), false⟩ := by
  unfold processByteAcc
  rw [if_neg (by simp [hx]), if_neg (by simpa [accFull] using hf)]
  have : isComplete (FEND :: x :: (w ++ [FEND])) = true := by
    rw [isComplete_iff]; exact ⟨x :: w, by simp, by simp⟩
  simp [normalizeSeq_of_ne hx, this]

/-- Everything PROCESSBYTE can leave (R57, R114): the value unchanged (discard, overflow), the byte appended, or nothing after a
frame, which is then the normalised sequence. -/
theorem processByteAcc_cases (depth : Option Nat) (acc : List Byte) (b : Byte) :
    (processByteAcc depth acc b = ⟨acc, none, false⟩ ∧ b = FEND ∧ acc = [FEND]) ∨
    (processByteAcc depth acc b = ⟨acc, none, true⟩ ∧ depth = some acc.length) ∨
    (processByteAcc depth acc b = ⟨[], some (normalizeSeq (acc ++ [FEND])), false⟩ ∧ b = FEND ∧
      depth ≠ some acc.length ∧ isComplete (normalizeSeq (acc ++ [FEND])).1 = true) ∨
    (processByteAcc depth acc b = ⟨acc ++ [b], none, false⟩ ∧ depth ≠ some acc.length ∧ (b = FEND → acc = [])) := by
  by_cases h1 : b = FEND ∧ acc = [FEND]
  · left; exact ⟨by simp [processByteAcc, h1], h1⟩
  · by_cases h2 : depth = some acc.length
    · right; left; exact ⟨processByteAcc_full h1 h2, h2⟩
    · by_cases hb : b = FEND
      · subst hb
        match acc, h1, h2 with
        | [], _, h2 =>
          right; right; right
          exact ⟨processByteAcc_open (by simpa using h2), h2, fun _ => rfl⟩
        | x :: w, h1, h2 =>
          right; right; left
          by_cases hx : x = FEND
          · subst hx
            match w, h1, h2 with
            | [], h1, _ => simp at h1
            | y :: w', _, h2 =>
              refine ⟨?_, rfl, h2, ?_⟩
              · rw [processByteAcc_close (by simpa using h2)]; simp
              · simp [isComplete_iff]; exact ⟨y :: w', by simp, by simp⟩
          · refine ⟨?_, rfl, h2, ?_⟩
            · rw [processByteAcc_close_norm hx (by simpa using h2)]; simp [normalizeSeq_of_ne hx]
            · simp only [List.cons_append, normalizeSeq_of_ne hx, isComplete_iff]
              exact ⟨x :: w, by simp, by simp⟩
      · right; right; right
        exact ⟨processByteAcc_data hb h2, h2, fun h => absurd h hb⟩

/-- R116: PROCESSBYTE keeps an accumulator clean. -/
theorem processByteAcc_clean {depth : Option Nat} {acc : List Byte} {b : Byte} (h : ∀ x ∈ acc.tail, x ≠ FEND) :
    ∀ x ∈ (processByteAcc depth acc b).acc.tail, x ≠ FEND := by
  rcases processByteAcc_cases depth acc b with ⟨e, -⟩ | ⟨e, -⟩ | ⟨e, -⟩ | ⟨e, -, hb⟩
  · rw [e]; exact h
  · rw [e]; exact h
  · rw [e]; simp
  · rw [e]
    match acc, h, hb with
    | [], _, _ => simp
    | y :: w, h, hb =>
      intro x hx
      simp only [List.cons_append, List.tail_cons, List.mem_append, List.mem_singleton] at hx
      rcases hx with hx | rfl
      · exact h x (by simpa using hx)
      · intro hc; exact absurd (hb hc) (by simp)

/-- R21, R60: PROCESSBYTE keeps an accumulator within the capacity. -/
theorem processByteAcc_length {depth : Option Nat} {acc : List Byte} {b : Byte} {n : Nat} (hd : depth = some n)
    (h : acc.length ≤ n) : (processByteAcc depth acc b).acc.length ≤ n := by
  rcases processByteAcc_cases depth acc b with ⟨e, -⟩ | ⟨e, -⟩ | ⟨e, -⟩ | ⟨e, hne, -⟩
  · rw [e]; exact h
  · rw [e]; exact h
  · rw [e]; simp
  · rw [e]; subst hd; simp at hne ⊢; omega

/-- With an unbounded accumulator nothing overflows (R30, R60). -/
@[simp] theorem processByteAcc_none_overflow (acc : List Byte) (b : Byte) :
    (processByteAcc none acc b).overflow = false := by
  rcases processByteAcc_cases none acc b with ⟨e, -⟩ | ⟨_, h⟩ | ⟨e, -⟩ | ⟨e, -⟩ <;> first | rw [e] | simp at h

/-- R117: the frame PROCESSBYTE returns from a clean accumulator is well formed. -/
theorem processByteAcc_frame_wellFramed {depth : Option Nat} {acc : List Byte} {b : Byte} {f : List Byte} {n : Bool}
    (h : ∀ x ∈ acc.tail, x ≠ FEND) (hf : (processByteAcc depth acc b).frame = some (f, n)) : WellFramed f := by
  rcases processByteAcc_cases depth acc b with ⟨e, -⟩ | ⟨e, -⟩ | ⟨e, -, -, hc⟩ | ⟨e, -⟩
  · rw [e] at hf; simp at hf
  · rw [e] at hf; simp at hf
  · rw [e] at hf
    simp only [Option.some.injEq] at hf
    rw [hf] at hc
    obtain ⟨w, hw, hfw⟩ := (isComplete_iff f).1 hc
    have hmid : ∀ x ∈ w, x ≠ FEND := by
      match acc, h, hf with
      | [], _, hf => simp at hf; rw [← hf.1] at hfw; simp [hw] at hfw
      | y :: u, h, hf =>
        by_cases hy : y = FEND
        · subst hy
          simp at hf
          have h1 := hf.1.trans hfw
          simp at h1
          subst h1
          simpa using h
        · simp only [List.cons_append, normalizeSeq_of_ne hy, Prod.mk.injEq] at hf
          have h1 := hf.1.trans hfw
          have h2 : y :: u = w := by
            have h3 : (y :: u) ++ [FEND] = w ++ [FEND] := by simpa using h1
            exact List.append_cancel_right h3
          subst h2
          intro x hx
          rcases List.mem_cons.1 hx with rfl | hx
          · exact hy
          · exact h x (by simpa using hx)
    have hl : 0 < w.length := List.length_pos_iff.2 hw
    subst hfw
    refine ⟨by simp; omega, by simp, by simp, ?_⟩
    intro i hi hlt heq
    simp only [List.length_append, List.length_cons, List.length_nil] at hlt
    obtain ⟨j, rfl⟩ : ∃ j, i = j + 1 := ⟨i - 1, by omega⟩
    have hj : j < w.length := by omega
    simp [List.getElem?_append_left, hj] at heq
    exact hmid _ (List.getElem_mem hj) heq
  · rw [e] at hf; simp at hf

end Sys2Proof.Machine
end

