-- ==== Sys2Proof/Laws/Codec.lean ====
section
/-! SUPPORT. The laws of the codec's pure functions: the type byte, the scan of UNESCAPE by cases, STUFF, and the shape of the frames
DECODE accepts. -/

namespace Sys2Proof.Machine

/-! ### The type byte -/

@[simp] theorem portOf_packType (p c : Nibble) : portOf (packType p c) = p := by revert p c; decide

@[simp] theorem cmdOf_packType (p c : Nibble) : cmdOf (packType p c) = c := by revert p c; decide

@[simp] theorem packType_portOf_cmdOf (t : Byte) : packType (portOf t) (cmdOf t) = t := by revert t; decide

theorem packType_inj {p c p' c' : Nibble} (h : packType p c = packType p' c') : p = p' ∧ c = c' := by
  have h1 := congrArg portOf h
  have h2 := congrArg cmdOf h
  simp only [portOf_packType, cmdOf_packType] at h1 h2
  exact ⟨h1, h2⟩

/-- R85: the whole type byte `0xFF` is port 15 with command 15. -/
theorem packType_eq_ff (p c : Nibble) : packType p c = 0xFF#8 ↔ p = 0xF#4 ∧ c = 0xF#4 := by revert p c; decide

/-! ### UNESCAPE by cases (R89, R136) -/

@[simp] theorem unescapeSeq_nil : unescapeSeq [] = [] := rfl

@[simp] theorem unescapeSeq_fend (q : List Byte) : unescapeSeq (FESC :: TFEND :: q) = FEND :: unescapeSeq q := by
  simp [unescapeSeq]

@[simp] theorem unescapeSeq_fesc (q : List Byte) : unescapeSeq (FESC :: TFESC :: q) = FESC :: unescapeSeq q := by
  have h : TFESC ≠ TFEND := by decide
  simp [unescapeSeq, h]

theorem unescapeSeq_lone {q : List Byte} (h1 : q.head? ≠ some TFEND) (h2 : q.head? ≠ some TFESC) :
    unescapeSeq (FESC :: q) = FESC :: unescapeSeq q := by
  cases q with
  | nil => rfl
  | cons n r => simp at h1 h2; simp [unescapeSeq, h1, h2]

theorem unescapeSeq_lit {b : Byte} (h : b ≠ FESC) (q : List Byte) : unescapeSeq (b :: q) = b :: unescapeSeq q := by
  cases q with
  | nil => rfl
  | cons n r => simp [unescapeSeq, h]

/-- The four cases of one scan step (R89). -/
theorem unescapeSeq_cases (b : Byte) (q : List Byte) :
    (∃ r, b = FESC ∧ q = TFEND :: r ∧ unescapeSeq (b :: q) = FEND :: unescapeSeq r) ∨
    (∃ r, b = FESC ∧ q = TFESC :: r ∧ unescapeSeq (b :: q) = FESC :: unescapeSeq r) ∨
    ((b = FESC → q.head? ≠ some TFEND ∧ q.head? ≠ some TFESC) ∧ unescapeSeq (b :: q) = b :: unescapeSeq q) := by
  by_cases hb : b = FESC
  · subst hb
    by_cases h1 : q.head? = some TFEND
    · obtain ⟨r, rfl⟩ := List.head?_eq_some_iff.1 h1
      exact .inl ⟨r, rfl, rfl, unescapeSeq_fend r⟩
    · by_cases h2 : q.head? = some TFESC
      · obtain ⟨r, rfl⟩ := List.head?_eq_some_iff.1 h2
        exact .inr (.inl ⟨r, rfl, rfl, unescapeSeq_fesc r⟩)
      · exact .inr (.inr ⟨fun _ => ⟨h1, h2⟩, unescapeSeq_lone h1 h2⟩)
  · exact .inr (.inr ⟨fun h => absurd h hb, unescapeSeq_lit hb q⟩)

/-! ### STUFF (R88, R151) -/

@[simp] theorem stuffByte_fend : stuffByte FEND = [FESC, TFEND] := rfl

@[simp] theorem stuffByte_fesc : stuffByte FESC = [FESC, TFESC] := by decide

theorem stuffByte_lit {b : Byte} (h1 : b ≠ FEND) (h2 : b ≠ FESC) : stuffByte b = [b] := by simp [stuffByte, h1, h2]

@[simp] theorem stuffSeq_nil : stuffSeq [] = [] := rfl

@[simp] theorem stuffSeq_cons (b : Byte) (p : List Byte) : stuffSeq (b :: p) = stuffByte b ++ stuffSeq p := by
  simp [stuffSeq]

/-- The scan of UNESCAPE, started at a token, emits the byte the token stands for and consumes it. -/
theorem unescapeSeq_stuffByte_append (b : Byte) (q : List Byte) :
    unescapeSeq (stuffByte b ++ q) = b :: unescapeSeq q := by
  by_cases h1 : b = FEND
  · subst h1; simp
  · by_cases h2 : b = FESC
    · subst h2; simp
    · rw [stuffByte_lit h1 h2]; exact unescapeSeq_lit h2 q

/-- UNESCAPE undoes the stuffing of a whole payload. -/
@[simp] theorem unescapeSeq_stuffSeq (p : List Byte) : unescapeSeq (stuffSeq p) = p := by
  induction p with
  | nil => rfl
  | cons b p ih => rw [stuffSeq_cons, unescapeSeq_stuffByte_append, ih]

/-- No stuffed byte is FEND (R152). -/
theorem stuffByte_ne_fend (b : Byte) : ∀ x ∈ stuffByte b, x ≠ FEND := by
  intro x hx
  by_cases h1 : b = FEND
  · subst h1; simp at hx; rcases hx with rfl | rfl <;> decide
  · by_cases h2 : b = FESC
    · subst h2; simp at hx; rcases hx with rfl | rfl <;> decide
    · rw [stuffByte_lit h1 h2] at hx; simp at hx; subst hx; exact h1

theorem stuffSeq_ne_fend (p : List Byte) : ∀ x ∈ stuffSeq p, x ≠ FEND := by
  intro x hx
  obtain ⟨b, -, hb⟩ := List.mem_flatMap.1 hx
  exact stuffByte_ne_fend b x hb

/-! ### Frames and DECODE -/

@[simp] theorem bodyOf_frameOf (t : Byte) (body : List Byte) : bodyOf (frameOf t body) = body := by
  simp [bodyOf, frameOf]

@[simp] theorem frameOf_length (t : Byte) (body : List Byte) : (frameOf t body).length = body.length + 3 := by
  simp [frameOf]

/-- A sequence with the ends of a frame and its length is one (R81). -/
theorem frameOf_of_ends {f : List Byte} (hl : 3 ≤ f.length) (h1 : f.head? = some FEND) (h2 : f.getLast? = some FEND) :
    ∃ t body, f = frameOf t body := by
  obtain ⟨u, rfl⟩ := List.getLast?_eq_some_iff.1 h2
  match u, hl, h1 with
  | x :: t :: body, _, h1 => simp at h1; subst h1; exact ⟨t, body, by simp [frameOf]⟩

/-- R130 on a frame given by its fields. -/
theorem decodeFrame_frameOf (t : Byte) (body : List Byte) : decodeFrame (frameOf t body) = decodeTail t (unescapeSeq body) := by
  unfold decodeFrame
  rw [if_neg (by simp), if_neg (by simp [frameOf]), if_neg (by simp [frameOf]), bodyOf_frameOf]
  simp [frameOf]

/-- R131 to R133: whatever DECODE does not reject for its framing is a frame. -/
theorem decodeFrame_cases (f : List Byte) :
    (f.length < 3 ∧ decodeFrame f = .invalidFrame .tooShort) ∨
    (3 ≤ f.length ∧ f.head? ≠ some FEND ∧ decodeFrame f = .invalidFrame .noLeadingFend) ∨
    (3 ≤ f.length ∧ f.head? = some FEND ∧ f.getLast? ≠ some FEND ∧ decodeFrame f = .invalidFrame .noTrailingFend) ∨
    ∃ t body, f = frameOf t body ∧ decodeFrame f = decodeTail t (unescapeSeq body) := by
  by_cases h0 : f.length < 3
  · exact .inl ⟨h0, by simp [decodeFrame, h0]⟩
  · by_cases h1 : f.head? = some FEND
    · by_cases h2 : f.getLast? = some FEND
      · obtain ⟨t, body, rfl⟩ := frameOf_of_ends (by omega) h1 h2
        exact .inr (.inr (.inr ⟨t, body, rfl, decodeFrame_frameOf t body⟩))
      · exact .inr (.inr (.inl ⟨by omega, h1, h2, by simp [decodeFrame, h0, h1, h2]⟩))
    · exact .inr (.inl ⟨by omega, h1, by simp [decodeFrame, h0, h1]⟩)

/-- R130, R138: what a successful length check gives. -/
theorem decodeTail_ok {t : Byte} {q p : List Byte} {port cmd : Nibble} {k : Kind} (h : decodeTail t q = .ok p port cmd k) :
    p = q ∧ port = portOf t ∧ cmd = cmdOf t ∧ k = kindOf port cmd ∧
      (takesOneByte cmd = true → p.length = 1) ∧ (t = 0xFF#8 → p = []) := by
  unfold decodeTail at h
  split at h
  · cases h
  · rename_i h1
    split at h
    · cases h
    · rename_i h2
      cases h
      refine ⟨rfl, rfl, rfl, rfl, fun hb => ?_, fun ht => ?_⟩
      · simp only [not_and] at h1
        simpa using h1 hb
      · simp only [not_and] at h2
        simpa using h2 ht

/-- The frames DECODE accepts (R130): their fields, their payload and the length their type byte allows. -/
theorem decodeFrame_ok {f p : List Byte} {port cmd : Nibble} {k : Kind} (h : decodeFrame f = .ok p port cmd k) :
    ∃ body, f = frameOf (packType port cmd) body ∧ p = unescapeSeq body ∧ k = kindOf port cmd ∧
      (takesOneByte cmd = true → p.length = 1) ∧ (port = 0xF#4 → cmd = 0xF#4 → p = []) := by
  rcases decodeFrame_cases f with ⟨-, e⟩ | ⟨-, -, e⟩ | ⟨-, -, -, e⟩ | ⟨t, body, rfl, e⟩
  · rw [e] at h; cases h
  · rw [e] at h; cases h
  · rw [e] at h; cases h
  · rw [e] at h
    obtain ⟨rfl, rfl, rfl, rfl, h1, h2⟩ := decodeTail_ok h
    refine ⟨body, by simp, rfl, rfl, h1, fun hp hc => h2 ?_⟩
    rw [← packType_portOf_cmdOf t, packType_eq_ff]
    exact ⟨hp, hc⟩

/-- R150 in one equation for a legal port index. -/
theorem encodeFrame_of_le {p : List Byte} {port : Nat} {cmd : Nibble} (h : port ≤ 15) :
    encodeFrame p port cmd = .ok (frameOf (packType (BitVec.ofNat 4 port) cmd) (stuffSeq p)) := by
  unfold encodeFrame; rw [if_neg (by omega)]

@[simp] theorem encodeFrame_toNat (p : List Byte) (port cmd : Nibble) :
    encodeFrame p port.toNat cmd = .ok (frameOf (packType port cmd) (stuffSeq p)) := by
  rw [encodeFrame_of_le (by omega)]; simp

/-- The frames ENCODE answers (R150). -/
theorem encodeFrame_ok {p f : List Byte} {port : Nat} {cmd : Nibble} (h : encodeFrame p port cmd = .ok f) :
    port ≤ 15 ∧ f = frameOf (packType (BitVec.ofNat 4 port) cmd) (stuffSeq p) := by
  unfold encodeFrame at h
  split at h
  · cases h
  · cases h; exact ⟨by omega, rfl⟩

end Sys2Proof.Machine
end

