-- ==== Sys2Proof/Laws/State.lean ====
section
/-! SUPPORT. One lemma per field per record update of the state, true by rfl, and the laws of the per-direction families: no later
proof unfolds a record update. -/

namespace Sys2Proof

@[simp] theorem PerDir.get_n2m {α : Type} (x : PerDir α) : x.get .n2m = x.n2m := rfl

@[simp] theorem PerDir.get_m2n {α : Type} (x : PerDir α) : x.get .m2n = x.m2n := rfl

@[simp] theorem PerDir.get_both {α : Type} (v : α) (d : Dir) : (PerDir.both v).get d = v := by cases d <;> rfl

@[simp] theorem PerDir.get_set_same {α : Type} (x : PerDir α) (d : Dir) (v : α) : (x.set d v).get d = v := by
  cases d <;> rfl

@[simp] theorem PerDir.get_set_other {α : Type} (x : PerDir α) (d : Dir) (v : α) :
    (x.set d v).get d.other = x.get d.other := by cases d <;> rfl

@[simp] theorem PerDir.set_get {α : Type} (x : PerDir α) (d : Dir) : x.set d (x.get d) = x := by cases d <;> rfl

@[simp] theorem PerDir.set_set {α : Type} (x : PerDir α) (d : Dir) (v w : α) : (x.set d v).set d w = x.set d w := by
  cases d <;> rfl

theorem PerDir.get_set {α : Type} (x : PerDir α) (d e : Dir) (v : α) :
    (x.set d v).get e = if e = d then v else x.get e := by cases d <;> cases e <;> rfl

theorem PerDir.ext_get {α : Type} {x y : PerDir α} (h : ∀ d, x.get d = y.get d) : x = y := by
  
  cases x; cases y
  have h1 := h .n2m
  have h2 := h .m2n
  simp only [PerDir.get] at h1 h2
  rw [h1, h2]

@[simp] theorem Dir.other_other (d : Dir) : d.other.other = d := by cases d <;> rfl

theorem Dir.other_ne (d : Dir) : d.other ≠ d := by cases d <;> decide

theorem Dir.eq_or_other (d e : Dir) : e = d ∨ e = d.other := by cases d <;> cases e <;> simp [Dir.other]

namespace Machine

/-- The events of one answered request for a description (R40, R221, R251). -/
def describeEvents (c : Cfg) (t : Task) (a : DescAnswer) : List Event :=
  [.obs c.instName c.b64 (.descReq t.dir t.port t.payload a),
    match a with
    | .text x => .obs c.instName c.b64 (.decoded t.dir t.port x)
    | .noText => .log c.instName .externalTool (some t.dir)]

@[simp] theorem State.emit_acc (s : State) (e : Event) : (s.emit e).acc = s.acc := rfl
@[simp] theorem State.emit_eng (s : State) (e : Event) : (s.emit e).eng = s.eng := rfl
@[simp] theorem State.emit_pump (s : State) (e : Event) : (s.emit e).pump = s.pump := rfl
@[simp] theorem State.emit_phase (s : State) (e : Event) : (s.emit e).phase = s.phase := rfl
@[simp] theorem State.emit_tcp (s : State) (e : Event) : (s.emit e).tcp = s.tcp := rfl
@[simp] theorem State.emit_ser (s : State) (e : Event) : (s.emit e).ser = s.ser := rfl
@[simp] theorem State.emit_lsn (s : State) (e : Event) : (s.emit e).lsn = s.lsn := rfl
@[simp] theorem State.emit_ovf (s : State) (e : Event) : (s.emit e).ovf = s.ovf := rfl
@[simp] theorem State.emit_inflight (s : State) (e : Event) : (s.emit e).inflight = s.inflight := rfl
@[simp] theorem State.emit_cfg (s : State) (e : Event) : (s.emit e).cfg = s.cfg := rfl
@[simp] theorem State.emit_env (s : State) (e : Event) : (s.emit e).env = s.env := rfl
@[simp] theorem State.emit_sched (s : State) (e : Event) : (s.emit e).sched = s.sched := rfl
@[simp] theorem State.emit_trace (s : State) (e : Event) : (s.emit e).trace = s.trace ++ [e] := rfl
@[simp] theorem State.emit_freeHandoff (s : State) (e : Event) : (s.emit e).freeHandoff = s.freeHandoff := rfl
@[simp] theorem State.emit_freeFrame (s : State) (e : Event) : (s.emit e).freeFrame = s.freeFrame := rfl
@[simp] theorem State.emit_freeDescriber (s : State) (e : Event) : (s.emit e).freeDescriber = s.freeDescriber := rfl

@[simp] theorem State.answer_acc (s : State) (a : Answer) : (s.answer a).acc = s.acc := rfl
@[simp] theorem State.answer_eng (s : State) (a : Answer) : (s.answer a).eng = s.eng := rfl
@[simp] theorem State.answer_pump (s : State) (a : Answer) : (s.answer a).pump = s.pump := rfl
@[simp] theorem State.answer_phase (s : State) (a : Answer) : (s.answer a).phase = s.phase := rfl
@[simp] theorem State.answer_tcp (s : State) (a : Answer) : (s.answer a).tcp = s.tcp := rfl
@[simp] theorem State.answer_ser (s : State) (a : Answer) : (s.answer a).ser = s.ser := rfl
@[simp] theorem State.answer_lsn (s : State) (a : Answer) : (s.answer a).lsn = s.lsn := rfl
@[simp] theorem State.answer_ovf (s : State) (a : Answer) : (s.answer a).ovf = s.ovf := rfl
@[simp] theorem State.answer_inflight (s : State) (a : Answer) : (s.answer a).inflight = s.inflight := rfl
@[simp] theorem State.answer_cfg (s : State) (a : Answer) : (s.answer a).cfg = s.cfg := rfl
@[simp] theorem State.answer_env (s : State) (a : Answer) : (s.answer a).env = s.env := rfl
@[simp] theorem State.answer_sched (s : State) (a : Answer) : (s.answer a).sched = s.sched := rfl
@[simp] theorem State.answer_trace (s : State) (a : Answer) : (s.answer a).trace = s.trace ++ [.codec a] := rfl
@[simp] theorem State.answer_freeHandoff (s : State) (a : Answer) : (s.answer a).freeHandoff = s.freeHandoff := rfl
@[simp] theorem State.answer_freeFrame (s : State) (a : Answer) : (s.answer a).freeFrame = s.freeFrame := rfl
@[simp] theorem State.answer_freeDescriber (s : State) (a : Answer) : (s.answer a).freeDescriber = s.freeDescriber := rfl

@[simp] theorem State.logFailure_acc (s : State) (f : Failure) (d : Option Dir) : (s.logFailure f d).acc = s.acc := rfl
@[simp] theorem State.logFailure_eng (s : State) (f : Failure) (d : Option Dir) : (s.logFailure f d).eng = s.eng := rfl
@[simp] theorem State.logFailure_pump (s : State) (f : Failure) (d : Option Dir) : (s.logFailure f d).pump = s.pump := rfl
@[simp] theorem State.logFailure_phase (s : State) (f : Failure) (d : Option Dir) : (s.logFailure f d).phase = s.phase := rfl
@[simp] theorem State.logFailure_tcp (s : State) (f : Failure) (d : Option Dir) : (s.logFailure f d).tcp = s.tcp := rfl
@[simp] theorem State.logFailure_ser (s : State) (f : Failure) (d : Option Dir) : (s.logFailure f d).ser = s.ser := rfl
@[simp] theorem State.logFailure_lsn (s : State) (f : Failure) (d : Option Dir) : (s.logFailure f d).lsn = s.lsn := rfl
@[simp] theorem State.logFailure_ovf (s : State) (f : Failure) (d : Option Dir) : (s.logFailure f d).ovf = s.ovf := rfl
@[simp] theorem State.logFailure_inflight (s : State) (f : Failure) (d : Option Dir) : (s.logFailure f d).inflight = s.inflight := rfl
@[simp] theorem State.logFailure_cfg (s : State) (f : Failure) (d : Option Dir) : (s.logFailure f d).cfg = s.cfg := rfl
@[simp] theorem State.logFailure_env (s : State) (f : Failure) (d : Option Dir) : (s.logFailure f d).env = s.env := rfl
@[simp] theorem State.logFailure_sched (s : State) (f : Failure) (d : Option Dir) : (s.logFailure f d).sched = s.sched := rfl
@[simp] theorem State.logFailure_trace (s : State) (f : Failure) (d : Option Dir) : (s.logFailure f d).trace = s.trace ++ [.log s.cfg.instName f d] := rfl
@[simp] theorem State.logFailure_freeHandoff (s : State) (f : Failure) (d : Option Dir) : (s.logFailure f d).freeHandoff = s.freeHandoff := rfl
@[simp] theorem State.logFailure_freeFrame (s : State) (f : Failure) (d : Option Dir) : (s.logFailure f d).freeFrame = s.freeFrame := rfl
@[simp] theorem State.logFailure_freeDescriber (s : State) (f : Failure) (d : Option Dir) : (s.logFailure f d).freeDescriber = s.freeDescriber := rfl

@[simp] theorem State.observe_acc (s : State) (r : ObsRec) : (s.observe r).acc = s.acc := rfl
@[simp] theorem State.observe_eng (s : State) (r : ObsRec) : (s.observe r).eng = s.eng := rfl
@[simp] theorem State.observe_pump (s : State) (r : ObsRec) : (s.observe r).pump = s.pump := rfl
@[simp] theorem State.observe_phase (s : State) (r : ObsRec) : (s.observe r).phase = s.phase := rfl
@[simp] theorem State.observe_tcp (s : State) (r : ObsRec) : (s.observe r).tcp = s.tcp := rfl
@[simp] theorem State.observe_ser (s : State) (r : ObsRec) : (s.observe r).ser = s.ser := rfl
@[simp] theorem State.observe_lsn (s : State) (r : ObsRec) : (s.observe r).lsn = s.lsn := rfl
@[simp] theorem State.observe_ovf (s : State) (r : ObsRec) : (s.observe r).ovf = s.ovf := rfl
@[simp] theorem State.observe_inflight (s : State) (r : ObsRec) : (s.observe r).inflight = s.inflight := rfl
@[simp] theorem State.observe_cfg (s : State) (r : ObsRec) : (s.observe r).cfg = s.cfg := rfl
@[simp] theorem State.observe_env (s : State) (r : ObsRec) : (s.observe r).env = s.env := rfl
@[simp] theorem State.observe_sched (s : State) (r : ObsRec) : (s.observe r).sched = s.sched := rfl
@[simp] theorem State.observe_trace (s : State) (r : ObsRec) : (s.observe r).trace = s.trace ++ [.obs s.cfg.instName s.cfg.b64 r] := rfl
@[simp] theorem State.observe_freeHandoff (s : State) (r : ObsRec) : (s.observe r).freeHandoff = s.freeHandoff := rfl
@[simp] theorem State.observe_freeFrame (s : State) (r : ObsRec) : (s.observe r).freeFrame = s.freeFrame := rfl
@[simp] theorem State.observe_freeDescriber (s : State) (r : ObsRec) : (s.observe r).freeDescriber = s.freeDescriber := rfl

@[simp] theorem State.emitAll_acc (s : State) (es : List Event) : (s.emitAll es).acc = s.acc := rfl
@[simp] theorem State.emitAll_eng (s : State) (es : List Event) : (s.emitAll es).eng = s.eng := rfl
@[simp] theorem State.emitAll_pump (s : State) (es : List Event) : (s.emitAll es).pump = s.pump := rfl
@[simp] theorem State.emitAll_phase (s : State) (es : List Event) : (s.emitAll es).phase = s.phase := rfl
@[simp] theorem State.emitAll_tcp (s : State) (es : List Event) : (s.emitAll es).tcp = s.tcp := rfl
@[simp] theorem State.emitAll_ser (s : State) (es : List Event) : (s.emitAll es).ser = s.ser := rfl
@[simp] theorem State.emitAll_lsn (s : State) (es : List Event) : (s.emitAll es).lsn = s.lsn := rfl
@[simp] theorem State.emitAll_ovf (s : State) (es : List Event) : (s.emitAll es).ovf = s.ovf := rfl
@[simp] theorem State.emitAll_inflight (s : State) (es : List Event) : (s.emitAll es).inflight = s.inflight := rfl
@[simp] theorem State.emitAll_cfg (s : State) (es : List Event) : (s.emitAll es).cfg = s.cfg := rfl
@[simp] theorem State.emitAll_env (s : State) (es : List Event) : (s.emitAll es).env = s.env := rfl
@[simp] theorem State.emitAll_sched (s : State) (es : List Event) : (s.emitAll es).sched = s.sched := rfl
@[simp] theorem State.emitAll_trace (s : State) (es : List Event) : (s.emitAll es).trace = s.trace ++ es := rfl
@[simp] theorem State.emitAll_freeHandoff (s : State) (es : List Event) : (s.emitAll es).freeHandoff = s.freeHandoff := rfl
@[simp] theorem State.emitAll_freeFrame (s : State) (es : List Event) : (s.emitAll es).freeFrame = s.freeFrame := rfl
@[simp] theorem State.emitAll_freeDescriber (s : State) (es : List Event) : (s.emitAll es).freeDescriber = s.freeDescriber := rfl

@[simp] theorem State.setAcc_acc (s : State) (d : Dir) (v : List Byte) : (s.setAcc d v).acc = s.acc.set d v := rfl
@[simp] theorem State.setAcc_eng (s : State) (d : Dir) (v : List Byte) : (s.setAcc d v).eng = s.eng := rfl
@[simp] theorem State.setAcc_pump (s : State) (d : Dir) (v : List Byte) : (s.setAcc d v).pump = s.pump := rfl
@[simp] theorem State.setAcc_phase (s : State) (d : Dir) (v : List Byte) : (s.setAcc d v).phase = s.phase := rfl
@[simp] theorem State.setAcc_tcp (s : State) (d : Dir) (v : List Byte) : (s.setAcc d v).tcp = s.tcp := rfl
@[simp] theorem State.setAcc_ser (s : State) (d : Dir) (v : List Byte) : (s.setAcc d v).ser = s.ser := rfl
@[simp] theorem State.setAcc_lsn (s : State) (d : Dir) (v : List Byte) : (s.setAcc d v).lsn = s.lsn := rfl
@[simp] theorem State.setAcc_ovf (s : State) (d : Dir) (v : List Byte) : (s.setAcc d v).ovf = s.ovf := rfl
@[simp] theorem State.setAcc_inflight (s : State) (d : Dir) (v : List Byte) : (s.setAcc d v).inflight = s.inflight := rfl
@[simp] theorem State.setAcc_cfg (s : State) (d : Dir) (v : List Byte) : (s.setAcc d v).cfg = s.cfg := rfl
@[simp] theorem State.setAcc_env (s : State) (d : Dir) (v : List Byte) : (s.setAcc d v).env = s.env := rfl
@[simp] theorem State.setAcc_sched (s : State) (d : Dir) (v : List Byte) : (s.setAcc d v).sched = s.sched := rfl
@[simp] theorem State.setAcc_trace (s : State) (d : Dir) (v : List Byte) : (s.setAcc d v).trace = s.trace := rfl
@[simp] theorem State.setAcc_freeHandoff (s : State) (d : Dir) (v : List Byte) : (s.setAcc d v).freeHandoff = s.freeHandoff := rfl
@[simp] theorem State.setAcc_freeFrame (s : State) (d : Dir) (v : List Byte) : (s.setAcc d v).freeFrame = s.freeFrame := rfl
@[simp] theorem State.setAcc_freeDescriber (s : State) (d : Dir) (v : List Byte) : (s.setAcc d v).freeDescriber = s.freeDescriber := rfl

@[simp] theorem State.setPump_acc (s : State) (d : Dir) (v : Pump) : (s.setPump d v).acc = s.acc := rfl
@[simp] theorem State.setPump_eng (s : State) (d : Dir) (v : Pump) : (s.setPump d v).eng = s.eng := rfl
@[simp] theorem State.setPump_pump (s : State) (d : Dir) (v : Pump) : (s.setPump d v).pump = s.pump.set d v := rfl
@[simp] theorem State.setPump_phase (s : State) (d : Dir) (v : Pump) : (s.setPump d v).phase = s.phase := rfl
@[simp] theorem State.setPump_tcp (s : State) (d : Dir) (v : Pump) : (s.setPump d v).tcp = s.tcp := rfl
@[simp] theorem State.setPump_ser (s : State) (d : Dir) (v : Pump) : (s.setPump d v).ser = s.ser := rfl
@[simp] theorem State.setPump_lsn (s : State) (d : Dir) (v : Pump) : (s.setPump d v).lsn = s.lsn := rfl
@[simp] theorem State.setPump_ovf (s : State) (d : Dir) (v : Pump) : (s.setPump d v).ovf = s.ovf := rfl
@[simp] theorem State.setPump_inflight (s : State) (d : Dir) (v : Pump) : (s.setPump d v).inflight = s.inflight := rfl
@[simp] theorem State.setPump_cfg (s : State) (d : Dir) (v : Pump) : (s.setPump d v).cfg = s.cfg := rfl
@[simp] theorem State.setPump_env (s : State) (d : Dir) (v : Pump) : (s.setPump d v).env = s.env := rfl
@[simp] theorem State.setPump_sched (s : State) (d : Dir) (v : Pump) : (s.setPump d v).sched = s.sched := rfl
@[simp] theorem State.setPump_trace (s : State) (d : Dir) (v : Pump) : (s.setPump d v).trace = s.trace := rfl
@[simp] theorem State.setPump_freeHandoff (s : State) (d : Dir) (v : Pump) : (s.setPump d v).freeHandoff = s.freeHandoff := rfl
@[simp] theorem State.setPump_freeFrame (s : State) (d : Dir) (v : Pump) : (s.setPump d v).freeFrame = s.freeFrame := rfl
@[simp] theorem State.setPump_freeDescriber (s : State) (d : Dir) (v : Pump) : (s.setPump d v).freeDescriber = s.freeDescriber := rfl

@[simp] theorem State.setPhase_acc (s : State) (d : Dir) (v : Phase) : (s.setPhase d v).acc = s.acc := rfl
@[simp] theorem State.setPhase_eng (s : State) (d : Dir) (v : Phase) : (s.setPhase d v).eng = s.eng := rfl
@[simp] theorem State.setPhase_pump (s : State) (d : Dir) (v : Phase) : (s.setPhase d v).pump = s.pump := rfl
@[simp] theorem State.setPhase_phase (s : State) (d : Dir) (v : Phase) : (s.setPhase d v).phase = s.phase.set d v := rfl
@[simp] theorem State.setPhase_tcp (s : State) (d : Dir) (v : Phase) : (s.setPhase d v).tcp = s.tcp := rfl
@[simp] theorem State.setPhase_ser (s : State) (d : Dir) (v : Phase) : (s.setPhase d v).ser = s.ser := rfl
@[simp] theorem State.setPhase_lsn (s : State) (d : Dir) (v : Phase) : (s.setPhase d v).lsn = s.lsn := rfl
@[simp] theorem State.setPhase_ovf (s : State) (d : Dir) (v : Phase) : (s.setPhase d v).ovf = s.ovf := rfl
@[simp] theorem State.setPhase_inflight (s : State) (d : Dir) (v : Phase) : (s.setPhase d v).inflight = s.inflight := rfl
@[simp] theorem State.setPhase_cfg (s : State) (d : Dir) (v : Phase) : (s.setPhase d v).cfg = s.cfg := rfl
@[simp] theorem State.setPhase_env (s : State) (d : Dir) (v : Phase) : (s.setPhase d v).env = s.env := rfl
@[simp] theorem State.setPhase_sched (s : State) (d : Dir) (v : Phase) : (s.setPhase d v).sched = s.sched := rfl
@[simp] theorem State.setPhase_trace (s : State) (d : Dir) (v : Phase) : (s.setPhase d v).trace = s.trace := rfl
@[simp] theorem State.setPhase_freeHandoff (s : State) (d : Dir) (v : Phase) : (s.setPhase d v).freeHandoff = s.freeHandoff := rfl
@[simp] theorem State.setPhase_freeFrame (s : State) (d : Dir) (v : Phase) : (s.setPhase d v).freeFrame = s.freeFrame := rfl
@[simp] theorem State.setPhase_freeDescriber (s : State) (d : Dir) (v : Phase) : (s.setPhase d v).freeDescriber = s.freeDescriber := rfl

@[simp] theorem State.setOvf_acc (s : State) (d : Dir) (v : Bool) : (s.setOvf d v).acc = s.acc := rfl
@[simp] theorem State.setOvf_eng (s : State) (d : Dir) (v : Bool) : (s.setOvf d v).eng = s.eng := rfl
@[simp] theorem State.setOvf_pump (s : State) (d : Dir) (v : Bool) : (s.setOvf d v).pump = s.pump := rfl
@[simp] theorem State.setOvf_phase (s : State) (d : Dir) (v : Bool) : (s.setOvf d v).phase = s.phase := rfl
@[simp] theorem State.setOvf_tcp (s : State) (d : Dir) (v : Bool) : (s.setOvf d v).tcp = s.tcp := rfl
@[simp] theorem State.setOvf_ser (s : State) (d : Dir) (v : Bool) : (s.setOvf d v).ser = s.ser := rfl
@[simp] theorem State.setOvf_lsn (s : State) (d : Dir) (v : Bool) : (s.setOvf d v).lsn = s.lsn := rfl
@[simp] theorem State.setOvf_ovf (s : State) (d : Dir) (v : Bool) : (s.setOvf d v).ovf = s.ovf.set d v := rfl
@[simp] theorem State.setOvf_inflight (s : State) (d : Dir) (v : Bool) : (s.setOvf d v).inflight = s.inflight := rfl
@[simp] theorem State.setOvf_cfg (s : State) (d : Dir) (v : Bool) : (s.setOvf d v).cfg = s.cfg := rfl
@[simp] theorem State.setOvf_env (s : State) (d : Dir) (v : Bool) : (s.setOvf d v).env = s.env := rfl
@[simp] theorem State.setOvf_sched (s : State) (d : Dir) (v : Bool) : (s.setOvf d v).sched = s.sched := rfl
@[simp] theorem State.setOvf_trace (s : State) (d : Dir) (v : Bool) : (s.setOvf d v).trace = s.trace := rfl
@[simp] theorem State.setOvf_freeHandoff (s : State) (d : Dir) (v : Bool) : (s.setOvf d v).freeHandoff = s.freeHandoff := rfl
@[simp] theorem State.setOvf_freeFrame (s : State) (d : Dir) (v : Bool) : (s.setOvf d v).freeFrame = s.freeFrame := rfl
@[simp] theorem State.setOvf_freeDescriber (s : State) (d : Dir) (v : Bool) : (s.setOvf d v).freeDescriber = s.freeDescriber := rfl

@[simp] theorem State.closeSer_acc (s : State) : (s.closeSer).acc = s.acc := rfl
@[simp] theorem State.closeSer_eng (s : State) : (s.closeSer).eng = s.eng := rfl
@[simp] theorem State.closeSer_pump (s : State) : (s.closeSer).pump = s.pump := rfl
@[simp] theorem State.closeSer_phase (s : State) : (s.closeSer).phase = s.phase := rfl
@[simp] theorem State.closeSer_tcp (s : State) : (s.closeSer).tcp = s.tcp := rfl
@[simp] theorem State.closeSer_ser (s : State) : (s.closeSer).ser = .closed := rfl
@[simp] theorem State.closeSer_lsn (s : State) : (s.closeSer).lsn = s.lsn := rfl
@[simp] theorem State.closeSer_ovf (s : State) : (s.closeSer).ovf = s.ovf := rfl
@[simp] theorem State.closeSer_inflight (s : State) : (s.closeSer).inflight = s.inflight := rfl
@[simp] theorem State.closeSer_cfg (s : State) : (s.closeSer).cfg = s.cfg := rfl
@[simp] theorem State.closeSer_env (s : State) : (s.closeSer).env = s.env := rfl
@[simp] theorem State.closeSer_sched (s : State) : (s.closeSer).sched = s.sched := rfl
@[simp] theorem State.closeSer_trace (s : State) : (s.closeSer).trace = s.trace ++ [.serClose] := rfl
@[simp] theorem State.closeSer_freeHandoff (s : State) : (s.closeSer).freeHandoff = s.freeHandoff := rfl
@[simp] theorem State.closeSer_freeFrame (s : State) : (s.closeSer).freeFrame = s.freeFrame := rfl
@[simp] theorem State.closeSer_freeDescriber (s : State) : (s.closeSer).freeDescriber = s.freeDescriber := rfl

@[simp] theorem State.closeTcp_acc (s : State) : (s.closeTcp).acc = s.acc := rfl
@[simp] theorem State.closeTcp_eng (s : State) : (s.closeTcp).eng = s.eng := rfl
@[simp] theorem State.closeTcp_pump (s : State) : (s.closeTcp).pump = s.pump := rfl
@[simp] theorem State.closeTcp_phase (s : State) : (s.closeTcp).phase = s.phase := rfl
@[simp] theorem State.closeTcp_tcp (s : State) : (s.closeTcp).tcp = .closed := rfl
@[simp] theorem State.closeTcp_ser (s : State) : (s.closeTcp).ser = s.ser := rfl
@[simp] theorem State.closeTcp_lsn (s : State) : (s.closeTcp).lsn = s.lsn := rfl
@[simp] theorem State.closeTcp_ovf (s : State) : (s.closeTcp).ovf = s.ovf := rfl
@[simp] theorem State.closeTcp_inflight (s : State) : (s.closeTcp).inflight = s.inflight := rfl
@[simp] theorem State.closeTcp_cfg (s : State) : (s.closeTcp).cfg = s.cfg := rfl
@[simp] theorem State.closeTcp_env (s : State) : (s.closeTcp).env = s.env := rfl
@[simp] theorem State.closeTcp_sched (s : State) : (s.closeTcp).sched = s.sched := rfl
@[simp] theorem State.closeTcp_trace (s : State) : (s.closeTcp).trace = s.trace ++ [.tcpClose] := rfl
@[simp] theorem State.closeTcp_freeHandoff (s : State) : (s.closeTcp).freeHandoff = s.freeHandoff := rfl
@[simp] theorem State.closeTcp_freeFrame (s : State) : (s.closeTcp).freeFrame = s.freeFrame := rfl
@[simp] theorem State.closeTcp_freeDescriber (s : State) : (s.closeTcp).freeDescriber = s.freeDescriber := rfl

@[simp] theorem State.startPumps_acc (s : State) : (s.startPumps).acc = s.acc := rfl
@[simp] theorem State.startPumps_eng (s : State) : (s.startPumps).eng = s.eng := rfl
@[simp] theorem State.startPumps_pump (s : State) : (s.startPumps).pump = .both .running := rfl
@[simp] theorem State.startPumps_phase (s : State) : (s.startPumps).phase = .both .awaitRead := rfl
@[simp] theorem State.startPumps_tcp (s : State) : (s.startPumps).tcp = s.tcp := rfl
@[simp] theorem State.startPumps_ser (s : State) : (s.startPumps).ser = s.ser := rfl
@[simp] theorem State.startPumps_lsn (s : State) : (s.startPumps).lsn = s.lsn := rfl
@[simp] theorem State.startPumps_ovf (s : State) : (s.startPumps).ovf = s.ovf := rfl
@[simp] theorem State.startPumps_inflight (s : State) : (s.startPumps).inflight = s.inflight := rfl
@[simp] theorem State.startPumps_cfg (s : State) : (s.startPumps).cfg = s.cfg := rfl
@[simp] theorem State.startPumps_env (s : State) : (s.startPumps).env = s.env := rfl
@[simp] theorem State.startPumps_sched (s : State) : (s.startPumps).sched = s.sched := rfl
@[simp] theorem State.startPumps_trace (s : State) : (s.startPumps).trace = s.trace := rfl
@[simp] theorem State.startPumps_freeHandoff (s : State) : (s.startPumps).freeHandoff = s.freeHandoff := rfl
@[simp] theorem State.startPumps_freeFrame (s : State) : (s.startPumps).freeFrame = s.freeFrame := rfl
@[simp] theorem State.startPumps_freeDescriber (s : State) : (s.startPumps).freeDescriber = s.freeDescriber := rfl

@[simp] theorem State.die_acc (s : State) (f : Failure) : (s.die f).acc = s.acc := rfl
@[simp] theorem State.die_eng (s : State) (f : Failure) : (s.die f).eng = .dead := rfl
@[simp] theorem State.die_pump (s : State) (f : Failure) : (s.die f).pump = s.pump := rfl
@[simp] theorem State.die_phase (s : State) (f : Failure) : (s.die f).phase = s.phase := rfl
@[simp] theorem State.die_tcp (s : State) (f : Failure) : (s.die f).tcp = s.tcp := rfl
@[simp] theorem State.die_ser (s : State) (f : Failure) : (s.die f).ser = s.ser := rfl
@[simp] theorem State.die_lsn (s : State) (f : Failure) : (s.die f).lsn = s.lsn := rfl
@[simp] theorem State.die_ovf (s : State) (f : Failure) : (s.die f).ovf = s.ovf := rfl
@[simp] theorem State.die_inflight (s : State) (f : Failure) : (s.die f).inflight = s.inflight := rfl
@[simp] theorem State.die_cfg (s : State) (f : Failure) : (s.die f).cfg = s.cfg := rfl
@[simp] theorem State.die_env (s : State) (f : Failure) : (s.die f).env = s.env := rfl
@[simp] theorem State.die_sched (s : State) (f : Failure) : (s.die f).sched = s.sched := rfl
@[simp] theorem State.die_trace (s : State) (f : Failure) : (s.die f).trace = s.trace ++ [.log s.cfg.instName f none] := rfl
@[simp] theorem State.die_freeHandoff (s : State) (f : Failure) : (s.die f).freeHandoff = s.freeHandoff := rfl
@[simp] theorem State.die_freeFrame (s : State) (f : Failure) : (s.die f).freeFrame = s.freeFrame := rfl
@[simp] theorem State.die_freeDescriber (s : State) (f : Failure) : (s.die f).freeDescriber = s.freeDescriber := rfl

@[simp] theorem State.drd_acc (s : State) (d : Dir) : (s.drd d).acc = s.acc.set d (drdAcc (s.acc.get d)) := rfl
@[simp] theorem State.drd_eng (s : State) (d : Dir) : (s.drd d).eng = s.eng := rfl
@[simp] theorem State.drd_pump (s : State) (d : Dir) : (s.drd d).pump = s.pump := rfl
@[simp] theorem State.drd_phase (s : State) (d : Dir) : (s.drd d).phase = s.phase := rfl
@[simp] theorem State.drd_tcp (s : State) (d : Dir) : (s.drd d).tcp = s.tcp := rfl
@[simp] theorem State.drd_ser (s : State) (d : Dir) : (s.drd d).ser = s.ser := rfl
@[simp] theorem State.drd_lsn (s : State) (d : Dir) : (s.drd d).lsn = s.lsn := rfl
@[simp] theorem State.drd_ovf (s : State) (d : Dir) : (s.drd d).ovf = s.ovf := rfl
@[simp] theorem State.drd_inflight (s : State) (d : Dir) : (s.drd d).inflight = s.inflight := rfl
@[simp] theorem State.drd_cfg (s : State) (d : Dir) : (s.drd d).cfg = s.cfg := rfl
@[simp] theorem State.drd_env (s : State) (d : Dir) : (s.drd d).env = s.env := rfl
@[simp] theorem State.drd_sched (s : State) (d : Dir) : (s.drd d).sched = s.sched := rfl
@[simp] theorem State.drd_trace (s : State) (d : Dir) : (s.drd d).trace = s.trace := rfl
@[simp] theorem State.drd_freeHandoff (s : State) (d : Dir) : (s.drd d).freeHandoff = s.freeHandoff := rfl
@[simp] theorem State.drd_freeFrame (s : State) (d : Dir) : (s.drd d).freeFrame = s.freeFrame := rfl
@[simp] theorem State.drd_freeDescriber (s : State) (d : Dir) : (s.drd d).freeDescriber = s.freeDescriber := rfl

@[simp] theorem State.callBind_acc (s : State) (r : List Bool) (ok : Bool) : (s.callBind r ok).acc = s.acc := rfl
@[simp] theorem State.callBind_eng (s : State) (r : List Bool) (ok : Bool) : (s.callBind r ok).eng = s.eng := rfl
@[simp] theorem State.callBind_pump (s : State) (r : List Bool) (ok : Bool) : (s.callBind r ok).pump = s.pump := rfl
@[simp] theorem State.callBind_phase (s : State) (r : List Bool) (ok : Bool) : (s.callBind r ok).phase = s.phase := rfl
@[simp] theorem State.callBind_tcp (s : State) (r : List Bool) (ok : Bool) : (s.callBind r ok).tcp = s.tcp := rfl
@[simp] theorem State.callBind_ser (s : State) (r : List Bool) (ok : Bool) : (s.callBind r ok).ser = s.ser := rfl
@[simp] theorem State.callBind_lsn (s : State) (r : List Bool) (ok : Bool) : (s.callBind r ok).lsn = s.lsn := rfl
@[simp] theorem State.callBind_ovf (s : State) (r : List Bool) (ok : Bool) : (s.callBind r ok).ovf = s.ovf := rfl
@[simp] theorem State.callBind_inflight (s : State) (r : List Bool) (ok : Bool) : (s.callBind r ok).inflight = s.inflight := rfl
@[simp] theorem State.callBind_cfg (s : State) (r : List Bool) (ok : Bool) : (s.callBind r ok).cfg = s.cfg := rfl
@[simp] theorem State.callBind_env (s : State) (r : List Bool) (ok : Bool) : (s.callBind r ok).env = { s.env with bind := r } := rfl
@[simp] theorem State.callBind_sched (s : State) (r : List Bool) (ok : Bool) : (s.callBind r ok).sched = s.sched := rfl
@[simp] theorem State.callBind_trace (s : State) (r : List Bool) (ok : Bool) : (s.callBind r ok).trace = s.trace ++ [.listenBind s.cfg.listenPort s.cfg.loopbackOnly ok] := rfl
@[simp] theorem State.callBind_freeHandoff (s : State) (r : List Bool) (ok : Bool) : (s.callBind r ok).freeHandoff = s.freeHandoff := rfl
@[simp] theorem State.callBind_freeFrame (s : State) (r : List Bool) (ok : Bool) : (s.callBind r ok).freeFrame = s.freeFrame := rfl
@[simp] theorem State.callBind_freeDescriber (s : State) (r : List Bool) (ok : Bool) : (s.callBind r ok).freeDescriber = s.freeDescriber := rfl

@[simp] theorem State.callSerOpen_acc (s : State) (r : List Bool) (ok : Bool) : (s.callSerOpen r ok).acc = s.acc := rfl
@[simp] theorem State.callSerOpen_eng (s : State) (r : List Bool) (ok : Bool) : (s.callSerOpen r ok).eng = s.eng := rfl
@[simp] theorem State.callSerOpen_pump (s : State) (r : List Bool) (ok : Bool) : (s.callSerOpen r ok).pump = s.pump := rfl
@[simp] theorem State.callSerOpen_phase (s : State) (r : List Bool) (ok : Bool) : (s.callSerOpen r ok).phase = s.phase := rfl
@[simp] theorem State.callSerOpen_tcp (s : State) (r : List Bool) (ok : Bool) : (s.callSerOpen r ok).tcp = s.tcp := rfl
@[simp] theorem State.callSerOpen_ser (s : State) (r : List Bool) (ok : Bool) : (s.callSerOpen r ok).ser = s.ser := rfl
@[simp] theorem State.callSerOpen_lsn (s : State) (r : List Bool) (ok : Bool) : (s.callSerOpen r ok).lsn = s.lsn := rfl
@[simp] theorem State.callSerOpen_ovf (s : State) (r : List Bool) (ok : Bool) : (s.callSerOpen r ok).ovf = s.ovf := rfl
@[simp] theorem State.callSerOpen_inflight (s : State) (r : List Bool) (ok : Bool) : (s.callSerOpen r ok).inflight = s.inflight := rfl
@[simp] theorem State.callSerOpen_cfg (s : State) (r : List Bool) (ok : Bool) : (s.callSerOpen r ok).cfg = s.cfg := rfl
@[simp] theorem State.callSerOpen_env (s : State) (r : List Bool) (ok : Bool) : (s.callSerOpen r ok).env = { s.env with serOpen := r } := rfl
@[simp] theorem State.callSerOpen_sched (s : State) (r : List Bool) (ok : Bool) : (s.callSerOpen r ok).sched = s.sched := rfl
@[simp] theorem State.callSerOpen_trace (s : State) (r : List Bool) (ok : Bool) : (s.callSerOpen r ok).trace = s.trace ++ [.serOpen s.cfg.serDevice s.cfg.baud ok] := rfl
@[simp] theorem State.callSerOpen_freeHandoff (s : State) (r : List Bool) (ok : Bool) : (s.callSerOpen r ok).freeHandoff = s.freeHandoff := rfl
@[simp] theorem State.callSerOpen_freeFrame (s : State) (r : List Bool) (ok : Bool) : (s.callSerOpen r ok).freeFrame = s.freeFrame := rfl
@[simp] theorem State.callSerOpen_freeDescriber (s : State) (r : List Bool) (ok : Bool) : (s.callSerOpen r ok).freeDescriber = s.freeDescriber := rfl

@[simp] theorem State.describe_acc (s : State) (t : Task) (a : DescAnswer) : (s.describe t a).acc = s.acc := by cases a <;> rfl
@[simp] theorem State.describe_eng (s : State) (t : Task) (a : DescAnswer) : (s.describe t a).eng = s.eng := by cases a <;> rfl
@[simp] theorem State.describe_pump (s : State) (t : Task) (a : DescAnswer) : (s.describe t a).pump = s.pump := by cases a <;> rfl
@[simp] theorem State.describe_phase (s : State) (t : Task) (a : DescAnswer) : (s.describe t a).phase = s.phase := by cases a <;> rfl
@[simp] theorem State.describe_tcp (s : State) (t : Task) (a : DescAnswer) : (s.describe t a).tcp = s.tcp := by cases a <;> rfl
@[simp] theorem State.describe_ser (s : State) (t : Task) (a : DescAnswer) : (s.describe t a).ser = s.ser := by cases a <;> rfl
@[simp] theorem State.describe_lsn (s : State) (t : Task) (a : DescAnswer) : (s.describe t a).lsn = s.lsn := by cases a <;> rfl
@[simp] theorem State.describe_ovf (s : State) (t : Task) (a : DescAnswer) : (s.describe t a).ovf = s.ovf := by cases a <;> rfl
@[simp] theorem State.describe_inflight (s : State) (t : Task) (a : DescAnswer) : (s.describe t a).inflight = s.inflight := by cases a <;> rfl
@[simp] theorem State.describe_cfg (s : State) (t : Task) (a : DescAnswer) : (s.describe t a).cfg = s.cfg := by cases a <;> rfl
@[simp] theorem State.describe_env (s : State) (t : Task) (a : DescAnswer) : (s.describe t a).env = s.env := by cases a <;> rfl
@[simp] theorem State.describe_sched (s : State) (t : Task) (a : DescAnswer) : (s.describe t a).sched = s.sched := by cases a <;> rfl
@[simp] theorem State.describe_freeHandoff (s : State) (t : Task) (a : DescAnswer) : (s.describe t a).freeHandoff = s.freeHandoff := by cases a <;> rfl
@[simp] theorem State.describe_freeFrame (s : State) (t : Task) (a : DescAnswer) : (s.describe t a).freeFrame = s.freeFrame := by cases a <;> rfl
@[simp] theorem State.describe_freeDescriber (s : State) (t : Task) (a : DescAnswer) : (s.describe t a).freeDescriber = s.freeDescriber := by cases a <;> rfl

@[simp] theorem State.describe_trace (s : State) (t : Task) (a : DescAnswer) :
    (s.describe t a).trace = s.trace ++ describeEvents s.cfg t a := by cases a <;> simp [State.describe, describeEvents]

/-- What a request for a description does: it adds itself with its answer, and the record or the log event that follows, to the port
history. -/
theorem State.describe_eq (s : State) (t : Task) (a : DescAnswer) :
    s.describe t a = { s with trace := s.trace ++ describeEvents s.cfg t a } := by
  cases a <;> simp [State.describe, describeEvents, State.observe, State.logFailure, State.emit]

/-- An answer the environment states (R228). -/
theorem State.takeDescription_cons {s : State} {a : DescAnswer} {rest : List DescAnswer} (h : s.env.describer = a :: rest) :
    s.takeDescription = (a, { s with env := { s.env with describer := rest } }) := by simp [State.takeDescription, h]

/-- An answer the environment leaves free (R228). -/
theorem State.takeDescription_nil {s : State} (h : s.env.describer = []) :
    s.takeDescription = (freeDescription s.freeDescriber, { s with freeDescriber := s.freeDescriber + 1 }) := by
  simp [State.takeDescription, h]

@[simp] theorem State.setTask_acc (s : State) (k : Nat) (t : Task) : (s.setTask k t).acc = s.acc := rfl
@[simp] theorem State.setTask_eng (s : State) (k : Nat) (t : Task) : (s.setTask k t).eng = s.eng := rfl
@[simp] theorem State.setTask_pump (s : State) (k : Nat) (t : Task) : (s.setTask k t).pump = s.pump := rfl
@[simp] theorem State.setTask_phase (s : State) (k : Nat) (t : Task) : (s.setTask k t).phase = s.phase := rfl
@[simp] theorem State.setTask_tcp (s : State) (k : Nat) (t : Task) : (s.setTask k t).tcp = s.tcp := rfl
@[simp] theorem State.setTask_ser (s : State) (k : Nat) (t : Task) : (s.setTask k t).ser = s.ser := rfl
@[simp] theorem State.setTask_lsn (s : State) (k : Nat) (t : Task) : (s.setTask k t).lsn = s.lsn := rfl
@[simp] theorem State.setTask_ovf (s : State) (k : Nat) (t : Task) : (s.setTask k t).ovf = s.ovf := rfl
@[simp] theorem State.setTask_inflight (s : State) (k : Nat) (t : Task) : (s.setTask k t).inflight = s.inflight.set k t := rfl
@[simp] theorem State.setTask_cfg (s : State) (k : Nat) (t : Task) : (s.setTask k t).cfg = s.cfg := rfl
@[simp] theorem State.setTask_env (s : State) (k : Nat) (t : Task) : (s.setTask k t).env = s.env := rfl
@[simp] theorem State.setTask_sched (s : State) (k : Nat) (t : Task) : (s.setTask k t).sched = s.sched := rfl
@[simp] theorem State.setTask_trace (s : State) (k : Nat) (t : Task) : (s.setTask k t).trace = s.trace := rfl
@[simp] theorem State.setTask_freeHandoff (s : State) (k : Nat) (t : Task) : (s.setTask k t).freeHandoff = s.freeHandoff := rfl
@[simp] theorem State.setTask_freeFrame (s : State) (k : Nat) (t : Task) : (s.setTask k t).freeFrame = s.freeFrame := rfl
@[simp] theorem State.setTask_freeDescriber (s : State) (k : Nat) (t : Task) : (s.setTask k t).freeDescriber = s.freeDescriber := rfl

@[simp] theorem State.dropTask_acc (s : State) (k : Nat) : (s.dropTask k).acc = s.acc := rfl
@[simp] theorem State.dropTask_eng (s : State) (k : Nat) : (s.dropTask k).eng = s.eng := rfl
@[simp] theorem State.dropTask_pump (s : State) (k : Nat) : (s.dropTask k).pump = s.pump := rfl
@[simp] theorem State.dropTask_phase (s : State) (k : Nat) : (s.dropTask k).phase = s.phase := rfl
@[simp] theorem State.dropTask_tcp (s : State) (k : Nat) : (s.dropTask k).tcp = s.tcp := rfl
@[simp] theorem State.dropTask_ser (s : State) (k : Nat) : (s.dropTask k).ser = s.ser := rfl
@[simp] theorem State.dropTask_lsn (s : State) (k : Nat) : (s.dropTask k).lsn = s.lsn := rfl
@[simp] theorem State.dropTask_ovf (s : State) (k : Nat) : (s.dropTask k).ovf = s.ovf := rfl
@[simp] theorem State.dropTask_inflight (s : State) (k : Nat) : (s.dropTask k).inflight = s.inflight.eraseIdx k := rfl
@[simp] theorem State.dropTask_cfg (s : State) (k : Nat) : (s.dropTask k).cfg = s.cfg := rfl
@[simp] theorem State.dropTask_env (s : State) (k : Nat) : (s.dropTask k).env = s.env := rfl
@[simp] theorem State.dropTask_sched (s : State) (k : Nat) : (s.dropTask k).sched = s.sched := rfl
@[simp] theorem State.dropTask_trace (s : State) (k : Nat) : (s.dropTask k).trace = s.trace := rfl
@[simp] theorem State.dropTask_freeHandoff (s : State) (k : Nat) : (s.dropTask k).freeHandoff = s.freeHandoff := rfl
@[simp] theorem State.dropTask_freeFrame (s : State) (k : Nat) : (s.dropTask k).freeFrame = s.freeFrame := rfl
@[simp] theorem State.dropTask_freeDescriber (s : State) (k : Nat) : (s.dropTask k).freeDescriber = s.freeDescriber := rfl

@[simp] theorem State.wait_acc (s : State) : (s.wait).acc = s.acc := rfl
@[simp] theorem State.wait_eng (s : State) : (s.wait).eng = s.eng := rfl
@[simp] theorem State.wait_pump (s : State) : (s.wait).pump = s.pump := rfl
@[simp] theorem State.wait_phase (s : State) : (s.wait).phase = s.phase := rfl
@[simp] theorem State.wait_tcp (s : State) : (s.wait).tcp = s.tcp := rfl
@[simp] theorem State.wait_ser (s : State) : (s.wait).ser = s.ser := rfl
@[simp] theorem State.wait_lsn (s : State) : (s.wait).lsn = s.lsn := rfl
@[simp] theorem State.wait_ovf (s : State) : (s.wait).ovf = s.ovf := rfl
@[simp] theorem State.wait_inflight (s : State) : (s.wait).inflight = s.inflight := rfl
@[simp] theorem State.wait_cfg (s : State) : (s.wait).cfg = s.cfg := rfl
@[simp] theorem State.wait_env (s : State) : (s.wait).env = s.env := rfl
@[simp] theorem State.wait_sched (s : State) : (s.wait).sched = s.sched := rfl
@[simp] theorem State.wait_trace (s : State) : (s.wait).trace = s.trace := rfl
@[simp] theorem State.wait_freeHandoff (s : State) : (s.wait).freeHandoff = s.freeHandoff := rfl
@[simp] theorem State.wait_freeFrame (s : State) : (s.wait).freeFrame = s.freeFrame := rfl
@[simp] theorem State.wait_freeDescriber (s : State) : (s.wait).freeDescriber = s.freeDescriber := rfl

end Machine

end Sys2Proof
end

