-- ==== Sys2Proof/Laws/Ops.lean ====
section
/-! SUPPORT. What the shared operations can do, said once each: the provers cite these instead of unfolding the operations. -/

namespace Sys2Proof.Machine

/-! ### Closing a transport, a transport failure, the flush -/

/-- The events of closing the transport a direction writes to (R183). -/
theorem State.closeSink_eq (s : State) (d : Dir) :
    s.closeSink d = { s with
      ser := if d = .n2m then .closed else s.ser, tcp := if d = .m2n then .closed else s.tcp,
      trace := s.trace ++ [if d = .n2m then .serClose else .tcpClose] } := by
  cases d <;> simp [State.closeSink, State.closeSer, State.closeTcp, State.emit]

/-- R243: everything a transport failure changes. -/
theorem State.transportFail_eq (s : State) (d : Dir) (f : Failure) :
    s.transportFail d f = { s with
      ser := if d = .n2m then .closed else s.ser, tcp := if d = .m2n then .closed else s.tcp,
      phase := s.phase.set d .awaitRead, pump := s.pump.set d .stopped,
      trace := s.trace ++ [if d = .n2m then .serClose else .tcpClose, .log s.cfg.instName f none] } := by
  simp [State.transportFail, State.closeSink_eq, State.logFailure, State.emit, State.setPhase, State.setPump]

/-- R196, R207. -/
theorem State.flush_eq (s : State) :
    s.flush = { s with acc := if s.cfg.flushOnTeardown then .both [] else s.acc } := by
  unfold State.flush; split <;> simp_all

/-! ### The hand-off and the frame event -/

/-- R220: a hand-off changes at most `inflight`, the environment's list of choices, the count of free choices and the port
history; it adds the frame's task, or logs HandoffFail, or does nothing. -/
theorem State.handOff_cases (s : State) (d : Dir) (f : List Byte) (n : Bool) :
    s.handOff d f n = s ∨
    ∃ (rest : List Bool) (c : Nat),
      s.handOff d f n = { s with
        env := { s.env with handoff := rest }, freeHandoff := c, inflight := s.inflight ++ [newTask d f n] } ∨
      s.handOff d f n = { s with
        env := { s.env with handoff := rest }, freeHandoff := c,
        trace := s.trace ++ [.log s.cfg.instName .handoffFail none] } := by
  unfold State.handOff
  split
  · right
    unfold State.takeHandoff
    cases h : s.env.handoff with
    | nil =>
      refine ⟨[], s.freeHandoff + 1, ?_⟩
      have he : s.env = { s.env with handoff := [] } := by rw [← h]
      cases Config.handoffSucceeds s.freeHandoff
      · right; simp [State.logFailure, State.emit, ← he]
      · left; simp [← he]
    | cons c rest =>
      refine ⟨rest, s.freeHandoff, ?_⟩
      cases c
      · right; rfl
      · left; rfl
  · left; rfl

/-- R39, R220: what a frame event with its hand-off can do. -/
theorem State.frameEvent_cases (s : State) (d : Dir) (f : List Byte) (n : Bool) :
    ∃ (env : Env) (c : Nat) (tasks : List Task) (more : List Event),
      s.frameEvent d f n = { s with
        env := env, freeHandoff := c, inflight := s.inflight ++ tasks, trace := s.trace ++ [.frame d f n] ++ more } ∧
      (∃ rest, env = { s.env with handoff := rest }) ∧ (tasks = [] ∨ tasks = [newTask d f n]) ∧
      (more = [] ∨ more = [.log s.cfg.instName .handoffFail none]) := by
  unfold State.frameEvent
  rcases State.handOff_cases (s.emit (.frame d f n)) d f n with h | ⟨rest, c, h | h⟩
  · exact ⟨s.env, s.freeHandoff, [], [], by rw [h]; simp [State.emit], ⟨s.env.handoff, rfl⟩, .inl rfl, .inl rfl⟩
  · exact ⟨_, c, [newTask d f n], [], by rw [h]; simp [State.emit], ⟨rest, rfl⟩, .inr rfl, .inl rfl⟩
  · exact ⟨_, c, [], [.log s.cfg.instName .handoffFail none], by rw [h]; simp [State.emit], ⟨rest, rfl⟩, .inl rfl,
      .inr rfl⟩

/-! ### The assembler -/

/-- R113, R119: everything PROCESSBYTE changes. -/
theorem State.processByte_eq (s : State) (d : Dir) (b : Byte) :
    (s.processByte d b).1 = { s with
      acc := s.acc.set d (processByteAcc s.cfg.accDepth (s.acc.get d) b).acc,
      ovf := s.ovf.set d (s.ovf.get d || (processByteAcc s.cfg.accDepth (s.acc.get d) b).overflow),
      trace := s.trace ++ if (processByteAcc s.cfg.accDepth (s.acc.get d) b).overflow
        then [.log s.cfg.instName .accOverflow (some d)] else [],
      freeFrame := s.freeFrame +
        if s.ovf.get d ∧ ¬ (processByteAcc s.cfg.accDepth (s.acc.get d) b).overflow then 1 else 0 } := by
  unfold State.processByte
  generalize processByteAcc s.cfg.accDepth (s.acc.get d) b = r
  obtain ⟨acc, frame, overflow⟩ := r
  cases overflow <;> simp [State.logFailure, State.emit, State.setAcc, State.setOvf, stickyOvf]

/-- The result of PROCESSBYTE on an assembler that is not faulted (R113). -/
theorem State.processByte_result (s : State) (d : Dir) (b : Byte) (h : s.ovf.get d = false) :
    (s.processByte d b).2 = (processByteAcc s.cfg.accDepth (s.acc.get d) b).frame := by
  simp [State.processByte, State.assemblerResult, h]

/-- The result of an operation that overflows: no frame (R119). -/
theorem State.processByte_result_full (s : State) (d : Dir) (b : Byte)
    (h : (processByteAcc s.cfg.accDepth (s.acc.get d) b).overflow = true) :
    (s.processByte d b).2 = none := by
  simp [State.processByte, State.assemblerResult, h, processByteAcc_overflow h]

/-- R170: FEED is PROCESSBYTE after DRD, then the frame event of a completed frame. -/
theorem State.feed_eq (s : State) (d : Dir) (b : Byte) :
    s.feed d b = match ((s.drd d).processByte d b).2 with
      | some fn => (((s.drd d).processByte d b).1.frameEvent d fn.1 fn.2, some fn)
      | none => (((s.drd d).processByte d b).1, none) := by
  unfold State.feed
  generalize (s.drd d).processByte d b = r
  obtain ⟨u, _ | fn⟩ := r <;> rfl

/-- DRD leaves a clean accumulator alone, as a state (R118). -/
theorem State.drd_of_clean (s : State) (d : Dir) (h : AccClean s d) : s.drd d = s := by
  simp [State.drd, State.setAcc, drdAcc_of_clean (accClean_tail h)]

/-- The result of FEED is PROCESSBYTE's on what DRD leaves (R170). -/
theorem State.feed_result (s : State) (d : Dir) (b : Byte) :
    (s.feed d b).2 =
      s.assemblerResult d (processByteAcc s.cfg.accDepth (drdAcc (s.acc.get d)) b) := by
  have h : ((s.drd d).processByte d b).2 = s.assemblerResult d
      (processByteAcc s.cfg.accDepth (drdAcc (s.acc.get d)) b) := by
    simp [State.processByte, State.assemblerResult]
  rw [← h, State.feed_eq]
  cases ((s.drd d).processByte d b).2 <;> rfl

/-- What a FEED can do (R22, R58): the accumulator and flag of its direction, the hand-off's own fields, events of the kinds
`frame` and `log`, at most one task. -/
theorem State.feed_cases (s : State) (d : Dir) (b : Byte) :
    ∃ (env : Env) (c g : Nat) (tasks : List Task) (more : List Event) (o : Bool),
      (s.feed d b).1 = { s with
        acc := s.acc.set d (processByteAcc s.cfg.accDepth (drdAcc (s.acc.get d)) b).acc, ovf := s.ovf.set d o,
        env := env, freeHandoff := c, freeFrame := g, inflight := s.inflight ++ tasks, trace := s.trace ++ more } ∧
      (o = (s.ovf.get d || (processByteAcc s.cfg.accDepth (drdAcc (s.acc.get d)) b).overflow)) ∧
      (∃ rest, env = { s.env with handoff := rest }) ∧
      g = s.freeFrame + (if s.ovf.get d ∧ ¬ (processByteAcc s.cfg.accDepth (drdAcc (s.acc.get d)) b).overflow then 1
        else 0) ∧
      ((s.feed d b).2 = none ∧ tasks = [] ∧ (more = [] ∨ more = [.log s.cfg.instName .accOverflow (some d)]) ∨
        ∃ f n, (s.feed d b).2 = some (f, n) ∧ (tasks = [] ∨ tasks = [newTask d f n]) ∧
          (more = [.frame d f n] ∨ more = [.frame d f n, .log s.cfg.instName .handoffFail none])) := by
  rw [State.feed_eq]
  cases h : ((s.drd d).processByte d b).2 with
  | none =>
    refine ⟨s.env, s.freeHandoff, ((s.drd d).processByte d b).1.freeFrame, [],
      (if (processByteAcc s.cfg.accDepth (drdAcc (s.acc.get d)) b).overflow
        then [.log s.cfg.instName .accOverflow (some d)] else []), _, ?_, rfl, ⟨s.env.handoff, rfl⟩, ?_,
      .inl ⟨rfl, rfl, ?_⟩⟩
    · simp [State.processByte_eq]
    · simp [State.processByte_eq]
    · split <;> simp
  | some fn =>
    obtain ⟨f, n⟩ := fn
    have hno : (processByteAcc s.cfg.accDepth (drdAcc (s.acc.get d)) b).overflow = false := by
      by_contra hc
      have := State.processByte_result_full (s.drd d) d b (by simpa using hc)
      simp [this] at h
    obtain ⟨env, c, tasks, more, he, ⟨rest, hrest⟩, ht, hm⟩ :=
      State.frameEvent_cases (((s.drd d).processByte d b).1) d f n
    refine ⟨env, c, ((s.drd d).processByte d b).1.freeFrame, tasks, [.frame d f n] ++ more, _, ?_, rfl,
      ⟨rest, ?_⟩, ?_, .inr ⟨f, n, rfl, ht, ?_⟩⟩
    · show (((s.drd d).processByte d b).1.frameEvent d f n) = _
      rw [he]
      simp [State.processByte_eq, hno]
    · rw [hrest, State.processByte_eq]; rfl
    · simp [State.processByte_eq]
    · rw [State.processByte_eq] at hm
      rcases hm with rfl | rfl <;> simp

end Sys2Proof.Machine
end

