-- ==== Sys2Proof/Laws/Exec.lean ====
section
/-! SUPPORT. What a step of each agent can do, and what any operation can do: inversion lemmas the provers split on instead of
unfolding the meanings. -/

namespace Sys2Proof.Machine

/-! ### The pumps -/

/-- The state a pump leaves when the event on `rx[d]` is a failure (R244, R246). -/
theorem pumpRead_fail {s : State} {d : Dir} {rest : List RxOffer} (h : s.env.rx.get d = .fail :: rest) :
    pumpRead s d = { s with
      ser := if d = .n2m then .closed else s.ser, tcp := if d = .m2n then .closed else s.tcp,
      phase := s.phase.set d .awaitRead, pump := s.pump.set d .stopped,
      env := { s.env with rx := s.env.rx.set d rest },
      trace := s.trace ++ [.rxFail d, if d = .n2m then .serClose else .tcpClose,
        .log s.cfg.instName (readFailure d) none] } := by
  simp [pumpRead, h, State.transportFail_eq, State.emit]

/-- The state a pump leaves when its write is answered `TxFail` (R245, R247). -/
theorem pumpWrite_fail {s : State} {d : Dir} {b : Byte} {rest : List Bool} (h : s.env.tx.get d = false :: rest) :
    pumpWrite s d b = { s with
      ser := if d = .n2m then .closed else s.ser, tcp := if d = .m2n then .closed else s.tcp,
      phase := s.phase.set d .awaitRead, pump := s.pump.set d .stopped,
      env := { s.env with tx := s.env.tx.set d rest },
      trace := s.trace ++ [.txWrite d b false, if d = .n2m then .serClose else .tcpClose,
        .log s.cfg.instName (writeFailure d) none] } := by
  simp [pumpWrite, h, State.transportFail_eq, State.emit]

/-- The state a pump leaves when its write is answered `TxOk` (R181, R182). -/
theorem pumpWrite_ok {s : State} {d : Dir} {b : Byte} {rest : List Bool} (h : s.env.tx.get d = true :: rest) :
    pumpWrite s d b = { s with
      phase := s.phase.set d .awaitRead, env := { s.env with tx := s.env.tx.set d rest },
      trace := s.trace ++ [.txWrite d b true] } := by
  simp [pumpWrite, h, State.emit, State.setPhase]

/-- The state with the byte on offer taken (R36). -/
def State.takeByte (s : State) (d : Dir) (b : Byte) (rest : List RxOffer) : State :=
  { s with env := { s.env with rx := s.env.rx.set d rest }, trace := s.trace ++ [.rxByte d b] }

/-- A pump that takes a byte feeds it and holds it (R181, R182). -/
theorem pumpRead_byte {s : State} {d : Dir} {b : Byte} {rest : List RxOffer} (h : s.env.rx.get d = .byte b :: rest) :
    pumpRead s d = ((s.takeByte d b rest).feed d b).1.setPhase d (.awaitWrite b) := by
  simp [pumpRead, h, State.emit, State.takeByte]

/-- Everything one step of a pump can do (R180 to R182): nothing; a failed read; a byte read and fed; a write, answered either way. -/
theorem pumpStep_cases (s : State) (d : Dir) :
    pumpStep s d = s ∨
    s.pumpRuns d ∧
      ((s.phase.get d = .awaitRead ∧
          ((∃ rest, s.env.rx.get d = .fail :: rest ∧ pumpStep s d = pumpRead s d) ∨
            ∃ b rest, s.env.rx.get d = .byte b :: rest ∧
              pumpStep s d = ((s.takeByte d b rest).feed d b).1.setPhase d (.awaitWrite b))) ∨
        ∃ b, s.phase.get d = .awaitWrite b ∧ ∃ ok rest, s.env.tx.get d = ok :: rest ∧ pumpStep s d = pumpWrite s d b) := by
  unfold pumpStep
  split
  · rename_i hr
    split
    · rename_i hp
      rcases hx : s.env.rx.get d with _ | ⟨_ | _, rest⟩
      · left; simp [pumpRead, hx, State.wait]
      · rename_i b
        right; exact ⟨hr, .inl ⟨hp, .inr ⟨b, rest, rfl, pumpRead_byte hx⟩⟩⟩
      · right; exact ⟨hr, .inl ⟨hp, .inl ⟨rest, rfl, rfl⟩⟩⟩
    · rename_i b hp
      rcases hx : s.env.tx.get d with _ | ⟨ok, rest⟩
      · left; simp [pumpWrite, hx, State.wait]
      · right; exact ⟨hr, .inr ⟨b, hp, ok, rest, rfl, rfl⟩⟩
  · left; rfl

/-! ### The engine -/

/-- The engine's steps (R190). -/
def engineSteps : List Instr := [.engBind, .engAccept, .engOpen, .engJoin, .engTeardown, .engFatal]

/-- ENG.BIND (R191): nothing, or one of its two answers. -/
theorem execEngBind_cases (s : State) :
    execEngBind s = .next s ∨
    (s.eng = .idle ∧ ∃ rest,
      (s.env.bind = true :: rest ∧ execEngBind s = .next { s with
        lsn := .bound, eng := .listening, env := { s.env with bind := rest },
        trace := s.trace ++ [.listenBind s.cfg.listenPort s.cfg.loopbackOnly true] }) ∨
      (s.env.bind = false :: rest ∧ execEngBind s = .next { s with
        eng := .dead, env := { s.env with bind := rest },
        trace := s.trace ++
          [.listenBind s.cfg.listenPort s.cfg.loopbackOnly false, .log s.cfg.instName .bindFail none] })) := by
  unfold execEngBind
  split
  · rename_i he
    rcases hb : s.env.bind with _ | ⟨_ | _, rest⟩
    · left; rfl
    · right; exact ⟨he, rest, .inr ⟨rfl, by simp [State.callBind, State.die, State.logFailure, State.emit]⟩⟩
    · right; exact ⟨he, rest, .inl ⟨rfl, by simp [State.callBind, State.emit]⟩⟩
  · left; rfl

/-- ENG.ACCEPT (R192): nothing, or the node that has connected. -/
theorem execEngAccept_cases (s : State) :
    execEngAccept s = .next s ∨
    (s.eng = .listening ∧ ∃ n, s.env.accepted = n + 1 ∧ execEngAccept s = .next { s with
      tcp := .opened, eng := .connected, env := { s.env with accepted := n }, trace := s.trace ++ [.accepted] }) := by
  unfold execEngAccept
  split
  · rename_i he
    rcases hb : s.env.accepted with _ | n
    · left; rfl
    · right; exact ⟨he, n, rfl, by simp [State.emit]⟩
  · left; rfl

/-- ENG.OPEN (R193): nothing, or one of its two answers. -/
theorem execEngOpen_cases (s : State) :
    execEngOpen s = .next s ∨
    (s.eng = .connected ∧ ∃ rest,
      (s.env.serOpen = true :: rest ∧ execEngOpen s = .next { s with
        ser := .opened, phase := .both .awaitRead, pump := .both .running, eng := .relaying,
        env := { s.env with serOpen := rest }, trace := s.trace ++ [.serOpen s.cfg.serDevice s.cfg.baud true] }) ∨
      (s.env.serOpen = false :: rest ∧ execEngOpen s = .next { s with
        tcp := .closed, eng := .listening, env := { s.env with serOpen := rest },
        trace := s.trace ++
          [.serOpen s.cfg.serDevice s.cfg.baud false, .log s.cfg.instName .serialOpenFail none, .tcpClose] })) := by
  unfold execEngOpen
  split
  · rename_i he
    rcases hb : s.env.serOpen with _ | ⟨_ | _, rest⟩
    · left; rfl
    · right
      exact ⟨he, rest, .inr ⟨rfl, by simp [State.callSerOpen, State.closeTcp, State.logFailure, State.emit]⟩⟩
    · right; exact ⟨he, rest, .inl ⟨rfl, by simp [State.callSerOpen, State.startPumps, State.emit]⟩⟩
  · left; rfl

/-- ENG.JOIN (R194): nothing, or the join of two stopped pumps. -/
theorem execEngJoin_cases (s : State) :
    execEngJoin s = .next s ∨
    (s.eng = .relaying ∧ s.pump.n2m = .stopped ∧ s.pump.m2n = .stopped ∧
      execEngJoin s = .next { s with eng := .tornDown }) := by
  unfold execEngJoin
  split
  · rename_i h; exact .inr ⟨h.1, h.2.1, h.2.2, rfl⟩
  · left; rfl

/-- ENG.TEARDOWN (R196): nothing, or the release of both transports, with the flush under `FLUSH_ON_TEARDOWN`. -/
theorem execEngTeardown_cases (s : State) :
    execEngTeardown s = .next s ∨
    (s.eng = .tornDown ∧ execEngTeardown s = .next { s with
      ser := .closed, tcp := .closed, eng := .listening,
      acc := if s.cfg.flushOnTeardown then .both [] else s.acc, trace := s.trace ++ [.serClose, .tcpClose] }) := by
  unfold execEngTeardown
  split
  · rename_i h; exact .inr ⟨h, by simp [State.closeSer, State.closeTcp, State.flush_eq, State.emit]⟩
  · left; rfl

/-- ENG.FATAL (R197): nothing, or the end of the instance. -/
theorem execEngFatal_cases (s : State) :
    execEngFatal s = .next s ∨
    (s.eng ≠ .idle ∧ s.eng ≠ .dead ∧ ∃ n, s.env.unexpected = n + 1 ∧ execEngFatal s = .next { s with
      eng := .dead, env := { s.env with unexpected := n },
      trace := s.trace ++ [.unexpected, .log s.cfg.instName .unexpected none] }) := by
  unfold execEngFatal
  split
  · rename_i h
    rcases hb : s.env.unexpected with _ | n
    · left; rfl
    · right
      refine ⟨?_, ?_, n, rfl, by simp [State.die, State.logFailure, State.emit]⟩ <;>
        (intro he; rw [he] at h; simp [Eng.mayFail] at h)
  · left; rfl

/-! ### The dispatcher -/

/-- The stage Describe with an answer the environment states (R221, R228). -/
theorem dispatchDescribe_cons {s : State} {a : DescAnswer} {rest : List DescAnswer} (h : s.env.describer = a :: rest)
    {k : Nat} {t : Task} :
    dispatchDescribe s k t = { s with
      env := { s.env with describer := rest }, trace := s.trace ++ describeEvents s.cfg t a,
      inflight := s.inflight.set k { t with stage := .done } } := by
  rw [dispatchDescribe, State.takeDescription_cons h, State.describe_eq]; rfl

/-- The stage Describe with an answer the environment leaves free (R228). -/
theorem dispatchDescribe_nil {s : State} (h : s.env.describer = []) {k : Nat} {t : Task} :
    dispatchDescribe s k t = { s with
      trace := s.trace ++ describeEvents s.cfg t (freeDescription s.freeDescriber),
      inflight := s.inflight.set k { t with stage := .done }, freeDescriber := s.freeDescriber + 1 } := by
  rw [dispatchDescribe, State.takeDescription_nil h, State.describe_eq]; rfl

/-- DISPATCH (R221): nothing; one task replaced, with at most two records or log events and an answer of the describer taken; one
task removed. -/
theorem execDispatch_cases (s : State) (k : Nat) :
    execDispatch k s = .next s ∨
    ∃ t, s.inflight[k]? = some t ∧
      ((∃ (task : Task) (rest : List DescAnswer) (free : Nat) (more : List Event), task.frame = t.frame ∧ task.dir = t.dir ∧
          (TaskSound t → TaskSound task) ∧
          (∀ e ∈ more, relayEvent e = false ∧ CarriesConfig s.cfg e) ∧
          execDispatch k s = .next { s with
            env := { s.env with describer := rest }, trace := s.trace ++ more, inflight := s.inflight.set k task,
            freeDescriber := free }) ∨
        execDispatch k s = .next { s with inflight := s.inflight.eraseIdx k }) := by
  unfold execDispatch
  rcases hk : s.inflight[k]? with _ | t
  · left; rfl
  · simp only
    rcases hst : t.stage with _ | _ | _ | _ | _
    · right
      refine ⟨t, rfl, .inl ⟨{ t with stage := .decode }, s.env.describer, s.freeDescriber,
        [.obs s.cfg.instName s.cfg.b64 (.framed t.dir t.frame t.norm)], rfl, rfl, fun _ => trivial, ?_, rfl⟩⟩
      simp [relayEvent, CarriesConfig]
    · right
      simp only [dispatchDecode]
      rcases hd : decodeFrame t.frame with ⟨p, port, cmd, kind⟩ | r
      · refine ⟨t, rfl, .inl ⟨{ t with stage := .unframed, payload := p, port := port, cmd := cmd }, s.env.describer,
          s.freeDescriber, [],
          rfl, rfl, fun _ => ?_, by simp, by simp [State.setTask]⟩⟩
        have hk : kind = kindOf port cmd := by
          revert hd; unfold decodeFrame decodeTail; grind
        simp [TaskSound, hd, hk]
      · refine ⟨t, rfl, .inl ⟨{ t with stage := .done }, s.env.describer, s.freeDescriber,
          [.log s.cfg.instName (.invalidFrame r) (some t.dir)], rfl, rfl, fun _ => trivial, ?_, rfl⟩⟩
        simp [relayEvent, CarriesConfig]
    · right
      refine ⟨t, rfl, .inl ⟨_, s.env.describer, s.freeDescriber,
        [.obs s.cfg.instName s.cfg.b64 (.unframed t.dir t.port t.cmd (kindOf t.port t.cmd) t.payload)], ?_, ?_, ?_, ?_,
        rfl⟩⟩
      · rfl
      · rfl
      · intro h
        simp only [TaskSound, hst] at h
        by_cases hdes : (kindOf t.port t.cmd).described
        · simp only [TaskSound, hdes, if_true]
          refine ⟨h, ?_⟩
          revert hdes; cases kindOf t.port t.cmd <;> simp [Kind.described]
        · simp [TaskSound, hdes]
      · simp [relayEvent, CarriesConfig]
    · right
      have key : ∃ a rest free, dispatchDescribe s k t = { s with
          env := { s.env with describer := rest }, trace := s.trace ++ describeEvents s.cfg t a,
          inflight := s.inflight.set k { t with stage := .done }, freeDescriber := free } := by
        rcases hx : s.env.describer with _ | ⟨a, rest⟩
        · exact ⟨_, s.env.describer, _, dispatchDescribe_nil hx⟩
        · exact ⟨_, _, s.freeDescriber, dispatchDescribe_cons hx⟩
      obtain ⟨a, rest, free, hk⟩ := key
      refine ⟨t, rfl, .inl ⟨{ t with stage := .done }, rest, free, describeEvents s.cfg t a, rfl, rfl, fun _ => trivial, ?_,
        by rw [hk]⟩⟩
      cases a <;> simp [describeEvents, relayEvent, CarriesConfig]
    · right; exact ⟨t, rfl, .inr rfl⟩

/-! ### Any operation -/

/-- An assembler call that answers a next state: nothing in `Dead` (R26); else what the call does, where no pump feeds the direction
(R171). -/
theorem whenSoleSource_next {s t u : State} {d : Dir} (h : whenSoleSource s d t = .next u) :
    (s.eng = .dead ∧ u = s) ∨ (s.openTo d ∧ u = t) := by
  unfold whenSoleSource at h
  split at h
  · rename_i hd; cases h; exact .inl ⟨hd, rfl⟩
  · rename_i hd
    split at h
    · cases h
    · rename_i hr; cases h; exact .inr ⟨⟨hd, hr⟩, rfl⟩

/-- Where the assembler takes calls from outside, such a call answers (R26, R171). -/
theorem whenSoleSource_of_open {s t : State} {d : Dir} (h : s.openTo d) : whenSoleSource s d t = .next t := by
  unfold whenSoleSource; rw [if_neg h.1, if_neg h.2]

/-- In `Dead` such a call is not enabled (R26). -/
theorem whenSoleSource_dead {s t : State} {d : Dir} (h : s.eng = .dead) : whenSoleSource s d t = .next s := if_pos h

/-- While the pump of the direction runs, such a call is a second source (R171). -/
theorem whenSoleSource_refused {s t : State} {d : Dir} (h : s.pumpRuns d) :
    whenSoleSource s d t = .refused (.secondSource d) := by
  unfold whenSoleSource; rw [if_neg (by rw [h.1]; decide), if_pos h]

/-- Everything a meaning that answers a next state can do. -/
theorem exec_cases {i : Instr} {s t : State} (h : exec i s = .next t) :
    (s.eng = .dead ∧ t = s) ∨
    (∃ a, t = s.answer a) ∨
    (∃ d b, s.openTo d ∧ t = (s.feed d b).1.answer (.fed d (s.feed d b).2)) ∨
    (∃ d, s.openTo d ∧ t = s.drd d) ∨
    (∃ d b, s.openTo d ∧ t = (s.processByte d b).1.answer (.processed d (s.processByte d b).2)) ∨
    (∃ d, i = pumpOf d ∧ t = pumpStep s d) ∨
    i ∈ engineSteps ∨ ∃ k, i = .dispatch k ∧ execDispatch k s = .next t := by
  cases i <;> simp only [exec] at h
  case feedFend d => rcases whenSoleSource_next h with h | h <;> [exact .inl h; exact .inr (.inr (.inl ⟨d, FEND, h⟩))]
  case feedData d b => rcases whenSoleSource_next h with h | h <;> [exact .inl h; exact .inr (.inr (.inl ⟨d, b, h⟩))]
  case feed d b => rcases whenSoleSource_next h with h | h <;> [exact .inl h; exact .inr (.inr (.inl ⟨d, b, h⟩))]
  case drd d => rcases whenSoleSource_next h with h | h <;> [exact .inl h; exact .inr (.inr (.inr (.inl ⟨d, h⟩)))]
  case processbyte d b =>
    rcases whenSoleSource_next h with h | h <;> [exact .inl h; exact .inr (.inr (.inr (.inr (.inl ⟨d, b, h⟩))))]
  case pumpN2m => cases h; exact .inr (.inr (.inr (.inr (.inr (.inl ⟨.n2m, rfl, rfl⟩)))))
  case pumpM2n => cases h; exact .inr (.inr (.inr (.inr (.inr (.inl ⟨.m2n, rfl, rfl⟩)))))
  case dispatch k => exact .inr (.inr (.inr (.inr (.inr (.inr (.inr ⟨k, rfl, h⟩))))))
  case engBind | engAccept | engOpen | engJoin | engTeardown | engFatal => simp [engineSteps]
  case normalize q =>
    unfold execNormalize at h
    split at h
    · cases h
    · cases h; exact .inr (.inl ⟨_, rfl⟩)
  case exitkiss p => unfold execExitkiss at h; split at h <;> (cases h; exact .inr (.inl ⟨_, rfl⟩))
  case txdelay p q => unfold execTxdelay oneByteRow at h; split at h <;> (cases h; exact .inr (.inl ⟨_, rfl⟩))
  case persistence p q => unfold execPersistence oneByteRow at h; split at h <;> (cases h; exact .inr (.inl ⟨_, rfl⟩))
  case slottime p q => unfold execSlottime oneByteRow at h; split at h <;> (cases h; exact .inr (.inl ⟨_, rfl⟩))
  case txtail p q => unfold execTxtail oneByteRow at h; split at h <;> (cases h; exact .inr (.inl ⟨_, rfl⟩))
  case fullduplex p q => unfold execFullduplex oneByteRow at h; split at h <;> (cases h; exact .inr (.inl ⟨_, rfl⟩))
  all_goals (cases h; exact .inr (.inl ⟨_, rfl⟩))

/-- One step (R280, R303): the reset input; nothing; the operation that stands first in the schedule. -/
theorem step_cases {s t : State} (h : step s = .next t) :
    (s.env.resetIn = true ∧ t = s.applyReset) ∨
    (s.env.resetIn = false ∧ s.sched = [] ∧ t = s) ∨
    (s.env.resetIn = false ∧ ∃ r rest i, s.sched = r :: rest ∧ decode r = .ok i ∧
      exec i { s with sched := rest } = .next t) := by
  unfold step at h
  split at h
  · rename_i hr; cases h; exact .inl ⟨hr, rfl⟩
  · rename_i hr
    have hr' : s.env.resetIn = false := by simpa using hr
    split at h
    · rename_i hs; cases h; exact .inr (.inl ⟨hr', hs, rfl⟩)
    · rename_i r rest hs
      unfold runRequest at h
      split at h
      · rename_i i hi; exact .inr (.inr ⟨hr', r, rest, i, hs, hi, h⟩)
      · cases h

end Sys2Proof.Machine
end

