-- ==== Sys2Proof/Laws/PerInstr.lean ====
section
/-! SUPPORT. Laws of every operation as syntax, one lemma per constructor of Instr. -/

/-- R99: the encoder lays an operation out in the format of its row of the table: an OP row has no bits and is selected by its
priority, every other row has bits and stands in the table with the format they are laid out in. -/
def Sys2Proof.Laws.EncodeShape.Statement (i : Sys2Proof.Instr) : Prop :=
  ((Sys2Proof.encode i).fmt = .op ∧ (Sys2Proof.encode i).bits = [] ∧ (Sys2Proof.encode i).sel + 27 = i.place) ∨
    ((Sys2Proof.encode i).bits ≠ [] ∧
      ∃ row ∈ Sys2Proof.tableRows, row.place = i.place ∧ row.fmt = (Sys2Proof.encode i).fmt)

namespace Sys2Proof.Laws.EncodeShape

theorem feedFend : ∀ a, Statement (.feedFend a) :=
  fun _ => .inr ⟨List.cons_ne_nil _ _, tableRows[0], by decide, rfl, rfl⟩

theorem feedData : ∀ a b, Statement (.feedData a b) :=
  fun _ _ => .inr ⟨List.cons_ne_nil _ _, tableRows[1], by decide, rfl, rfl⟩

theorem unescFend : Statement .unescFend :=
  .inr ⟨List.cons_ne_nil _ _, tableRows[2], by decide, rfl, rfl⟩

theorem unescFesc : Statement .unescFesc :=
  .inr ⟨List.cons_ne_nil _ _, tableRows[3], by decide, rfl, rfl⟩

theorem unescLonefesc : ∀ a, Statement (.unescLonefesc a) :=
  fun _ => .inr ⟨List.cons_ne_nil _ _, tableRows[4], by decide, rfl, rfl⟩

theorem unescLit : ∀ a b, Statement (.unescLit a b) :=
  fun _ _ => .inr ⟨List.cons_ne_nil _ _, tableRows[5], by decide, rfl, rfl⟩

theorem stuffFend : Statement .stuffFend :=
  .inr ⟨List.cons_ne_nil _ _, tableRows[6], by decide, rfl, rfl⟩

theorem stuffFesc : Statement .stuffFesc :=
  .inr ⟨List.cons_ne_nil _ _, tableRows[7], by decide, rfl, rfl⟩

theorem stuffLit : ∀ a, Statement (.stuffLit a) :=
  fun _ => .inr ⟨List.cons_ne_nil _ _, tableRows[8], by decide, rfl, rfl⟩

theorem exitkiss : ∀ a, Statement (.exitkiss a) :=
  fun _ => .inr ⟨List.cons_ne_nil _ _, tableRows[9], by decide, rfl, rfl⟩

theorem dataframe : ∀ a b, Statement (.dataframe a b) :=
  fun _ _ => .inr ⟨List.cons_ne_nil _ _, tableRows[10], by decide, rfl, rfl⟩

theorem txdelay : ∀ a b, Statement (.txdelay a b) :=
  fun _ _ => .inr ⟨List.cons_ne_nil _ _, tableRows[11], by decide, rfl, rfl⟩

theorem persistence : ∀ a b, Statement (.persistence a b) :=
  fun _ _ => .inr ⟨List.cons_ne_nil _ _, tableRows[12], by decide, rfl, rfl⟩

theorem slottime : ∀ a b, Statement (.slottime a b) :=
  fun _ _ => .inr ⟨List.cons_ne_nil _ _, tableRows[13], by decide, rfl, rfl⟩

theorem txtail : ∀ a b, Statement (.txtail a b) :=
  fun _ _ => .inr ⟨List.cons_ne_nil _ _, tableRows[14], by decide, rfl, rfl⟩

theorem fullduplex : ∀ a b, Statement (.fullduplex a b) :=
  fun _ _ => .inr ⟨List.cons_ne_nil _ _, tableRows[15], by decide, rfl, rfl⟩

theorem rsvd6 : ∀ a b, Statement (.rsvd6 a b) :=
  fun _ _ => .inr ⟨List.cons_ne_nil _ _, tableRows[16], by decide, rfl, rfl⟩

theorem rsvd7 : ∀ a b, Statement (.rsvd7 a b) :=
  fun _ _ => .inr ⟨List.cons_ne_nil _ _, tableRows[17], by decide, rfl, rfl⟩

theorem rsvd8 : ∀ a b, Statement (.rsvd8 a b) :=
  fun _ _ => .inr ⟨List.cons_ne_nil _ _, tableRows[18], by decide, rfl, rfl⟩

theorem rsvd9 : ∀ a b, Statement (.rsvd9 a b) :=
  fun _ _ => .inr ⟨List.cons_ne_nil _ _, tableRows[19], by decide, rfl, rfl⟩

theorem rsvda : ∀ a b, Statement (.rsvda a b) :=
  fun _ _ => .inr ⟨List.cons_ne_nil _ _, tableRows[20], by decide, rfl, rfl⟩

theorem rsvdb : ∀ a b, Statement (.rsvdb a b) :=
  fun _ _ => .inr ⟨List.cons_ne_nil _ _, tableRows[21], by decide, rfl, rfl⟩

theorem ackmode : ∀ a b, Statement (.ackmode a b) :=
  fun _ _ => .inr ⟨List.cons_ne_nil _ _, tableRows[22], by decide, rfl, rfl⟩

theorem rsvdd : ∀ a b, Statement (.rsvdd a b) :=
  fun _ _ => .inr ⟨List.cons_ne_nil _ _, tableRows[23], by decide, rfl, rfl⟩

theorem rsvde : ∀ a b, Statement (.rsvde a b) :=
  fun _ _ => .inr ⟨List.cons_ne_nil _ _, tableRows[24], by decide, rfl, rfl⟩

theorem rsvdf : ∀ a b, Statement (.rsvdf a b) :=
  fun _ _ => .inr ⟨List.cons_ne_nil _ _, tableRows[25], by decide, rfl, rfl⟩

theorem frame : ∀ a b c, Statement (.frame a b c) :=
  fun _ _ _ => .inr ⟨List.cons_ne_nil _ _, tableRows[26], by decide, rfl, rfl⟩

theorem drd : ∀ a, Statement (.drd a) :=
  fun _ => .inl ⟨rfl, rfl, rfl⟩

theorem iscomplete : ∀ a, Statement (.iscomplete a) :=
  fun _ => .inl ⟨rfl, rfl, rfl⟩

theorem normalize : ∀ a, Statement (.normalize a) :=
  fun _ => .inl ⟨rfl, rfl, rfl⟩

theorem processbyte : ∀ a b, Statement (.processbyte a b) :=
  fun _ _ => .inl ⟨rfl, rfl, rfl⟩

theorem decode : ∀ a, Statement (.decode a) :=
  fun _ => .inl ⟨rfl, rfl, rfl⟩

theorem unescape : ∀ a, Statement (.unescape a) :=
  fun _ => .inl ⟨rfl, rfl, rfl⟩

theorem encode : ∀ a b c, Statement (.encode a b c) :=
  fun _ _ _ => .inl ⟨rfl, rfl, rfl⟩

theorem stuff : ∀ a, Statement (.stuff a) :=
  fun _ => .inl ⟨rfl, rfl, rfl⟩

theorem feed : ∀ a b, Statement (.feed a b) :=
  fun _ _ => .inl ⟨rfl, rfl, rfl⟩

theorem pumpN2m : Statement .pumpN2m :=
  .inl ⟨rfl, rfl, rfl⟩

theorem pumpM2n : Statement .pumpM2n :=
  .inl ⟨rfl, rfl, rfl⟩

theorem engBind : Statement .engBind :=
  .inl ⟨rfl, rfl, rfl⟩

theorem engAccept : Statement .engAccept :=
  .inl ⟨rfl, rfl, rfl⟩

theorem engOpen : Statement .engOpen :=
  .inl ⟨rfl, rfl, rfl⟩

theorem engJoin : Statement .engJoin :=
  .inl ⟨rfl, rfl, rfl⟩

theorem engTeardown : Statement .engTeardown :=
  .inl ⟨rfl, rfl, rfl⟩

theorem engFatal : Statement .engFatal :=
  .inl ⟨rfl, rfl, rfl⟩

theorem dispatch : ∀ a, Statement (.dispatch a) :=
  fun _ => .inl ⟨rfl, rfl, rfl⟩

end Sys2Proof.Laws.EncodeShape
end

