-- ==== Sys2Proof/Laws/Runs.lean ====
section
/-! SUPPORT. Runs of operations, and the equations of one operation where its enabling condition is known. -/

namespace Sys2Proof.Machine

/-! ### The assembler -/

/-- The port `feed` of R41, whichever row presents the byte (R91, R170). -/
theorem exec_of_feedsByte {i : Instr} {d : Dir} {b : Byte} {s : State} (h : FeedsByte i d b) :
    exec i s = feedCall s d b := by
  rcases h with rfl | ⟨rfl, rfl⟩ | ⟨-, rfl⟩ <;> rfl

/-- A FEED that completes no frame (R114, R170). -/
theorem State.feed_none {s : State} {d : Dir} {b : Byte} (ho : s.ovf.get d = false) (hc : AccClean s d)
    {acc : List Byte} (h : processByteAcc s.cfg.accDepth (s.acc.get d) b = ⟨acc, none, false⟩) :
    s.feed d b = ({ s with acc := s.acc.set d acc }, none) := by
  rw [State.feed_eq, State.drd_of_clean s d hc, State.processByte_result s d b ho, State.processByte_eq, h]
  have : s.ovf.set d false = s.ovf := by rw [← ho]; simp
  simp [ho, this]

/-- A FEED that completes a frame (R114, R170). -/
theorem State.feed_some {s : State} {d : Dir} {b : Byte} (ho : s.ovf.get d = false) (hc : AccClean s d)
    {acc f : List Byte} {n : Bool} (h : processByteAcc s.cfg.accDepth (s.acc.get d) b = ⟨acc, some (f, n), false⟩) :
    s.feed d b = ({ s with acc := s.acc.set d acc }.frameEvent d f n, some (f, n)) := by
  rw [State.feed_eq, State.drd_of_clean s d hc, State.processByte_result s d b ho, State.processByte_eq, h]
  have : s.ovf.set d false = s.ovf := by rw [← ho]; simp
  simp [ho, this]

/-! ### The pumps -/

/-- A step of a pump, as an instruction (R181, R182). -/
theorem exec_pumpOf (d : Dir) (s : State) : exec (pumpOf d) s = .next (pumpStep s d) := by cases d <;> rfl

/-- The reading half (R181, R182). -/
theorem pumpStep_read {s : State} {d : Dir} (hr : s.pumpRuns d) (hp : s.phase.get d = .awaitRead) :
    pumpStep s d = pumpRead s d := by
  unfold pumpStep; rw [if_pos hr, hp]

/-- The writing half (R181, R182). -/
theorem pumpStep_write {s : State} {d : Dir} {b : Byte} (hr : s.pumpRuns d) (hp : s.phase.get d = .awaitWrite b) :
    pumpStep s d = pumpWrite s d b := by
  unfold pumpStep; rw [if_pos hr, hp]

/-! ### Runs -/

/-- A run of two lists is the run of the second from where the first ends. -/
theorem execAll_append {l1 : List Instr} (l2 : List Instr) {s t : State} (h : execAll l1 s = .next t) :
    execAll (l1 ++ l2) s = execAll l2 t := by
  induction l1 generalizing s with
  | nil => cases h; rfl
  | cons i l ih =>
    simp only [List.cons_append, execAll] at h ⊢
    cases he : exec i s with
    | next u => rw [he] at h; exact ih h
    | fault f => rw [he] at h; cases h
    | refused r => rw [he] at h; cases h

/-- The frame events of two event lists, one after the other (R39). -/
theorem frameEvents_append (d : Dir) (a b : List Event) :
    frameEvents d (a ++ b) = frameEvents d a ++ frameEvents d b := by
  simp [frameEvents]

/-- A property every step keeps: it is kept by the reset input and by every operation, and does not depend on the schedule. -/
theorem step_keeps (P : State → Prop) (hreset : ∀ s, P s → P s.applyReset)
    (hsched : ∀ s l, P s → P { s with sched := l }) (hexec : ∀ s t i, P s → exec i s = .next t → P t) {s t : State}
    (h : step s = .next t) (hp : P s) : P t := by
  rcases step_cases h with ⟨-, rfl⟩ | ⟨-, -, rfl⟩ | ⟨-, r, rest, i, -, -, he⟩
  · exact hreset _ hp
  · exact hp
  · exact hexec _ _ i (hsched _ _ hp) he

end Sys2Proof.Machine
end

