-- ==== Sys2Proof/Tests/Slice0.lean ====
section
/-! SUPPORT. Tests of the model against the spec's own vectors (spec/95_test_vectors.md; the vector's id stands in each comment),
words written out from spec/opcode_table.json, and a witness for every statement that has hypotheses. -/

namespace Sys2Proof.Tests

open Sys2Proof Sys2Proof.Machine

/-! ### Helpers -/

/-- Bytes from numbers. -/
def bs (l : List Nat) : List Byte := l.map (BitVec.ofNat 8)

/-- The last event of the next state. -/
def lastOf (r : Result) : Option Event := (nextOf r).bind fun t => t.trace.getLast?

/-- One field of the next state. -/
def fieldOf {α : Type} (f : State → α) (r : Result) : Option α := (nextOf r).map f

/-- After reset, `acc[N2M]` holding the bytes of `l`. -/
def holding (l : List Nat) : State := { State.reset with acc := ⟨bs l, []⟩ }

/-- The same under a capacity. -/
def holdingCap (n : Nat) (l : List Nat) : State :=
  { holding l with cfg := { Cfg.zero with accDepth := some n } }

/-- The state `up` leads to (spec/95_test_vectors.md part 3): relaying, both pumps running. -/
def up : State :=
  { State.reset with eng := .relaying, lsn := .bound, tcp := .opened, ser := .opened, pump := .both .running }

/-- `up` with the node's bytes and the answers of the serial write on offer. -/
def upN2m (rx : List RxOffer) (tx : List Bool) : State :=
  { up with env := { Env.quiet with rx := ⟨rx, []⟩, tx := ⟨tx, []⟩ } }

/-- `up` with the modem's bytes and the answers of the TCP write on offer. -/
def upM2n (rx : List RxOffer) (tx : List Bool) : State :=
  { up with env := { Env.quiet with rx := ⟨[], rx⟩, tx := ⟨[], tx⟩ } }

/-- A sink, and one task in flight. -/
def dispatching (t : Task) (d : List DescAnswer) : State :=
  { State.reset with
    cfg := { Cfg.zero with sinkPresent := true }, inflight := [t], env := { Env.quiet with describer := d } }

/-- The task of a frame event (R220). -/
def task (d : Dir) (f : List Nat) : Task := newTask d (bs f) false

/-! ### WellFormed refuses -/

theorem test_wf_feedData : WellFormed (.feedData .n2m 0xC0#8) = false := by decide
theorem test_wf_unescLonefesc :
    WellFormed (.unescLonefesc (some 0xDC#8)) = false ∧ WellFormed (.unescLonefesc (some 0xDD#8)) = false := by decide
theorem test_wf_unescLit : WellFormed (.unescLit 0xDB#8 none) = false := by decide
theorem test_wf_stuffLit : WellFormed (.stuffLit 0xC0#8) = false ∧ WellFormed (.stuffLit 0xDB#8) = false := by decide
theorem test_wf_rsvdf : WellFormed (.rsvdf 15#4 []) = false ∧ WellFormed (.rsvdf 14#4 []) = true := by decide
theorem test_wf_normalize : WellFormed (.normalize []) = false := by decide

/-! ### Words of spec/opcode_table.json, written out -/

theorem test_word_stream8 :
    decode { fmt := .stream8, bits := [0b11000000#8] } = .ok (.feedFend .n2m) ∧
      decode { fmt := .stream8, bits := [0b11011011#8], dir := .m2n } = .ok (.feedData .m2n 0xDB#8) := by decide
theorem test_word_unesc :
    decode { fmt := .unesc, bits := [0b11011011#8, 0b11011100#8] } = .ok .unescFend ∧
      decode { fmt := .unesc, bits := [0b11011011#8, 0b11011101#8] } = .ok .unescFesc ∧
      decode { fmt := .unesc, bits := [0b11011011#8, 0b01000001#8] } = .ok (.unescLonefesc (some 0x41#8)) ∧
      decode { fmt := .unesc, bits := [0b11011011#8] } = .ok (.unescLonefesc none) ∧
      decode { fmt := .unesc, bits := [0b11011100#8, 0b11011101#8] } = .ok (.unescLit 0xDC#8 (some 0xDD#8)) := by decide
theorem test_word_stuff8 :
    decode { fmt := .stuff8, bits := [0b11000000#8] } = .ok .stuffFend ∧
      decode { fmt := .stuff8, bits := [0b11011011#8] } = .ok .stuffFesc ∧
      decode { fmt := .stuff8, bits := [0b11011100#8] } = .ok (.stuffLit 0xDC#8) := by decide
theorem test_word_type8_commands :
    decode { fmt := .type8, bits := [0b11111111#8] } = .ok (.exitkiss []) ∧
      decode { fmt := .type8, bits := [0b11110000#8] } = .ok (.dataframe 15#4 []) ∧
      decode { fmt := .type8, bits := [0b00100001#8] } = .ok (.txdelay 2#4 []) ∧
      decode { fmt := .type8, bits := [0b01000010#8] } = .ok (.persistence 4#4 []) ∧
      decode { fmt := .type8, bits := [0b00000011#8] } = .ok (.slottime 0#4 []) ∧
      decode { fmt := .type8, bits := [0b10000100#8] } = .ok (.txtail 8#4 []) ∧
      decode { fmt := .type8, bits := [0b00010101#8] } = .ok (.fullduplex 1#4 []) ∧
      decode { fmt := .type8, bits := [0b00111100#8] } = .ok (.ackmode 3#4 []) := by decide
theorem test_word_type8_reserved :
    decode { fmt := .type8, bits := [0b00000110#8] } = .ok (.rsvd6 0#4 []) ∧
      decode { fmt := .type8, bits := [0b00010111#8] } = .ok (.rsvd7 1#4 []) ∧
      decode { fmt := .type8, bits := [0b00101000#8] } = .ok (.rsvd8 2#4 []) ∧
      decode { fmt := .type8, bits := [0b00111001#8] } = .ok (.rsvd9 3#4 []) ∧
      decode { fmt := .type8, bits := [0b01001010#8] } = .ok (.rsvda 4#4 []) ∧
      decode { fmt := .type8, bits := [0b11011011#8] } = .ok (.rsvdb 13#4 []) ∧
      decode { fmt := .type8, bits := [0b01101101#8] } = .ok (.rsvdd 6#4 []) ∧
      decode { fmt := .type8, bits := [0b01111110#8] } = .ok (.rsvde 7#4 []) ∧
      decode { fmt := .type8, bits := [0b11101111#8] } = .ok (.rsvdf 14#4 []) := by decide
theorem test_word_frame :
    decode { fmt := .frame, bits := bs [0xC0, 0x10, 0xDB, 0xDC, 0xC0] } = .ok (.frame 1#4 0#4 (bs [0xDB, 0xDC])) := by
  decide
theorem test_word_op_segmenter :
    decode { fmt := .op, sel := 0, dir := .m2n } = .ok (.drd .m2n) ∧
      decode { fmt := .op, sel := 1, seq := bs [0xC0] } = .ok (.iscomplete (bs [0xC0])) ∧
      decode { fmt := .op, sel := 2, seq := bs [0x11] } = .ok (.normalize (bs [0x11])) ∧
      decode { fmt := .op, sel := 3, dir := .m2n, byte := 0x11#8 } = .ok (.processbyte .m2n 0x11#8) ∧
      decode { fmt := .op, sel := 8, dir := .n2m, byte := 0xC0#8 } = .ok (.feed .n2m 0xC0#8) := by decide
theorem test_word_op_codec :
    decode { fmt := .op, sel := 4, seq := bs [0xC0] } = .ok (.decode (bs [0xC0])) ∧
      decode { fmt := .op, sel := 5, seq := [] } = .ok (.unescape []) ∧
      decode { fmt := .op, sel := 6, seq := bs [0x41], portIn := 16, cmd := 5#4 } = .ok (.encode (bs [0x41]) 16 5#4) ∧
      decode { fmt := .op, sel := 7, byte := 0xDB#8 } = .ok (.stuff 0xDB#8) := by decide
theorem test_word_op_agents :
    [9, 10, 11, 12, 13, 14, 15, 16].map (fun k => decode { fmt := .op, sel := k }) =
      [.ok .pumpN2m, .ok .pumpM2n, .ok .engBind, .ok .engAccept, .ok .engOpen, .ok .engJoin, .ok .engTeardown,
        .ok .engFatal] ∧ decode { fmt := .op, sel := 17, task := 2 } = .ok (.dispatch 2) := by decide
theorem test_word_rejected :
    decode { fmt := .stream8, bits := [] } = .error (.badLength .stream8) ∧
      decode { fmt := .unesc, bits := bs [1, 2, 3] } = .error (.badLength .unesc) ∧
      decode { fmt := .stuff8, bits := bs [1, 2] } = .error (.badLength .stuff8) ∧
      decode { fmt := .type8, bits := [] } = .error (.badLength .type8) ∧
      decode { fmt := .frame, bits := bs [0xC0, 0xC0] } = .error .notAFrame ∧
      decode { fmt := .op, sel := 18 } = .error (.noSuchOperation 18) ∧
      decode { fmt := .op, sel := 2, seq := [] } = .error .emptyOperand := by decide
theorem test_decodeTableWord :
    decodeTableWord 8 0xC0 = some (.feedFend .n2m) ∧ decodeTableWord 8 0xDB = some .stuffFesc ∧
      decodeTableWord 8 0x31 = some (.txdelay 3#4 []) ∧ decodeTableWord 16 0xDBDC = some .unescFend ∧
      decodeTableWord 16 0xC010 = some (.frame 1#4 0#4 []) ∧ decodeTableWord 0 0 = some (.drd .n2m) := by decide
theorem test_withFetchWord :
    fieldOf (fun t => t.acc.n2m) (step (State.reset.withFetchWord 8 0xC0)) = some (bs [0xC0]) := by decide
theorem test_step_undecodable :
    (match step { State.reset with sched := [{ fmt := .op, sel := 18 }] } with
      | .fault f => some f | _ => none) = some (.undecodable (.noSuchOperation 18)) := by decide
theorem test_step_reset_input :
    fieldOf (fun t => (t.eng, t.acc.n2m, t.trace))
      (step { holding [0xC0, 0x11] with eng := .dead, env := { Env.quiet with resetIn := true } }) =
      some (.idle, [], [.reset]) := by decide

/-! ### The segmenter -/

/-- V-S1d, V-S1e. -/
theorem test_drd :
    fieldOf (fun t => t.acc.n2m) (exec (.drd .n2m) (holding [0xC0, 0xC0])) = some (bs [0xC0]) ∧
      fieldOf (fun t => t.acc.n2m) (exec (.drd .n2m) (holding [0xC0, 0xC0, 0xC0])) = some (bs [0xC0, 0xC0]) := by decide
/-- V-S1b, V-S1g. -/
theorem test_drd_keeps :
    fieldOf (fun t => t.acc.n2m) (exec (.drd .n2m) (holding [0xC0])) = some (bs [0xC0]) ∧
      fieldOf (fun t => t.acc.n2m) (exec (.drd .n2m) (holding [0xC0, 0x11, 0xC0])) = some (bs [0xC0, 0x11, 0xC0]) := by
  decide
/-- V-S2c, V-S2e to V-S2h. -/
theorem test_iscomplete :
    [[0xC0, 0xC0], [0xC0, 0x11, 0xC0], [0xC0, 0xC0, 0xC0], [0x11, 0x12, 0xC0], [0xC0, 0x11, 0x12]].map
        (fun q => lastOf (exec (.iscomplete (bs q)) State.reset)) =
      [false, true, true, false, false].map fun r => some (.codec (.isComplete r)) := by decide
/-- V-S3b, V-S3d. -/
theorem test_normalize :
    lastOf (exec (.normalize (bs [0x12, 0x13, 0xC0])) State.reset) =
        some (.codec (.normalized (bs [0xC0, 0x12, 0x13, 0xC0]) true)) ∧
      lastOf (exec (.normalize (bs [0xC0])) State.reset) = some (.codec (.normalized (bs [0xC0]) false)) := by decide
/-- V-S13, without the DRD of FEED. -/
theorem test_processbyte :
    lastOf (exec (.processbyte .n2m 0xC0#8) (holding [0xC0, 0xC0])) =
      some (.codec (.processed .n2m (some (bs [0xC0, 0xC0, 0xC0], false)))) := by decide
/-- V-S8. -/
theorem test_processbyte_norm :
    lastOf (exec (.processbyte .n2m 0xC0#8) (holding [0x11])) =
      some (.codec (.processed .n2m (some (bs [0xC0, 0x11, 0xC0], true)))) := by decide
/-- V-S13, with the DRD of FEED. -/
theorem test_feed :
    fieldOf (fun t => t.acc.n2m) (exec (.feed .n2m 0xC0#8) (holding [0xC0, 0xC0])) = some (bs [0xC0]) ∧
      lastOf (exec (.feed .n2m 0xC0#8) (holding [0xC0, 0xC0])) = some (.codec (.fed .n2m none)) := by decide
/-- V-S15: the closing FEND overflows a full accumulator too. -/
theorem test_feed_overflow :
    fieldOf (fun t => (t.acc.n2m, t.ovf.n2m)) (exec (.feed .n2m 0xC0#8) (holdingCap 4 [0xC0, 1, 2, 3])) =
        some (bs [0xC0, 1, 2, 3], true) ∧
      lastOf (exec (.feed .n2m 0xC0#8) (holdingCap 4 [1, 2, 3])) =
        some (.codec (.fed .n2m (some (bs [0xC0, 1, 2, 3, 0xC0], true)))) := by decide
/-- X4: the minimal frame. -/
theorem test_feedFend :
    fieldOf (fun t => (t.acc.n2m, frameEvents .n2m t.trace)) (exec (.feedFend .n2m) (holding [0xC0, 0x11])) =
      some ([], [(bs [0xC0, 0x11, 0xC0], false)]) := by decide
/-- X3, V-S16: the discard comes before the overflow. -/
theorem test_feedFend_discard :
    fieldOf (fun t => (t.acc.n2m, t.ovf.n2m)) (exec (.feedFend .n2m) (holdingCap 1 [0xC0])) =
      some (bs [0xC0], false) := by decide
/-- V-S5, V-F1: a FESC is a byte like any other to the segmenter; the other direction is not touched. -/
theorem test_feedData :
    fieldOf (fun t => t.acc) (exec (.feedData .m2n 0xDB#8) (holding [0xC0, 0x11])) =
      some ⟨bs [0xC0, 0x11], bs [0xDB]⟩ := by decide

/-- R26, D29: in Dead nothing is enabled, be a completed frame at hand. -/
theorem test_feed_dead :
    let s : State := { holding [0xC0, 0x11] with eng := .dead, cfg := { Cfg.zero with sinkPresent := true } }
    [Instr.feed .n2m 0xC0#8, .feedFend .n2m, .processbyte .n2m 0x12#8, .drd .n2m].map (fun i => nextOf (exec i s)) =
      [some s, some s, some s, some s] := by decide

/-! ### The codec -/

/-- V-D1, V-D9. -/
theorem test_decode :
    lastOf (exec (.decode (bs [0xC0, 0, 0x41, 0x42, 0xC0])) State.reset) =
        some (.codec (.dec (.ok (bs [0x41, 0x42]) 0#4 0#4 .dataFrame))) ∧
      lastOf (exec (.decode (bs [0xC0, 1, 1, 2, 0xC0])) State.reset) =
        some (.codec (.dec (.invalidFrame .fixedLen))) := by decide
/-- V-D5, V-D7, V-D8, V-D15 and the order of checks of R139. -/
theorem test_decode_failures :
    [[0xC0, 0xC0], [0x11], [0x11, 0xC0, 0xC0], [0x11, 1, 2], [0xC0, 0, 0x41], [0xC0, 1, 1, 2], [0xC0, 0xFF, 0, 0xC0]].map
        (fun f => lastOf (exec (.decode (bs f)) State.reset)) =
      [FrameReason.tooShort, .tooShort, .noLeadingFend, .noLeadingFend, .noTrailingFend, .noTrailingFend, .exitPayload].map
        fun r => some (.codec (.dec (.invalidFrame r))) := by decide
/-- V-U1, V-U7, V-U10. -/
theorem test_unescape :
    lastOf (exec (.unescape (bs [0x41, 0xDB, 0xDC, 0x42, 0xDB, 0xDD, 0x43])) State.reset) =
        some (.codec (.unescaped (bs [0x41, 0xC0, 0x42, 0xDB, 0x43]))) ∧
      unescapeSeq (bs [0xDB, 0xDB, 0xDC]) = bs [0xDB, 0xC0] ∧ unescapeSeq (bs [0xDB, 0xDD, 0xDC]) = bs [0xDB, 0xDC] := by
  decide
/-- V-U16, V-U14: the one-bit machine. -/
theorem test_escRun :
    escRun false (bs [0x41, 0xDB]) = bs [0x41, 0xDB] ∧ escRun false (bs [0xDB, 0xDB, 0xDC]) = bs [0xDB, 0xC0] := by decide
/-- V-E1, V-E11. -/
theorem test_encode :
    lastOf (exec (.encode (bs [0x41, 0xC0, 0x42, 0xDB, 0x43]) 0 0#4) State.reset) =
        some (.codec (.enc (.ok (bs [0xC0, 0, 0x41, 0xDB, 0xDC, 0x42, 0xDB, 0xDD, 0x43, 0xC0])))) ∧
      lastOf (exec (.encode (bs [1, 2]) 16 0#4) State.reset) = some (.codec (.enc .invalidArgument)) := by decide
/-- V-E9, V-E10: a type byte equal to FESC or to FEND is not stuffed. -/
theorem test_encode_type_byte :
    encodeFrame (bs [0x55]) 13 0xB#4 = .ok (bs [0xC0, 0xDB, 0x55, 0xC0]) ∧
      encodeFrame (bs [1, 2]) 12 0#4 = .ok (bs [0xC0, 0xC0, 1, 2, 0xC0]) := by decide
/-- The six values of STUFF under 2.3. -/
theorem test_stuff :
    lastOf (exec (.stuff 0xDB#8) State.reset) = some (.codec (.stuffed (bs [0xDB, 0xDD]))) ∧
      [0xC0, 0xDC, 0xDD, 0x00, 0xFF].map (fun b => stuffByte (BitVec.ofNat 8 b)) =
        [bs [0xDB, 0xDC], bs [0xDC], bs [0xDD], bs [0], bs [0xFF]] := by decide
/-- R89: the four cases of the scan. -/
theorem test_unesc_rows :
    [Instr.unescFend, .unescFesc, .unescLonefesc none, .unescLit 0xDC#8 (some 0xDD#8)].map
        (fun i => lastOf (exec i State.reset)) =
      [(0xC0, 2), (0xDB, 2), (0xDB, 1), (0xDC, 1)].map fun x => some (.codec (.scanned (bs [x.1]) x.2)) := by decide
/-- R88: the three cases of the stuffing. -/
theorem test_stuff_rows :
    [Instr.stuffFend, .stuffFesc, .stuffLit 0x41#8].map (fun i => lastOf (exec i State.reset)) =
      [bs [0xDB, 0xDC], bs [0xDB, 0xDD], bs [0x41]].map fun q => some (.codec (.stuffed q)) := by decide
/-- The values of KIND under 2.2. -/
theorem test_kind :
    [(0, 0), (7, 1), (0, 2), (0, 3), (0, 4), (0, 5), (3, 12), (15, 15), (14, 15), (15, 0), (0, 6), (0, 13)].map
        (fun x : Nat × Nat => kindOf (BitVec.ofNat 4 x.1) (BitVec.ofNat 4 x.2)) =
      [.dataFrame, .txDelay, .persistence, .slotTime, .txTail, .fullDuplex, .ackMode, .exitKissMode, .unknown 15#4,
        .dataFrame, .unknown 6#4, .unknown 13#4] := by decide
/-- V-D2, V-D12, V-D14, V-D20 by the row of the type byte. -/
theorem test_type_rows :
    lastOf (exec (.dataframe 0#4 []) State.reset) = some (.codec (.dec (.ok [] 0#4 0#4 .dataFrame))) ∧
      lastOf (exec (.txdelay 15#4 (bs [7])) State.reset) = some (.codec (.dec (.ok (bs [7]) 15#4 1#4 .txDelay))) ∧
      lastOf (exec (.exitkiss []) State.reset) = some (.codec (.dec (.ok [] 15#4 15#4 .exitKissMode))) ∧
      lastOf (exec (.ackmode 0#4 (bs [0, 1, 0xAA])) State.reset) =
        some (.codec (.dec (.ok (bs [0, 1, 0xAA]) 0#4 12#4 .ackMode))) := by decide
/-- V-D27, V-D33, V-D16, V-D17 by the row of the type byte. -/
theorem test_type_rows_length :
    lastOf (exec (.txdelay 1#4 []) State.reset) = some (.codec (.dec (.invalidFrame .fixedLen))) ∧
      lastOf (exec (.persistence 4#4 []) State.reset) = some (.codec (.dec (.invalidFrame .fixedLen))) ∧
      lastOf (exec (.exitkiss (bs [0xDB])) State.reset) = some (.codec (.dec (.invalidFrame .exitPayload))) ∧
      lastOf (exec (.rsvdf 1#4 (bs [0x55])) State.reset) =
        some (.codec (.dec (.ok (bs [0x55]) 1#4 15#4 (.unknown 15#4)))) := by decide
/-- R84, R86: each of the rows the tests above leave out answers with its own code and kind. -/
theorem test_type_rows_codes :
    [Instr.slottime 2#4 (bs [9]), .txtail 2#4 (bs [9]), .fullduplex 2#4 (bs [9]), .rsvd6 2#4 (bs [9]), .rsvd7 2#4 (bs [9]),
        .rsvd8 2#4 (bs [9]), .rsvd9 2#4 (bs [9]), .rsvda 2#4 (bs [9]), .rsvdb 2#4 (bs [9]), .rsvdd 2#4 (bs [9]),
        .rsvde 2#4 (bs [9])].map (fun i => lastOf (exec i State.reset)) =
      [(3#4, Kind.slotTime), (4#4, .txTail), (5#4, .fullDuplex), (6#4, .unknown 6#4), (7#4, .unknown 7#4),
        (8#4, .unknown 8#4), (9#4, .unknown 9#4), (10#4, .unknown 10#4), (11#4, .unknown 11#4), (13#4, .unknown 13#4),
        (14#4, .unknown 14#4)].map fun x => some (.codec (.dec (.ok (bs [9]) 2#4 x.1 x.2))) := by decide
/-- V-D21, V-D24. -/
theorem test_frame :
    lastOf (exec (.frame 0#4 5#4 (bs [0xDB, 0xDD])) State.reset) =
        some (.codec (.dec (.ok (bs [0xDB]) 0#4 5#4 .fullDuplex))) ∧
      lastOf (exec (.frame 0#4 0#4 (bs [0xDB, 0x41])) State.reset) =
        some (.codec (.dec (.ok (bs [0xDB, 0x41]) 0#4 0#4 .dataFrame))) := by decide

/-! ### The relay -/

/-- P1 step 4. -/
theorem test_pumpN2m :
    fieldOf (fun t => (t.acc.n2m, t.phase.n2m)) (exec .pumpN2m (upN2m [.byte 0xC0#8] [])) =
      some (bs [0xC0], .awaitWrite 0xC0#8) := by decide
/-- V-R3: the write fails. -/
theorem test_pumpN2m_fail :
    fieldOf (fun t => (t.ser, t.tcp, t.pump, t.phase.n2m))
        (exec .pumpN2m { upN2m [] [false] with phase := ⟨.awaitWrite 0x11#8, .awaitRead⟩ }) =
      some (.closed, .opened, ⟨.stopped, .running⟩, .awaitRead) := by decide
/-- V-R8: a write answered after the other pump has stopped. -/
theorem test_pumpM2n :
    fieldOf (fun t => (writtenBytes .m2n t.trace, t.phase.m2n))
        (exec .pumpM2n { upM2n [] [true] with phase := ⟨.awaitRead, .awaitWrite 0x41#8⟩, pump := ⟨.stopped, .running⟩ }) =
      some (bs [0x41], .awaitRead) := by decide
/-- V-R4: the modem fails first. -/
theorem test_pumpM2n_fail :
    fieldOf (fun t => (t.tcp, t.ser, t.pump, t.trace)) (exec .pumpM2n (upM2n [.fail] [])) =
      some (.closed, .opened, ⟨.running, .stopped⟩, [.rxFail .m2n, .tcpClose, .log [] .serialRead none]) := by decide
/-- V-R1. -/
theorem test_engBind :
    fieldOf (fun t => (t.eng, t.lsn)) (exec .engBind { State.reset with env := { Env.quiet with bind := [false] } }) =
        some (.dead, .unbound) ∧
      fieldOf (fun t => (t.eng, t.lsn)) (exec .engBind { State.reset with env := { Env.quiet with bind := [true] } }) =
        some (.listening, .bound) := by decide
/-- P3 step 14, V-R9: `Accepted` is not consumed outside Listening. -/
theorem test_engAccept :
    fieldOf (fun t => (t.eng, t.tcp, t.env.accepted))
        (exec .engAccept { State.reset with eng := .listening, env := { Env.quiet with accepted := 1 } }) =
        some (.connected, .opened, 0) ∧
      fieldOf (fun t => (t.eng, t.env.accepted)) (exec .engAccept { up with env := { Env.quiet with accepted := 1 } }) =
        some (.relaying, 1) := by decide
/-- V-R2: an open failure brings the engine back to Listening. -/
theorem test_engOpen :
    fieldOf (fun t => (t.eng, t.tcp, t.trace))
        (exec .engOpen
          { State.reset with eng := .connected, tcp := .opened, env := { Env.quiet with serOpen := [false] } }) =
      some (.listening, .closed, [.serOpen [] 0 false, .log [] .serialOpenFail none, .tcpClose]) := by decide
/-- V-R10: the join waits for both pumps. -/
theorem test_engJoin :
    fieldOf (fun t => t.eng) (exec .engJoin { up with pump := ⟨.stopped, .running⟩ }) = some .relaying ∧
      fieldOf (fun t => t.eng) (exec .engJoin { up with pump := ⟨.stopped, .stopped⟩ }) = some .tornDown := by decide
/-- P3 step 13, both values of FLUSH_ON_TEARDOWN. -/
theorem test_engTeardown :
    fieldOf (fun t => (t.eng, t.acc.n2m)) (exec .engTeardown { holding [0xC0, 0, 0x41] with eng := .tornDown }) =
        some (.listening, bs [0xC0, 0, 0x41]) ∧
      fieldOf (fun t => (t.eng, t.acc.n2m))
        (exec .engTeardown
          { holding [0xC0, 0, 0x41] with eng := .tornDown, cfg := { Cfg.zero with flushOnTeardown := true } }) =
        some (.listening, []) := by decide
/-- V-R6. -/
theorem test_engFatal :
    fieldOf (fun t => (t.eng, t.pump, t.tcp, t.ser, t.lsn))
        (exec .engFatal { up with env := { Env.quiet with unexpected := 1 } }) =
      some (.dead, ⟨.running, .running⟩, .opened, .opened, .bound) := by decide

/-! ### The dispatcher -/

/-- V-P5: the decode failure of the minimal frame, with its direction. -/
theorem test_dispatch_decode :
    fieldOf (fun t => (t.trace, t.inflight.map Task.stage))
        (exec (.dispatch 0) (dispatching { task .m2n [0xC0, 0x11, 0xC0] with stage := .decode } [])) =
      some ([.log [] (.invalidFrame .fixedLen) (some .m2n)], [.done]) := by decide
/-- V-P4: no description. -/
theorem test_dispatch_describe :
    fieldOf (fun t => t.trace)
        (exec (.dispatch 0) (dispatching { task .n2m [0xC0, 0, 0x41, 0xC0] with
          stage := .describe, payload := bs [0x41] } [.noText])) =
      some [.obs [] false (.descReq .n2m 0#4 (bs [0x41]) .noText), .log [] .externalTool (some .n2m)] := by decide
/-- R228: with no answer stated the describer's answer comes all the same, and the task is done. -/
theorem test_dispatch_describe_free :
    fieldOf (fun t => (t.inflight.map Task.stage, t.freeDescriber))
        (exec (.dispatch 0) (dispatching { task .n2m [0xC0, 0, 0x41, 0xC0] with stage := .describe } [])) =
      some ([.done], 1) := by
  simp [exec, execDispatch, dispatching, dispatchDescribe, State.takeDescription, fieldOf, nextOf, Env.quiet, State.reset,
    State.resetWith]

/-- V-P1, V-P2, V-P3: the three hand-offs of a frame. -/
theorem test_handOff :
    fieldOf (fun t => t.inflight) (exec (.feed .n2m 0xC0#8) (holding [0xC0, 0x41])) = some [] ∧
      fieldOf (fun t => (t.inflight.length, t.trace.contains (.log [] .handoffFail none)))
        (exec (.feed .n2m 0xC0#8) { holding [0xC0, 0x41] with
          cfg := { Cfg.zero with sinkPresent := true }, env := { Env.quiet with handoff := [false] } }) = some (0, true) ∧
      fieldOf (fun t => t.inflight)
        (exec (.feed .n2m 0xC0#8) { holding [0xC0, 0x41] with
          cfg := { Cfg.zero with sinkPresent := true }, env := { Env.quiet with handoff := [true] } }) =
        some [task .n2m [0xC0, 0x41, 0xC0]] := by decide

/-! ### Witnesses: the hypotheses of each statement that has some, met together; one per clause, at boundary values -/

theorem wit_DecodeOfEncode :
    WellFormed (.rsvdf 14#4 []) = true ∧ WellFormed (.unescLonefesc none) = true ∧
      decode { fmt := .unesc, bits := bs [0xDB] } = .ok (.unescLonefesc none) := by decide

theorem wit_DecoderTakesFirstFittingRow :
    (∃ b : Byte, ({ fmt := .type8, bits := bs [0xFF] } : Request).bits = [b] ∧ 0xFF = b.toNat) ∧
      (∃ b n : Byte, ({ fmt := .unesc, bits := bs [0xDB, 0xDC] } : Request).bits = [b, n] ∧
        0xDBDC = b.toNat * 256 + n.toNat) ∧
      ∃ (t : Byte) (body : List Byte), ({ fmt := .frame, bits := bs [0xC0, 0xC0, 0xC0] } : Request).bits =
        [FEND, t] ++ body ++ [FEND] ∧ 0xC0C0 = 0xC0 * 256 + t.toNat :=
  ⟨⟨0xFF#8, by decide⟩, ⟨0xDB#8, 0xDC#8, by decide⟩, ⟨0xC0#8, [], by decide⟩⟩

theorem wit_StepRunsDecodedRequest :
    let s : State := { State.reset with sched := [opRequest 11] }
    s.env.resetIn = false ∧ s.sched = opRequest 11 :: [] ∧ decode (opRequest 11) = .ok .engBind := by decide

theorem wit_StepWithoutOperation_empty : State.reset.env.resetIn = false ∧ State.reset.sched = [] := by decide
theorem wit_StepWithoutOperation_error :
    let s : State := { State.reset with sched := [opRequest 18] }
    s.env.resetIn = false ∧ s.sched = opRequest 18 :: [] ∧ decode (opRequest 18) = .error (.noSuchOperation 18) := by decide
theorem wit_StepWithoutOperation_word : decodeTableWord 16 0xDBDD = some .unescFesc := by decide

theorem wit_ResetPutsEveryElement : ({ up with env := { Env.quiet with resetIn := true } } : State).env.resetIn = true := rfl

theorem wit_DrdRemovesOneRepeatedFend :
    ((holding [0xC0, 0xC0]).openTo .n2m ∧ (holding [0xC0, 0xC0]).acc.get .n2m = [] ++ [FEND, FEND]) ∧
      (holding [0xC0]).openTo .n2m ∧ ∀ w, (holding [0xC0]).acc.get .n2m ≠ w ++ [FEND, FEND] := by
  refine ⟨by decide, by decide, fun w h => ?_⟩
  have := congrArg List.length h
  simp [holding, PerDir.get, bs] at this

theorem wit_IsCompleteAndNormalizeAnswer : (0x12#8 : Byte) ≠ FEND := by decide

theorem wit_ProcessByteCases :
    (0x11#8 : Byte) ≠ FEND ∧ (0xDB#8 : Byte) ≠ FEND ∧ (∀ b ∈ bs [0x12, 0xFF], b ≠ FEND) ∧
      ∀ acc ∈ [[], [0xC0], [0xC0, 0x11, 0x12, 0xFF], [0x11, 0x12, 0xFF]],
        let s := holdingCap 5 acc
        s.openTo .n2m ∧ s.ovf.get .n2m = false ∧ s.cfg.accDepth ≠ some (s.acc.get .n2m).length ∧
          s.acc.get .n2m = bs acc := by decide

theorem wit_FeedCollects :
    let s := holdingCap 1 []
    s.openTo .n2m ∧ s.ovf.get .n2m = false ∧ AccClean s .n2m ∧ s.cfg.accDepth ≠ some (s.acc.get .n2m).length ∧
      (0xDB#8 ≠ FEND ∧ FeedsByte (.feedData .n2m 0xDB#8) .n2m 0xDB#8) ∧
      s.acc.get .n2m = [] ∧ FeedsByte (.feedFend .n2m) .n2m FEND :=
  ⟨by decide, by decide, accClean_of_tail (by decide), by decide, ⟨by decide, .inr (.inr ⟨by decide, rfl⟩)⟩, by decide,
    .inr (.inl ⟨rfl, rfl⟩)⟩

theorem wit_FeedClosesFrame :
    (0x11#8 : Byte) ≠ FEND ∧ (∀ b ∈ bs [0xDB], b ≠ FEND) ∧ FeedsByte (.feed .n2m FEND) .n2m FEND ∧
      ∀ acc ∈ [[0xC0, 0x11, 0xDB], [0x11, 0xDB]],
        let s := holdingCap 4 acc
        s.openTo .n2m ∧ s.ovf.get .n2m = false ∧ s.cfg.accDepth ≠ some (s.acc.get .n2m).length ∧
          s.acc.get .n2m = bs acc :=
  ⟨by decide, by decide, .inl rfl, by decide⟩

theorem wit_FullAccumulatorOverflows_full :
    let s := holdingCap 4 [0xC0, 1, 2, 3]
    s.openTo .n2m ∧ s.cfg.accDepth = some (s.acc.get .n2m).length ∧ ¬ (FEND = FEND ∧ s.acc.get .n2m = [FEND]) ∧
      FeedsByte (.feedFend .n2m) .n2m FEND ∧ AccClean s .n2m :=
  ⟨by decide, by decide, by decide, .inr (.inl ⟨rfl, rfl⟩), accClean_of_tail (by decide)⟩
theorem wit_FullAccumulatorOverflows_discard :
    let s := holdingCap 1 [0xC0]
    s.openTo .n2m ∧ s.ovf.get .n2m = false ∧ s.acc.get .n2m = [FEND] ∧ FeedsByte (.feed .n2m FEND) .n2m FEND :=
  ⟨by decide, by decide, by decide, .inl rfl⟩
theorem wit_FullAccumulatorOverflows_sticky :
    let s : State := { up with ovf := ⟨true, true⟩, eng := .tornDown }
    s.ovf.get .m2n = true ∧ ∃ t, exec .engTeardown s = .next t := ⟨by decide, _, rfl⟩

theorem wit_FeedTouchesItsOwnDirectionOnly :
    let s : State := { holding [0x11] with ovf := ⟨true, false⟩ }
    ¬ s.pumpRuns .n2m ∧ FeedsByte (.feedData .n2m 0x11#8) .n2m 0x11#8 ∧ s.ovf.get .n2m = true :=
  ⟨by decide, .inr (.inr ⟨by decide, rfl⟩), by decide⟩

theorem wit_FeedsOfTwoDirectionsCommute :
    ¬ State.reset.pumpRuns .n2m ∧ ¬ State.reset.pumpRuns (Dir.other .n2m) := by decide

theorem wit_FormsWithoutMeaningAreRefused :
    up.pumpRuns .m2n ∧ FeedsByte (.feedFend .m2n) .m2n FEND ∧ FeedsByte (.feed .m2n 0x11#8) .m2n 0x11#8 :=
  ⟨by decide, .inr (.inl ⟨rfl, rfl⟩), .inl rfl⟩

theorem wit_FeedEqualsProcessByte : AccClean (holding [0xC0, 0x11]) .n2m ∧ (holding [0xC0, 0x11]).openTo .n2m :=
  ⟨accClean_of_tail (by decide), by decide⟩

theorem wit_FeedCutsStreamAtFend :
    let s := holding []
    s.openTo .n2m ∧ s.cfg.accDepth = none ∧ s.ovf.get .n2m = false ∧ s.acc.get .n2m = [] := by decide

/-- X8 through the reference functions: the runs of KP's end-to-end stream are its two frames. -/
theorem test_runs :
    framesOfRuns false (runsOf (bs [0xC0, 0xC0, 0x11, 0xC0, 0xC0, 0xC0, 0x12, 0xC0])) =
      [(bs [0xC0, 0x11, 0xC0], false), (bs [0xC0, 0x12, 0xC0], false)] := by decide

theorem wit_ScanAndStuffRowsAnswer :
    (some 0x41#8 : Option Byte) ≠ some 0xDC#8 ∧ (some 0x41#8 : Option Byte) ≠ some 0xDD#8 ∧ (0xDC#8 : Byte) ≠ 0xDB#8 ∧
      (0xDC#8 : Byte) ≠ 0xC0#8 := by decide

theorem wit_TypeRowsAnswer : (bs [0]).length = 1 ∧ (bs []).length ≠ 1 ∧ (bs [1, 2]).length ≠ 1 ∧ bs [0] ≠ [] := by decide

theorem wit_DecodeChecksInOrder :
    (bs [0xC0, 0xC0]).length < 3 ∧
      (3 ≤ (bs [0x11, 0xC0, 0xC0]).length ∧ (bs [0x11, 0xC0, 0xC0]).head? ≠ some FEND) ∧
      (3 ≤ (bs [0xC0, 0, 0x41]).length ∧ (bs [0xC0, 0, 0x41]).head? = some FEND ∧
        (bs [0xC0, 0, 0x41]).getLast? ≠ some FEND) ∧
      (1 ≤ (cmdOf 0x01#8).toNat ∧ (cmdOf 0x05#8).toNat ≤ 5 ∧ (unescapeSeq (bs [0xDB, 0x41])).length ≠ 1) ∧
      (unescapeSeq (bs [0]) ≠ []) ∧
      ((1 ≤ (cmdOf 0x21#8).toNat → (cmdOf 0x21#8).toNat ≤ 5 → (unescapeSeq (bs [0xDB, 0xDC])).length = 1) ∧
        ((0x21#8 : Byte) = 0xFF#8 → unescapeSeq (bs [0xDB, 0xDC]) = [])) := by decide

theorem wit_EncodeAnswers : 15 < 16 ∧ 15 ≤ 15 ∧ (0xDC#8 : Byte) ≠ 0xC0#8 ∧ (0xDC#8 : Byte) ≠ 0xDB#8 := by decide

theorem wit_DecodeInvertsEncode :
    ValidTriple (bs [0xC0]) 2#4 1#4 ∧ ValidTriple [] 15#4 15#4 ∧ ValidTriple (bs [1, 2]) 12#4 0#4 := by
  simp [ValidTriple, bs]

theorem wit_EncodeInvertsDecodeOnCanonicalFrames :
    decodeFrame (bs [0xC0, 0, 0xDB, 0x41, 0xC0]) = .ok (bs [0xDB, 0x41]) 0#4 0#4 .dataFrame ∧
      decodeFrame (bs [0xC0, 0, 0xDB, 0xDD, 0xC0]) = .ok (bs [0xDB]) 0#4 0#4 .dataFrame := by decide

theorem wit_CodecLengths :
    decodeFrame (bs [0xC0, 0xD0, 0xDC, 0xDD, 0xC0]) = .ok (bs [0xDC, 0xDD]) 13#4 0#4 .dataFrame ∧
      encodeFrame (bs [0xC0, 0xDB]) 15 0#4 = .ok (bs [0xC0, 0xF0, 0xDB, 0xDC, 0xDB, 0xDD, 0xC0]) := by decide

theorem wit_EncodedBodyIsEscaped :
    encodeFrame (bs [0xC0, 0xDB]) 15 0#4 = .ok (bs [0xC0, 0xF0, 0xDB, 0xDC, 0xDB, 0xDD, 0xC0]) ∧ 2 ≤ 4 ∧
      4 + 2 ≤ (bs [0xC0, 0xF0, 0xDB, 0xDC, 0xDB, 0xDD, 0xC0]).length ∧
      (bs [0xC0, 0xF0, 0xDB, 0xDC, 0xDB, 0xDD, 0xC0])[4]? = some FESC := by decide

theorem wit_EncodeIsInjective :
    15 ≤ 15 ∧ encodeFrame [] 15 0xF#4 = .ok (bs [0xC0, 0xFF, 0xC0]) := by decide

theorem wit_EncodedFrameComesOutOfAssembler :
    (∀ acc ∈ [[], [0xC0]], let s := holding acc;
      s.openTo .n2m ∧ s.cfg.accDepth = none ∧ s.ovf.get .n2m = false ∧
        (s.acc.get .n2m = [] ∨ s.acc.get .n2m = [FEND])) ∧
      encodeFrame (bs [0x55]) (13#4 : Nibble).toNat 0xB#4 = .ok (bs [0xC0, 0xDB, 0x55, 0xC0]) ∧
      packType 13#4 0xB#4 ≠ FEND ∧ ValidTriple (bs [0x55]) 13#4 0xB#4 :=
  ⟨by decide, by decide, by decide, by simp [ValidTriple]⟩

theorem wit_TypeByteFendIsSwallowed :
    encodeFrame (bs [1, 2]) 12 0#4 = .ok (bs [0xC0, 0xC0, 1, 2, 0xC0]) ∧ bs [1, 2] ≠ [] ∧
      encodeFrame [] 12 0#4 = .ok (bs [0xC0, 0xC0, 0xC0]) := by decide

theorem wit_PumpReadsByte :
    (∀ acc ∈ [[], [0xC0], [0xC0, 0x11], [0x11]], ∀ b ∈ [FEND, 0x11#8],
      let s : State := { upN2m [.byte b] [] with acc := ⟨bs acc, []⟩ }
      s.pumpRuns .n2m ∧ s.phase.get .n2m = .awaitRead ∧ s.env.rx.get .n2m = .byte b :: [] ∧ s.ovf.get .n2m = false ∧
        (∀ x ∈ (s.acc.get .n2m).tail, x ≠ FEND) ∧ s.cfg.accDepth ≠ some (s.acc.get .n2m).length) := by decide

theorem wit_PumpHoldsAndWritesEveryByte :
    (let s := upN2m [.byte 0x11#8] [];
      s.pumpRuns .n2m ∧ s.phase.get .n2m = .awaitRead ∧ s.env.rx.get .n2m = .byte 0x11#8 :: []) ∧
      let s : State := { upM2n [] [true] with phase := ⟨.awaitRead, .awaitWrite 0xC0#8⟩ }
      s.pumpRuns .m2n ∧ s.phase.get .m2n = .awaitWrite 0xC0#8 ∧ s.env.tx.get .m2n = true :: [] := by decide

theorem wit_PumpFailureClosesItsSink_n2m :
    ((upN2m [.fail] []).pumpRuns .n2m ∧ (upN2m [.fail] []).phase.n2m = .awaitRead ∧
        (upN2m [.fail] []).env.rx.n2m = .fail :: []) ∧
      let s : State := { upN2m [] [false] with phase := ⟨.awaitWrite 0x11#8, .awaitRead⟩ }
      s.pumpRuns .n2m ∧ s.phase.n2m = .awaitWrite 0x11#8 ∧ s.env.tx.n2m = false :: [] := by decide
theorem wit_PumpFailureClosesItsSink_m2n :
    ((upM2n [.fail] []).pumpRuns .m2n ∧ (upM2n [.fail] []).phase.m2n = .awaitRead ∧
        (upM2n [.fail] []).env.rx.m2n = .fail :: []) ∧
      let s : State := { upM2n [] [false] with phase := ⟨.awaitRead, .awaitWrite 0x11#8⟩ }
      s.pumpRuns .m2n ∧ s.phase.m2n = .awaitWrite 0x11#8 ∧ s.env.tx.m2n = false :: [] := by decide

theorem wit_PumpOwnsItsDirectionOnly : ∃ t, exec (pumpOf .n2m) (upN2m [.fail] []) = .next t ∧ t ≠ upN2m [.fail] [] :=
  ⟨_, rfl, by decide⟩

theorem wit_StoppedPumpStaysStopped :
    let s : State := { State.reset with eng := .connected, env := { Env.quiet with serOpen := [true] } }
    s.pump.get .n2m = .stopped ∧ ∃ t, exec .engOpen s = .next t ∧ t.pump.get .n2m = .running :=
  ⟨by decide, _, rfl, by decide⟩

theorem wit_RelayIsTransparent :
    let s : State := { upN2m [] [true] with
      phase := ⟨.awaitWrite 0x11#8, .awaitRead⟩, sched := [opRequest 9],
      trace := [.serOpen [] 0 true, .rxByte .n2m 0x11#8] }
    TransparentInv s ∧ ∃ t, step s = .next t ∧ t.phase.n2m = .awaitRead :=
  ⟨by intro d; cases d <;> decide, _, rfl, by decide⟩

theorem wit_PumpForwardsStreamAndObservesFrames :
    let s := upN2m ((bs [0xC0, 0x11, 0xC0]).map .byte ++ [.fail]) (List.replicate 3 true ++ [false])
    s.pumpRuns .n2m ∧ s.phase.get .n2m = .awaitRead ∧ s.cfg.accDepth = none ∧ s.ovf.get .n2m = false ∧
      s.env.rx.get .n2m = (bs [0xC0, 0x11, 0xC0]).map RxOffer.byte ++ [.fail] ∧
      s.env.tx.get .n2m = List.replicate (bs [0xC0, 0x11, 0xC0]).length true ++ [false] := by decide

theorem wit_EngineBindsAndAccepts :
    (∀ ok : Bool, let s : State := { State.reset with env := { Env.quiet with bind := [ok] } };
      s.eng = .idle ∧ s.env.bind = ok :: []) ∧ up.eng ≠ .idle ∧ up.eng ≠ .listening ∧
      let s : State := { State.reset with eng := .listening, env := { Env.quiet with accepted := 1 } }
      s.eng = .listening ∧ s.env.accepted = 0 + 1 := by decide

theorem wit_EngineOpens :
    (∀ ok : Bool, let s : State := { State.reset with eng := .connected, env := { Env.quiet with serOpen := [ok] } };
      s.eng = .connected ∧ s.env.serOpen = ok :: []) ∧ up.eng ≠ .connected := by decide

theorem wit_EngineJoinsAndTearsDown :
    (let s : State := { up with pump := ⟨.stopped, .stopped⟩ };
      s.eng = .relaying ∧ s.pump.n2m = .stopped ∧ s.pump.m2n = .stopped) ∧ up.pump.n2m = .running ∧
      up.pump.m2n = .running ∧ State.reset.eng ≠ .relaying ∧ up.eng ≠ .tornDown ∧
      ({ State.reset with eng := .tornDown } : State).eng = .tornDown := by decide

theorem wit_UnexpectedFailureEndsTheInstance :
    (let s : State := { up with env := { Env.quiet with unexpected := 1 } };
      s.eng ≠ .idle ∧ s.eng ≠ .dead ∧ s.env.unexpected = 0 + 1) ∧ State.reset.eng = .idle ∧
      ({ up with eng := .dead } : State).eng = .dead := by decide

theorem wit_EngineMovesAlongItsTable :
    let s : State := { State.reset with env := { Env.quiet with bind := [true] } }
    ∃ t, exec .engBind s = .next t ∧ t.eng ≠ s.eng := ⟨_, rfl, by decide⟩

theorem wit_DeadIsFinal :
    let s : State := { dispatching (task .n2m [0xC0, 0x11, 0xC0]) [] with eng := .dead }
    s.eng = .dead ∧ FeedsByte (.feedData .n2m 0x11#8) .n2m 0x11#8 ∧ (∃ t, exec (.dispatch 0) s = .next t) ∧
      (∃ t, exec (.dispatch 0) { s with eng := .idle } = .next t) ∧
      s.env.resetIn = false ∧ ∃ t, step s = .next t :=
  ⟨by decide, .inr (.inr ⟨by decide, rfl⟩), ⟨_, rfl⟩, ⟨_, rfl⟩, by decide, ⟨_, rfl⟩⟩
theorem wit_DeadIsFinal_reset :
    let s : State := { up with eng := .dead, env := { Env.quiet with resetIn := true } }
    s.eng = .dead ∧ s.env.resetIn = true := by decide

theorem wit_EventsAreConsumedOnlyWhereAwaited :
    (let s : State := { State.reset with eng := .listening, env := { Env.quiet with accepted := 1 } };
      ∃ t, exec .engAccept s = .next t ∧ t.env.accepted ≠ s.env.accepted) ∧
    (let s : State := { up with env := { Env.quiet with unexpected := 1 } };
      ∃ t, exec .engFatal s = .next t ∧ t.env.unexpected ≠ s.env.unexpected) ∧
    ∃ t, exec .pumpM2n (upM2n [.fail] []) = .next t ∧ t.env.rx.get .m2n ≠ (upM2n [.fail] []).env.rx.get .m2n :=
  ⟨⟨_, rfl, by decide⟩, ⟨_, rfl, by decide⟩, ⟨_, rfl, by decide⟩⟩

theorem wit_DisconnectReturnsToListening :
    let s : State := { up with env := { Env.quiet with rx := ⟨[.fail], [.fail]⟩ } }
    s.eng = .relaying ∧ s.pump = ⟨.running, .running⟩ ∧ s.phase = ⟨.awaitRead, .awaitRead⟩ ∧
      ∀ d, (s.env.rx.get d).head? = some .fail :=
  ⟨by decide, by decide, by decide, by intro d; cases d <;> decide⟩

/-- A run of a disconnect with one byte in flight: PUMP.N2M reads it, writes it and fails, PUMP.M2N fails, the engine joins and
tears down, and nothing more is on offer. -/
def disconnectOps : Nat → Instr
  | 0 | 1 | 2 => .pumpN2m
  | 3 => .pumpM2n
  | 4 => .engJoin
  | 5 => .engTeardown
  | _ => .engBind

/-- The states of that run. -/
def disconnectRun : Nat → State
  | 0 => { up with env := { Env.quiet with rx := ⟨[.byte 0x41#8, .fail], [.fail]⟩, tx := ⟨[true], []⟩ } }
  | n + 1 => (nextOf (exec (disconnectOps n) (disconnectRun n))).getD State.reset

theorem disconnectRun_still (i : Instr) (hi : i ∈ relaySteps) : exec i (disconnectRun 6) = .next (disconnectRun 6) := by
  simp only [relaySteps, List.mem_cons, List.not_mem_nil, or_false] at hi
  rcases hi with rfl | rfl | rfl | rfl | rfl | rfl | rfl | rfl <;> rfl

theorem disconnectRun_end (n : Nat) : disconnectRun (n + 6) = disconnectRun 6 := by
  induction n with
  | zero => rfl
  | succ n ih =>
    show (nextOf (exec .engBind (disconnectRun (n + 6)))).getD State.reset = _
    rw [ih, disconnectRun_still _ (by decide)]; rfl

theorem wit_DisconnectRecoversInEveryFairRun :
    IsRun disconnectOps disconnectRun ∧ FairRun disconnectOps disconnectRun ∧ (disconnectRun 0).eng = .relaying ∧
      (disconnectRun 0).env.unexpected = 0 ∧
      ∀ d, (disconnectRun 0).pump.get d = .running ∧ ∃ (bytes : List Byte) (rest : List RxOffer),
        (disconnectRun 0).env.rx.get d = bytes.map RxOffer.byte ++ .fail :: rest ∧
        bytes.length + (heldBytes ((disconnectRun 0).phase.get d)).length ≤ ((disconnectRun 0).env.tx.get d).length := by
  refine ⟨fun n => ?_, fun i hi n _ => ⟨n + 6, by omega, .inr fun h => h ?_⟩, rfl, rfl, fun d => ?_⟩
  · match n with
    | 0 | 1 | 2 | 3 | 4 | 5 => rfl
    | n + 6 =>
      rw [show n + 6 + 1 = (n + 1) + 6 by omega, disconnectRun_end n, disconnectRun_end (n + 1)]
      exact disconnectRun_still .engBind (by decide)
  · rw [disconnectRun_end]; exact disconnectRun_still i hi
  · cases d
    · exact ⟨by decide, bs [0x41], [], by decide, by decide⟩
    · exact ⟨by decide, [], [], by decide, by decide⟩

theorem wit_HandOffOfFrame :
    State.reset.cfg.sinkPresent = false ∧
      ∀ l : List (List Bool), l = [[true], [false], []] → ∀ h ∈ l,
        let s : State := { dispatching (task .n2m []) [] with env := { Env.quiet with handoff := h } }
        s.cfg.sinkPresent = true ∧ s.env.handoff = h := by
  exact ⟨by decide, fun l hl => by subst hl; decide⟩

theorem wit_DispatchStages :
    (∀ st ∈ [Stage.framed, .unframed, .done],
      (dispatching { task .n2m [0xC0, 0, 0xC0] with stage := st } []).inflight[0]?.map Task.stage = some st) ∧
    (decodeFrame (task .n2m [0xC0, 0x11, 0xC0]).frame = .invalidFrame .fixedLen ∧
      decodeFrame (task .n2m [0xC0, 0x00, 0xC0]).frame = .ok [] 0#4 0#4 .dataFrame ∧
      (dispatching { task .n2m [0xC0, 0, 0xC0] with stage := .decode } []).inflight[0]?.map Task.stage = some .decode) ∧
    ∀ a ∈ [DescAnswer.text (bs [0x74]), .noText],
      let s := dispatching { task .n2m [0xC0, 0, 0xC0] with stage := .describe } [a]
      s.inflight[0]?.map Task.stage = some .describe ∧ s.env.describer = a :: [] := by decide

theorem wit_DescribedTaskRecordsInOrder :
    let t := task .n2m [0xC0, 0x0C, 0, 1, 0xAA, 0xC0]
    t.stage = .framed ∧ decodeFrame t.frame = .ok (bs [0, 1, 0xAA]) 0#4 12#4 .ackMode ∧
      (dispatching t []).inflight[0]? = some t ∧ (dispatching t []).env.describer = [] ∧
      ∀ a ∈ [DescAnswer.text (bs [0x74]), .noText],
        (dispatching t [a]).inflight[0]? = some t ∧ (dispatching t [a]).env.describer = a :: [] := by decide

theorem wit_DispatchTouchesItsTaskOnly :
    ∃ t, exec (.dispatch 0) (dispatching (task .n2m [0xC0, 0, 0xC0]) []) = .next t ∧
      t ≠ dispatching (task .n2m [0xC0, 0, 0xC0]) [] := ⟨_, rfl, by decide⟩

theorem wit_ObserverNeverAffectsRelay :
    let s := { upN2m [.byte 0x11#8] [true] with inflight := [task .n2m [0xC0, 0, 0xC0]] }
    relayView s = relayView (upN2m [.byte 0x11#8] [true]) ∧
      ∃ t, execAll [.dispatch 0, .pumpN2m, .dispatch 0, .pumpN2m] s = .next t ∧ t.phase.n2m = .awaitRead :=
  ⟨by decide, _, rfl, by decide⟩

theorem wit_EveryStepKeepsAccumulators :
    let s : State := { holdingCap 2 [0xC0, 0x11] with sched := [{ fmt := .stream8, bits := bs [0xC0] }] }
    AccInv s ∧ DepthInv s ∧ ∃ t, step s = .next t ∧ t.ovf.n2m = true :=
  ⟨fun d => accClean_of_tail (by cases d <;> decide), fun d n h => by cases d <;> cases h <;> decide, _, rfl, by decide⟩

theorem wit_EveryStepKeepsLifeCycle :
    let s : State := { upN2m [.fail] [] with sched := [opRequest 9] }
    LifeInv s ∧ ∃ t, step s = .next t ∧ t.ser = .closed :=
  ⟨⟨by decide, by decide, by decide, fun d h => by cases d <;> cases h⟩, _, rfl, by decide⟩

theorem wit_EveryStepKeepsFramesWellFormed :
    let s : State := { holding [0xC0, 0x11] with
      trace := [.frame .n2m (bs [0xC0, 0x22, 0xC0]) false], sched := [{ fmt := .stream8, bits := bs [0xC0] }] }
    FramesInv s ∧ (∃ t, step s = .next t ∧ (frameEvents .n2m t.trace).length = 2) ∧ WellFramed (bs [0xC0, 0x11, 0xC0]) ∧
      decodeFrame (bs [0xC0, 0x11, 0xC0]) = .invalidFrame .fixedLen := by
  have mid (x : Byte) (hx : x ≠ FEND) : WellFramed [0xC0#8, x, 0xC0#8] := by
    refine ⟨Nat.le_refl 3, rfl, rfl, fun i h1 h2 => ?_⟩
    have : i = 1 := by simp at h2; omega
    subst this
    simpa using hx
  refine ⟨⟨rfl, rfl, fun d => accClean_of_tail (by cases d <;> decide), fun d f n h => ?_,
      by simp [holding, State.reset, State.resetWith]⟩, ⟨_, rfl, by decide⟩, mid 0x11#8 (by decide), by decide⟩
  simp at h
  rw [h.2.1]
  exact mid 0x22#8 (by decide)

theorem wit_EveryStepKeepsTasksSound :
    let s : State := { dispatching { task .n2m [0xC0, 0, 0x41, 0xC0] with stage := .unframed, payload := bs [0x41] } [] with
      sched := [{ fmt := .op, sel := 17, task := 0 }] }
    TasksInv s ∧ ∃ t, step s = .next t ∧ t.inflight.map Task.stage = [.describe] :=
  ⟨fun t h => by simp [dispatching] at h; subst h; exact (by decide :
      decodeFrame (bs [0xC0, 0, 0x41, 0xC0]) = .ok (bs [0x41]) 0#4 0#4 (kindOf 0#4 0#4)), _, rfl, by decide⟩

theorem wit_EveryStepKeepsConfigCarried :
    let s : State := { upN2m [.fail] [] with sched := [opRequest 9], trace := [.log [] .serialOpenFail none] }
    ConfigInv s ∧ ∃ t, step s = .next t ∧ t.trace ≠ s.trace :=
  ⟨fun e h => by simp at h; subst h; rfl, _, rfl, by decide⟩

theorem wit_InvariantsHoldAtReset : Cfg.zero.accDepth = none := rfl

theorem wit_InstancesShareNothing :
    ∃ z, (System.mk [up, { State.reset with sched := [opRequest 11], env := { Env.quiet with bind := [true] } }]).step 1 =
      .next z ∧ (z.insts[1]?.map State.eng) = some .listening := ⟨_, rfl, by decide⟩

end Sys2Proof.Tests
end

/-! ### Proofs: reset -/

namespace Sys2Proof.Machine

/-- R42 to R44: every element of R46 stands at its reset value. -/
def AtReset (s : State) : Prop :=
  (∀ d, s.acc.get d = [] ∧ s.pump.get d = .stopped ∧ s.phase.get d = .awaitRead ∧ s.ovf.get d = false) ∧
  s.eng = .idle ∧ s.tcp = .closed ∧ s.ser = .closed ∧ s.lsn = .unbound ∧ s.inflight = []

@[simp] theorem State.resetWith_cfg (c : Cfg) : (State.resetWith c).cfg = c := rfl

/-- R45: the reset input does not write the configuration. -/
@[simp] theorem State.applyReset_cfg (s : State) : s.applyReset.cfg = s.cfg := rfl

theorem atReset_resetWith (c : Cfg) : AtReset (State.resetWith c) := by
  refine ⟨fun d => ?perDirection, rfl, rfl, rfl, rfl, rfl⟩
  case perDirection => simp [State.resetWith]

/-- R281: the elements the reset input leaves are those of a new instance under the same configuration; the two states differ only
in the model's own fields and in what the environment offers. -/
theorem atReset_applyReset (s : State) : AtReset s.applyReset :=
  atReset_resetWith s.cfg

/-- R280: an asserted reset input comes before whatever is scheduled. -/
theorem step_of_resetIn {s : State} (h : s.env.resetIn = true) : step s = .next s.applyReset :=
  if_pos h

/-- Settles O6: a new instance stands at reset under every configuration, the zero one of `State.reset` among them, and the step that
takes the reset input leads to such a state. -/
theorem resetPutsEveryElement : Obligations.ResetPutsEveryElement := by
  refine ⟨atReset_resetWith Cfg.zero, fun c => ⟨atReset_resetWith c, State.resetWith_cfg c⟩, fun s hreset => ?_⟩
  exact ⟨s.applyReset, step_of_resetIn hreset, atReset_applyReset s, State.applyReset_cfg s⟩

end Sys2Proof.Machine

/-! ### Proofs: stream segmentation -/

namespace Sys2Proof.Machine

/-- An answer is one entry of the trace: the next states of the laws and those of the statements. -/
theorem State.answer_eq_emitAll (s : State) (a : Answer) : s.answer a = s.emitAll [.codec a] := rfl

theorem exec_iscomplete (q : List Byte) (s : State) :
    exec (.iscomplete q) s = .next (s.emitAll [.codec (.isComplete (isComplete q))]) := rfl

/-- R112: on its operands, the non-empty sequences, NORMALIZE answers the pair of `normalizeSeq`. -/
theorem exec_normalize_of_ne_nil {q : List Byte} (h : q ≠ []) (s : State) :
    exec (.normalize q) s = .next (s.emitAll [.codec (.normalized (normalizeSeq q).1 (normalizeSeq q).2)]) :=
  if_neg h

/-- R111 in the shape of its text: the length and the two end bytes, by position. -/
theorem isComplete_iff_getElem? (q : List Byte) :
    isComplete q = true ↔ 2 < q.length ∧ q[0]? = some FEND ∧ q[q.length - 1]? = some FEND := by
  rw [← List.head?_eq_getElem?, ← List.getLast?_eq_getElem?]
  simp only [isComplete, Bool.and_eq_true, decide_eq_true_eq, beq_iff_eq, and_assoc]

/-- Settles O8: both rows only answer; ISCOMPLETE by the test of the ends, NORMALIZE by whether the first byte is FEND. -/
theorem isCompleteAndNormalizeAnswer : Obligations.IsCompleteAndNormalizeAnswer := by
  refine fun s b q => ⟨⟨isComplete q, exec_iscomplete q s, isComplete_iff_getElem? q⟩, ?startsWithFend, fun hb => ?otherStart⟩
  case startsWithFend =>
    rw [exec_normalize_of_ne_nil (List.cons_ne_nil FEND q), normalizeSeq_fend]
  case otherStart =>
    rw [exec_normalize_of_ne_nil (List.cons_ne_nil b q), normalizeSeq_of_ne hb]

end Sys2Proof.Machine

/-! ### Proofs: ENCODE and STUFF -/

namespace Sys2Proof.Machine

/-- R83: the port is the high nibble of the type byte, the command the low one. -/
theorem packType_toNat (p c : Nibble) : (packType p c).toNat = p.toNat * 16 + c.toNat := by revert p c; decide

/-- R83 for a port given as a number: no legal port index is truncated. -/
theorem packType_ofNat {port : Nat} (h : port ≤ 15) (cmd : Nibble) :
    packType (BitVec.ofNat 4 port) cmd = BitVec.ofNat 8 (port * 16 + cmd.toNat) := by
  have hcmd : cmd.toNat < 16 := cmd.isLt
  have hport : port % 2 ^ 4 = port := Nat.mod_eq_of_lt (Nat.lt_succ_of_le h)
  rw [BitVec.toNat_eq, packType_toNat, BitVec.toNat_ofNat, BitVec.toNat_ofNat, hport]
  omega

theorem encodeFrame_of_gt {port : Nat} (h : 15 < port) (p : List Byte) (cmd : Nibble) :
    encodeFrame p port cmd = .invalidArgument :=
  if_pos h

theorem exec_encode (p : List Byte) (port : Nat) (cmd : Nibble) (s : State) :
    exec (.encode p port cmd) s = .next (s.emitAll [.codec (.enc (encodeFrame p port cmd))]) := rfl

theorem exec_stuff (b : Byte) (s : State) :
    exec (.stuff b) s = .next (s.emitAll [.codec (.stuffed (stuffByte b))]) := rfl

/-- STUFF answers whatever `stuffByte` gives for its byte, so each case of R151 is one law of `stuffByte`. -/
theorem exec_stuff_of_stuffByte_eq {b : Byte} {out : List Byte} (h : stuffByte b = out) (s : State) :
    exec (.stuff b) s = .next (s.emitAll [.codec (.stuffed out)]) ∧ stuffByte b = out :=
  ⟨h ▸ exec_stuff b s, h⟩

/-- Settles O25: ENCODE by the bound on the port index, STUFF by the three kinds of payload byte. -/
theorem encodeAnswers : Obligations.EncodeAnswers := by
  refine fun s p port cmd b => ⟨fun hport => ?portAbove, fun hport => ?portLegal,
    exec_stuff_of_stuffByte_eq stuffByte_fend s, exec_stuff_of_stuffByte_eq stuffByte_fesc s,
    fun hfend hfesc => exec_stuff_of_stuffByte_eq (stuffByte_lit hfend hfesc) s⟩
  case portAbove => rw [exec_encode, encodeFrame_of_gt hport]
  case portLegal => rw [exec_encode, encodeFrame_of_le hport, packType_ofNat hport]; rfl

end Sys2Proof.Machine

/-! ### Proofs: the stages of a dispatch task -/

namespace Sys2Proof.Machine

/-- R224: a description is requested for the command codes of DataFrame and AckMode only, whatever the port. -/
theorem kindOf_described_iff (p c : Nibble) : (kindOf p c).described = true ↔ c = 0x0#4 ∨ c = 0xC#4 := by
  revert p c; decide

section

variable {s : State} {k : Nat} {t : Task} (htask : s.inflight[k]? = some t)

include htask

theorem exec_dispatch_framed (hstage : t.stage = .framed) : exec (.dispatch k) s = .next (dispatchFramed s k t) := by
  simp only [exec, execDispatch, htask, hstage]

theorem exec_dispatch_decode (hstage : t.stage = .decode) : exec (.dispatch k) s = .next (dispatchDecode s k t) := by
  simp only [exec, execDispatch, htask, hstage]

theorem exec_dispatch_unframed (hstage : t.stage = .unframed) :
    exec (.dispatch k) s = .next (dispatchUnframed s k t) := by
  simp only [exec, execDispatch, htask, hstage]

theorem exec_dispatch_describe (hstage : t.stage = .describe) :
    exec (.dispatch k) s = .next (dispatchDescribe s k t) := by
  simp only [exec, execDispatch, htask, hstage]

theorem exec_dispatch_done (hstage : t.stage = .done) : exec (.dispatch k) s = .next (s.dropTask k) := by
  simp only [exec, execDispatch, htask, hstage]

end

/-- R223: a decode failure is logged with the direction of the frame and ends the task. -/
theorem dispatchDecode_of_invalidFrame {t : Task} {r : FrameReason} (h : decodeFrame t.frame = .invalidFrame r)
    (s : State) (k : Nat) :
    dispatchDecode s k t =
      (s.emitAll [.log s.cfg.instName (.invalidFrame r) (some t.dir)]).setTask k { t with stage := .done } := by
  rw [dispatchDecode, h]; rfl

/-- R223: a decode that succeeds stores its fields in the task and emits nothing. -/
theorem dispatchDecode_of_ok {t : Task} {p : List Byte} {port cmd : Nibble} {kind : Kind}
    (h : decodeFrame t.frame = .ok p port cmd kind) (s : State) (k : Nat) :
    dispatchDecode s k t = s.setTask k { t with stage := .unframed, payload := p, port := port, cmd := cmd } := by
  rw [dispatchDecode, h]

/-- R223, R224: the record, and the next stage by the command code alone. -/
theorem dispatchUnframed_eq (s : State) (k : Nat) (t : Task) :
    dispatchUnframed s k t =
      (s.emitAll [.obs s.cfg.instName s.cfg.b64 (.unframed t.dir t.port t.cmd (kindOf t.port t.cmd) t.payload)]).setTask k
        { t with stage := if t.cmd = 0x0#4 ∨ t.cmd = 0xC#4 then .describe else .done } := by
  simp only [dispatchUnframed, kindOf_described_iff]; rfl

/-- Settles O50: a step of a task is the meaning of its stage; Decode splits by what DECODE gives, Describe by the describer's
answer. -/
theorem dispatchStages : Obligations.DispatchStages := by
  refine fun s k t rest x htask => ⟨fun hstage => ?framed, fun hstage r hdec => ?decodeFails,
    fun hstage p port cmd kind hdec => ?decodeSucceeds, fun hstage => ?unframed, fun hstage hanswer => ?describeText,
    fun hstage hanswer => ?describeNoText, fun hstage => ?done⟩
  case framed => rw [exec_dispatch_framed htask hstage]; rfl
  case decodeFails => rw [exec_dispatch_decode htask hstage, dispatchDecode_of_invalidFrame hdec]; rfl
  case decodeSucceeds => rw [exec_dispatch_decode htask hstage, dispatchDecode_of_ok hdec]; rfl
  case unframed => rw [exec_dispatch_unframed htask hstage, dispatchUnframed_eq]; rfl
  case describeText => rw [exec_dispatch_describe htask hstage, dispatchDescribe_cons hanswer]; rfl
  case describeNoText => rw [exec_dispatch_describe htask hstage, dispatchDescribe_cons hanswer]; rfl
  case done => rw [exec_dispatch_done htask hstage]; rfl

end Sys2Proof.Machine

/-! ### Proofs: requests and operations -/

namespace Sys2Proof

open Machine (portOf cmdOf packType frameOf packType_eq_ff packType_portOf_cmdOf cmdOf_packType)

/-- R81, R82: a whole frame is read by its fields. -/
theorem decodeFrameWord_frameOf (t : Byte) (body : List Byte) :
    decodeFrameWord (frameOf t body) = .ok (.frame (portOf t) (cmdOf t) body) := by
  cases body with
  | nil => simp [frameOf, decodeFrameWord]
  | cons b body => simp [frameOf, decodeFrameWord, List.getLast?_cons, List.dropLast_cons_of_ne_nil]

/-- R99: what the encoder lays on a port for a well-formed operation is read as that operation. -/
theorem decode_encode {i : Instr} (h : WellFormed i = true) : decode (encode i) = .ok i := by
  cases i with
  | feedData d b =>
    have hb : b ≠ FEND := by simpa [WellFormed] using h
    simp [encode, decode, decodeStream8, hb]
  | unescLonefesc n =>
    have hn : n ≠ some TFEND ∧ n ≠ some TFESC := by simpa [WellFormed] using h
    cases n <;> simp_all [encode, decode, decodeUnesc]
  | unescLit b n =>
    have hb : b ≠ FESC := by simpa [WellFormed] using h
    cases n <;> simp [encode, decode, decodeUnesc, hb]
  | stuffLit b =>
    have hb : b ≠ FEND ∧ b ≠ FESC := by simpa [WellFormed] using h
    simp [encode, decode, decodeStuff8, hb]
  | rsvdf p payload =>
    have hp : p ≠ 0xF#4 := by simpa [WellFormed] using h
    simp [encode, decode, type8Request, decodeType8, packType_eq_ff, hp]
  | normalize q =>
    have hq : q ≠ [] := by simpa [WellFormed] using h
    simp [encode, decode, decodeOp, hq]
  | frame p c body => simp [encode, decode, decodeFrameWord_frameOf]
  | dataframe | txdelay | persistence | slottime | txtail | fullduplex | rsvd6 | rsvd7 | rsvd8 | rsvd9 | rsvda | rsvdb
  | ackmode | rsvdd | rsvde => simp [encode, decode, type8Request, decodeType8, packType_eq_ff]
  | feedFend | unescFend | unescFesc | stuffFend | stuffFesc | exitkiss => rfl
  | drd | iscomplete | processbyte | decode | unescape | encode | stuff | feed | pumpN2m | pumpM2n | engBind | engAccept
  | engOpen | engJoin | engTeardown | engFatal | dispatch => rfl

theorem wellFormed_decodeStream8 (d : Dir) (b : Byte) : WellFormed (decodeStream8 d b) = true := by
  unfold decodeStream8
  split <;> simp_all [WellFormed]

theorem wellFormed_decodeUnesc (b : Byte) (n : Option Byte) : WellFormed (decodeUnesc b n) = true := by
  unfold decodeUnesc
  split_ifs <;> simp_all [WellFormed]

theorem wellFormed_decodeStuff8 (b : Byte) : WellFormed (decodeStuff8 b) = true := by
  unfold decodeStuff8
  split_ifs <;> simp_all [WellFormed]

/-- The sixteen command codes (R84 to R87): those whose payload has any length, those of the one-byte commands, and the code that
ExitKissMode shares with an unnamed one. -/
theorem nibble_cases (c : Nibble) :
    (c = 0x0#4 ∨ c = 0x6#4 ∨ c = 0x7#4 ∨ c = 0x8#4 ∨ c = 0x9#4 ∨ c = 0xA#4 ∨ c = 0xB#4 ∨ c = 0xC#4 ∨ c = 0xD#4 ∨
        c = 0xE#4) ∨
      (c = 0x1#4 ∨ c = 0x2#4 ∨ c = 0x3#4 ∨ c = 0x4#4 ∨ c = 0x5#4) ∨ c = 0xF#4 := by
  revert c; decide

/-- R82, R85: a type byte is ExitKissMode's, or it is its two fields and these are not both 15. -/
theorem eq_ff_or_eq_packType (t : Byte) :
    t = 0xFF#8 ∨ ∃ p c, t = packType p c ∧ packType p c ≠ 0xFF#8 ∧ (c = 0xF#4 → p ≠ 0xF#4) := by
  by_cases ht : t = 0xFF#8
  · exact .inl ht
  · refine .inr ⟨portOf t, cmdOf t, by simp, by simpa, fun hc hp => ht ?_⟩
    rw [← packType_portOf_cmdOf t, packType_eq_ff]
    exact ⟨hp, hc⟩

theorem wellFormed_decodeType8 (t : Byte) (payload : List Byte) : WellFormed (decodeType8 t payload) = true := by
  rcases eq_ff_or_eq_packType t with rfl | ⟨p, c, rfl, hff, hp⟩
  · rfl
  · rcases nibble_cases c with
      (rfl | rfl | rfl | rfl | rfl | rfl | rfl | rfl | rfl | rfl) | (rfl | rfl | rfl | rfl | rfl) | rfl <;>
      simp_all [decodeType8, WellFormed]

theorem wellFormed_of_decodeFrameWord {f : List Byte} {i : Instr} (h : decodeFrameWord f = .ok i) :
    WellFormed i = true := by
  unfold decodeFrameWord at h
  split at h
  · split at h
    · cases h; rfl
    · cases h
  · cases h

theorem wellFormed_of_decodeOp {r : Request} {i : Instr} (h : decodeOp r = .ok i) : WellFormed i = true := by
  unfold decodeOp at h
  split at h
  case h_3 =>
    split at h
    · cases h
    · cases h; simp_all [WellFormed]
  case h_19 => cases h
  all_goals cases h; rfl

/-- R99: whatever is read from a request meets the side conditions of its row, format by format. -/
theorem wellFormed_of_decode {r : Request} {i : Instr} (h : decode r = .ok i) : WellFormed i = true := by
  unfold decode at h
  split at h
  case h_1 => split at h <;> cases h; exact wellFormed_decodeStream8 _ _
  case h_2 => split at h <;> cases h <;> exact wellFormed_decodeUnesc _ _
  case h_3 => split at h <;> cases h; exact wellFormed_decodeStuff8 _
  case h_4 => split at h <;> cases h; exact wellFormed_decodeType8 _ _
  case h_5 => exact wellFormed_of_decodeFrameWord h
  case h_6 => exact wellFormed_of_decodeOp h

/-- Settles O1: the encoder and the decoder are inverse, constructor by constructor one way and format by format the other. -/
theorem decodeOfEncode : Obligations.DecodeOfEncode :=
  ⟨fun _ h => decode_encode h, fun _ _ h => wellFormed_of_decode h⟩

/-! #### The rows of the table -/

/-- Among the rows of `fmt` that fit the word `w`, one with the place `place` has the lowest priority number (R99). -/
def FirstFit (fmt : Format) (w place : Nat) : Prop :=
  ∃ row ∈ tableRows, row.fmt = fmt ∧ row.place = place ∧ row.fits w = true ∧
    ∀ row' ∈ tableRows, row'.fmt = fmt → row'.fits w = true → row.priority ≤ row'.priority

theorem firstFit_stream8 (d : Dir) (b : Byte) : FirstFit .stream8 b.toNat (decodeStream8 d b).place := by
  unfold decodeStream8
  split
  case isTrue hb => subst hb; exact ⟨tableRows[0], by decide, rfl, rfl, by decide, by decide⟩
  case isFalse hb =>
    refine ⟨tableRows[1], by decide, rfl, rfl, by simp [tableRows, Row.fits], ?_⟩
    revert hb; revert b; decide

theorem firstFit_stuff8 (b : Byte) : FirstFit .stuff8 b.toNat (decodeStuff8 b).place := by
  unfold decodeStuff8
  split_ifs with hfend hfesc
  · subst hfend; exact ⟨tableRows[6], by decide, rfl, rfl, by decide, by decide⟩
  · subst hfesc; exact ⟨tableRows[7], by decide, rfl, rfl, by decide, by decide⟩
  · refine ⟨tableRows[8], by decide, rfl, rfl, by simp [tableRows, Row.fits], ?_⟩
    revert hfend hfesc; revert b; decide

/-- R84 to R86: the rows of TYPE8 stand in the table in the order of their command codes, ExitKissMode's first. -/
theorem place_decodeType8 (t : Byte) (payload : List Byte) :
    (decodeType8 t payload).place = if t = 0xFF#8 then 9 else 10 + (cmdOf t).toNat := by
  rcases eq_ff_or_eq_packType t with rfl | ⟨p, c, rfl, hff, -⟩
  · rfl
  · rw [if_neg hff, cmdOf_packType]
    rcases nibble_cases c with
      (rfl | rfl | rfl | rfl | rfl | rfl | rfl | rfl | rfl | rfl) | (rfl | rfl | rfl | rfl | rfl) | rfl <;>
      simp [decodeType8, Instr.place, hff]

theorem firstFit_type8 (t : Byte) (payload : List Byte) : FirstFit .type8 t.toNat (decodeType8 t payload).place := by
  rw [place_decodeType8, FirstFit]
  revert t; decide

/-- Every row of UNESC but the default one asks for FESC in the high byte. -/
theorem unescRow_mask : ∀ row ∈ tableRows, row.fmt = .unesc → row.priority < 3 →
    row.mask &&& 0xFF00 = 0xFF00 ∧ row.pattern &&& 0xFF00 = 0xDB00 := by decide

/-- The high byte of a word of 16 bits is what the mask `0xFF00` leaves. -/
theorem shiftRight_mask_highByte (b n : Byte) : ((b.toNat * 256 + n.toNat) &&& 0xFF00) >>> 8 = b.toNat := by
  have hhigh : (b.toNat * 256 + n.toNat) >>> 8 = b.toNat := by rw [Nat.shiftRight_eq_div_pow]; omega
  rw [Nat.shiftRight_and_distrib, hhigh, show 0xFF00 >>> 8 = 2 ^ 8 - 1 from rfl, Nat.and_two_pow_sub_one_eq_mod]
  exact Nat.mod_eq_of_lt b.isLt

/-- R89: where the byte scanned is not FESC, only the default row of UNESC fits. -/
theorem priority_of_unesc_fits {b n : Byte} (hb : b ≠ FESC) {row : Row} (hrow : row ∈ tableRows)
    (hfmt : row.fmt = .unesc) (hfits : row.fits (b.toNat * 256 + n.toNat) = true) : 3 ≤ row.priority := by
  by_contra hlow
  obtain ⟨hmask, hpattern⟩ := unescRow_mask row hrow hfmt (by omega)
  have hword : (b.toNat * 256 + n.toNat) &&& 0xFF00 = 0xDB00 := by
    rw [← hmask, ← Nat.land_assoc, show (_ &&& row.mask) = row.pattern by simpa [Row.fits] using hfits, hpattern]
  have hhigh := shiftRight_mask_highByte b n
  rw [hword] at hhigh
  exact hb (BitVec.eq_of_toNat_eq hhigh.symm)

theorem firstFit_unesc (b n : Byte) :
    FirstFit .unesc (b.toNat * 256 + n.toNat) (decodeUnesc b (some n)).place := by
  by_cases hb : b = FESC
  · subst hb
    by_cases h1 : n = TFEND
    · subst h1; exact ⟨tableRows[2], by decide, rfl, rfl, by decide, by decide⟩
    · by_cases h2 : n = TFESC
      · subst h2; exact ⟨tableRows[3], by decide, rfl, rfl, by decide, by decide⟩
      · refine ⟨tableRows[4], by decide, rfl, by simp [decodeUnesc, h1, h2]; rfl, ?_⟩
        revert h1 h2; revert n; decide
  · refine ⟨tableRows[5], by decide, rfl, by simp [decodeUnesc, hb]; rfl, by simp [tableRows, Row.fits], ?_⟩
    exact fun row hrow hfmt hfits => priority_of_unesc_fits hb hrow hfmt hfits

theorem firstFit_frame (t : Byte) : FirstFit .frame (0xC0 * 256 + t.toNat) 26 := by
  unfold FirstFit
  revert t; decide

/-- Settles O2: format by format, the row of the operation read is the first that fits. -/
theorem decoderTakesFirstFittingRow : Obligations.DecoderTakesFirstFittingRow := by
  intro r w hword
  suffices h : ∃ i, decode r = .ok i ∧ FirstFit r.fmt w i.place by
    obtain ⟨i, hdec, row, hmem, hfmt, hplace, hfits⟩ := h
    exact ⟨i, row, hdec, hmem, hfmt, hplace, hfits⟩
  rcases hword with ⟨hfmt, b, hbits, rfl⟩ | ⟨hfmt, b, n, hbits, rfl⟩ | ⟨hfmt, t, body, hbits, rfl⟩
  · rcases hfmt with hfmt | hfmt | hfmt
    · exact ⟨decodeStream8 r.dir b, by simp only [decode, hfmt, hbits], hfmt ▸ firstFit_stream8 r.dir b⟩
    · exact ⟨decodeStuff8 b, by simp only [decode, hfmt, hbits], hfmt ▸ firstFit_stuff8 b⟩
    · exact ⟨decodeType8 b r.seq, by simp only [decode, hfmt, hbits], hfmt ▸ firstFit_type8 b r.seq⟩
  · exact ⟨decodeUnesc b (some n), by simp only [decode, hfmt, hbits], hfmt ▸ firstFit_unesc b n⟩
  · exact ⟨.frame (portOf t) (cmdOf t) body,
      by simp only [decode, hfmt, hbits]; exact decodeFrameWord_frameOf t body, hfmt ▸ firstFit_frame t⟩

/-- Settles O3: each word decodes by computation. -/
theorem sampleWordsDecode : Obligations.SampleWordsDecode := by
  unfold Obligations.SampleWordsDecode; decide

end Sys2Proof

namespace Sys2Proof.Machine

/-! #### The step -/

theorem step_of_sched_nil {s : State} (hreset : s.env.resetIn = false) (hsched : s.sched = []) : step s = .next s := by
  simp [step, hreset, hsched, State.wait]

theorem step_of_sched_cons {s : State} {r : Request} {rest : List Request} (hreset : s.env.resetIn = false)
    (hsched : s.sched = r :: rest) : step s = runRequest r { s with sched := rest } := by
  simp [step, hreset, hsched]

theorem runRequest_ok {r : Request} {i : Instr} (h : decode r = .ok i) (s : State) : runRequest r s = exec i s := by
  rw [runRequest, h]

theorem runRequest_error {r : Request} {e : DecodeError} (h : decode r = .error e) (s : State) :
    runRequest r s = .fault (.undecodable e) := by
  rw [runRequest, h]

/-- Settles O4: a step is the run of the first request. -/
theorem stepRunsDecodedRequest : Obligations.StepRunsDecodedRequest := by
  intro s r rest i hreset hsched hdec
  rw [step_of_sched_cons hreset hsched, runRequest_ok hdec]

theorem decode_tableRequest {nbits w : Nat} {i : Instr} (h : decodeTableWord nbits w = some i) :
    decode (tableRequest nbits w) = .ok i := by
  unfold decodeTableWord at h
  split at h
  · cases h; assumption
  · cases h

/-- Settles O5: nothing scheduled, an undecodable request, and the request of the host's number. -/
theorem stepWithoutOperation : Obligations.StepWithoutOperation := by
  refine fun s => ⟨step_of_sched_nil, fun r rest e hreset hsched hdec => ?undecodable, fun nbits w i hword => ?fetched⟩
  case undecodable => rw [step_of_sched_cons hreset hsched, runRequest_error hdec]
  case fetched =>
    have hsched : (s.withFetchWord nbits w).sched = tableRequest nbits w :: s.sched := rfl
    rw [step_of_sched_cons rfl hsched, runRequest_ok (decode_tableRequest hword)]; rfl

/-! #### Systems of several machines -/

/-- R266: a step of the system that answers is the step of the member named, put back in its place; naming none changes nothing. -/
theorem System.step_cases {y z : System} {k : Nat} (h : y.step k = .next z) :
    (y.insts[k]? = none ∧ z = y) ∨
      ∃ s t, y.insts[k]? = some s ∧ Machine.step s = .next t ∧ z = ⟨y.insts.set k t⟩ := by
  unfold System.step at h
  split at h
  · cases h; exact .inl ⟨‹_›, rfl⟩
  · split at h
    · cases h; exact .inr ⟨_, _, ‹_›, ‹_›, rfl⟩
    · cases h
    · cases h

/-- Settles O60: replacing the member at one place leaves the other places. -/
theorem instancesShareNothing : Obligations.InstancesShareNothing := by
  intro y z k h
  rcases System.step_cases h with ⟨hk, rfl⟩ | ⟨s, t, hk, hstep, rfl⟩
  · exact ⟨fun _ _ => rfl, rfl, fun s hs => by simp [hk] at hs⟩
  · refine ⟨fun j hj => List.getElem?_set_ne (Ne.symm hj), List.length_set, fun s' hs' => ⟨t, ?_, ?_⟩⟩
    · rw [hk] at hs'; cases hs'; exact hstep
    · have hlt : k < y.insts.length := (List.getElem?_eq_some_iff.1 hk).1
      simp [hlt]

end Sys2Proof.Machine

/-! ### Proofs: the codec -/

namespace Sys2Proof.Machine

/-! #### The type byte -/

/-- R83: the port index is the quotient by 16, the command code the remainder. -/
theorem portOf_toNat (t : Byte) : (portOf t).toNat = t.toNat / 16 := by revert t; decide

theorem cmdOf_toNat (t : Byte) : (cmdOf t).toNat = t.toNat % 16 := by revert t; decide

/-- Settles O18. -/
theorem typeBytePacksAndUnpacks : Obligations.TypeBytePacksAndUnpacks :=
  ⟨fun p c => ⟨packType_toNat p c, portOf_packType p c, cmdOf_packType p c⟩,
    fun t => ⟨portOf_toNat t, cmdOf_toNat t, packType_portOf_cmdOf t⟩⟩

/-! #### The rows of UNESC and STUFF8 -/

theorem exec_unescFend (s : State) : exec .unescFend s = .next (s.emitAll [.codec (.scanned [FEND] 2)]) := rfl

theorem exec_unescFesc (s : State) : exec .unescFesc s = .next (s.emitAll [.codec (.scanned [FESC] 2)]) := rfl

theorem exec_unescLonefesc (n : Option Byte) (s : State) :
    exec (.unescLonefesc n) s = .next (s.emitAll [.codec (.scanned [FESC] 1)]) := rfl

theorem exec_unescLit (b : Byte) (n : Option Byte) (s : State) :
    exec (.unescLit b n) s = .next (s.emitAll [.codec (.scanned [b] 1)]) := rfl

theorem decodeUnesc_lone {n : Option Byte} (h1 : n ≠ some TFEND) (h2 : n ≠ some TFESC) :
    decodeUnesc FESC n = .unescLonefesc n := by
  simp [decodeUnesc, h1, h2]

theorem decodeUnesc_lit {b : Byte} (h : b ≠ FESC) (n : Option Byte) : decodeUnesc b n = .unescLit b n := by
  simp [decodeUnesc, h]

/-- R88, R151: the row read for a payload byte answers what STUFF gives for it. -/
theorem exec_decodeStuff8 (b : Byte) (s : State) :
    exec (decodeStuff8 b) s = .next (s.emitAll [.codec (.stuffed (stuffByte b))]) := by
  unfold decodeStuff8 stuffByte
  split_ifs <;> rfl

/-- Settles O19: each row by itself, then the row read for the bytes at the scan position or for the payload byte. -/
theorem scanAndStuffRowsAnswer : Obligations.ScanAndStuffRowsAnswer := by
  refine fun s b n => ⟨⟨rfl, rfl, rfl, rfl⟩, ⟨rfl, ?fesc, fun h1 h2 => ?lone, fun hb => ?lit⟩, ⟨rfl, rfl, rfl⟩,
    ⟨rfl, ?stuffFesc, fun h1 h2 => ?stuffLit⟩⟩
  case fesc => exact exec_unescFesc s
  case lone => exact decodeUnesc_lone h1 h2 ▸ exec_unescLonefesc n s
  case lit => exact decodeUnesc_lit hb n ▸ exec_unescLit b n s
  case stuffFesc => exact exec_decodeStuff8 FESC s
  case stuffLit => exact stuffByte_lit h1 h2 ▸ exec_decodeStuff8 b s

/-- Settles O23: the four cases of the scan, each with the row read for it. -/
theorem unescapeIsItsRows : Obligations.UnescapeIsItsRows := by
  intro s b rest
  rcases unescapeSeq_cases b rest with ⟨r, rfl, rfl, hseq⟩ | ⟨r, rfl, rfl, hseq⟩ | ⟨hhead, hseq⟩
  · exact ⟨[FEND], 2, exec_unescFend s, by decide, by simp, hseq⟩
  · exact ⟨[FESC], 2, exec_unescFesc s, by decide, by simp, hseq⟩
  · refine ⟨[b], 1, ?_, le_rfl, by simp, hseq⟩
    by_cases hb : b = FESC
    · subst hb
      obtain ⟨h1, h2⟩ := hhead rfl
      rw [decodeUnesc_lone h1 h2, exec_unescLonefesc]
    · rw [decodeUnesc_lit hb, exec_unescLit]

/-- R137: the machine at either value of its bit. That the bit is set says that one FESC was read and not yet put out. -/
theorem escRun_eq (q : List Byte) : escRun false q = unescapeSeq q ∧ escRun true q = unescapeSeq (FESC :: q) := by
  induction q with
  | nil => exact ⟨rfl, rfl⟩
  | cons b q ih =>
    obtain ⟨ihFalse, ihTrue⟩ := ih
    constructor
    · by_cases hb : b = FESC
      · subst hb; simpa [escRun, escStep] using ihTrue
      · simp [escRun, escStep, hb, unescapeSeq_lit hb, ihFalse]
    · by_cases h1 : b = TFEND
      · subst h1; simp [escRun, escStep, ihFalse]
      · by_cases h2 : b = TFESC
        · subst h2; simp [escRun, escStep, ihFalse, h1]
        · rw [unescapeSeq_lone (by simpa using h1) (by simpa using h2)]
          by_cases h3 : b = FESC
          · subst h3; simp [escRun, escStep, ihTrue, h1, h2]
          · simp [escRun, escStep, h1, h2, h3, unescapeSeq_lit h3, ihFalse]

theorem exec_unescape (q : List Byte) (s : State) :
    exec (.unescape q) s = .next (s.emitAll [.codec (.unescaped (unescapeSeq q))]) := rfl

/-- Settles O24. -/
theorem unescapeEqualsOneBitMachine : Obligations.UnescapeEqualsOneBitMachine := by
  intro s q
  obtain ⟨hfalse, -⟩ := escRun_eq q
  rw [hfalse, exec_unescape]

/-! #### The rows of TYPE8, and DECODE -/

theorem exec_decode (f : List Byte) (s : State) :
    exec (.decode f) s = .next (s.emitAll [.codec (.dec (decodeFrame f))]) := rfl

/-- R84, R134: a one-byte row by the length of its payload. -/
theorem oneByteRow_spec (k : Kind) (p c : Nibble) (payload : List Byte) (s : State) :
    (payload.length = 1 →
      oneByteRow k p c payload s = .next (s.emitAll [.codec (.dec (.ok payload p c k))])) ∧
    (payload.length ≠ 1 →
      oneByteRow k p c payload s = .next (s.emitAll [.codec (.dec (.invalidFrame .fixedLen))])) :=
  ⟨fun h => if_pos h, fun h => if_neg h⟩

/-- Settles O20: each row answers by the length its payload may have. -/
theorem typeRowsAnswer : Obligations.TypeRowsAnswer := by
  refine fun s p payload => ⟨rfl, rfl, ⟨rfl, rfl, rfl, rfl, rfl, rfl, rfl, rfl, rfl⟩, ?oneByte, rfl, fun h => ?exitPayload⟩
  case oneByte =>
    exact ⟨oneByteRow_spec _ p _ payload s, oneByteRow_spec _ p _ payload s, oneByteRow_spec _ p _ payload s,
      oneByteRow_spec _ p _ payload s, oneByteRow_spec _ p _ payload s⟩
  case exitPayload => exact if_neg (by simpa using h)

/-- R134, R139: a length the type byte does not allow. -/
theorem decodeTail_fixedLen {t : Byte} {q : List Byte} (h : takesOneByte (cmdOf t) = true) (hq : q.length ≠ 1) :
    decodeTail t q = .invalidFrame .fixedLen := if_pos ⟨h, hq⟩

/-- R135, R139: ExitKissMode with a payload. Its command code is none of the one-byte commands'. -/
theorem decodeTail_exitPayload {q : List Byte} (hq : q ≠ []) : decodeTail 0xFF#8 q = .invalidFrame .exitPayload := by
  have hone : takesOneByte (cmdOf 0xFF#8) = false := by decide
  simp [decodeTail, hone, hq]

/-- R130, R138: any other payload is the result. -/
theorem decodeTail_accepts {t : Byte} {q : List Byte} (h1 : takesOneByte (cmdOf t) = true → q.length = 1)
    (h2 : t = 0xFF#8 → q = []) :
    decodeTail t q = .ok q (portOf t) (cmdOf t) (kindOf (portOf t) (cmdOf t)) := by
  unfold decodeTail
  rw [if_neg (fun h => h.2 (h1 h.1)), if_neg (fun h => h.2 (by rw [h2 h.1]; rfl))]

theorem takesOneByte_iff (c : Nibble) : takesOneByte c = true ↔ 1 ≤ c.toNat ∧ c.toNat ≤ 5 := by
  simp [takesOneByte]

/-- Whatever DECODE gives is answered, so each check of R139 is one law of `decodeFrame`. -/
theorem exec_decode_of_eq {f : List Byte} {r : DecResult} (h : decodeFrame f = r) (s : State) :
    exec (.decode f) s = .next (s.emitAll [.codec (.dec r)]) := h ▸ exec_decode f s

/-- R81: FRAME answers what DECODE answers for the frame its fields name. -/
theorem exec_frame (t : Byte) (body : List Byte) (s : State) :
    exec (.frame (portOf t) (cmdOf t) body) s = exec (.decode (frameOf t body)) s := by
  simp only [exec, execFrame, execDecode, packType_portOf_cmdOf]

theorem exec_decode_frameOf {t : Byte} {body : List Byte} {r : DecResult} (h : decodeTail t (unescapeSeq body) = r)
    (s : State) : exec (.decode (frameOf t body)) s = .next (s.emitAll [.codec (.dec r)]) :=
  exec_decode_of_eq (h ▸ decodeFrame_frameOf t body) s

theorem decodeFrame_tooShort {f : List Byte} (h : f.length < 3) : decodeFrame f = .invalidFrame .tooShort := if_pos h

theorem decodeFrame_noLeadingFend {f : List Byte} (hlen : 3 ≤ f.length) (h : f.head? ≠ some FEND) :
    decodeFrame f = .invalidFrame .noLeadingFend := by
  rw [decodeFrame, if_neg (by omega), if_pos h]

theorem decodeFrame_noTrailingFend {f : List Byte} (hlen : 3 ≤ f.length) (hfirst : f.head? = some FEND)
    (h : f.getLast? ≠ some FEND) : decodeFrame f = .invalidFrame .noTrailingFend := by
  rw [decodeFrame, if_neg (by omega), if_neg (by simpa using hfirst), if_pos h]

/-- Settles O21: the framing checks, then on a frame the length check of its type byte. -/
theorem decodeChecksInOrder : Obligations.DecodeChecksInOrder := by
  refine fun s f t body => ⟨fun hlen => exec_decode_of_eq (decodeFrame_tooShort hlen) s,
    fun hlen hfirst => exec_decode_of_eq (decodeFrame_noLeadingFend hlen hfirst) s,
    fun hlen hfirst hlast => exec_decode_of_eq (decodeFrame_noTrailingFend hlen hfirst hlast) s, fun i hi => ?framed⟩
  case framed =>
    have hanswer : ∀ r, decodeTail t (unescapeSeq body) = r → exec i s = .next (s.emitAll [.codec (.dec r)]) := by
      intro r hr
      rcases hi with rfl | rfl
      · exact exec_decode_frameOf hr s
      · rw [exec_frame, exec_decode_frameOf hr]
    refine ⟨fun hlow hhigh hlen => ?_, fun hff hne => ?_, fun hone hexit => ?_⟩
    · exact hanswer _ (decodeTail_fixedLen ((takesOneByte_iff _).2 ⟨hlow, hhigh⟩) hlen)
    · subst hff; exact hanswer _ (decodeTail_exitPayload hne)
    · have hlen : takesOneByte (cmdOf t) = true → (unescapeSeq body).length = 1 := fun h => by
        obtain ⟨hlow, hhigh⟩ := (takesOneByte_iff _).1 h
        exact hone hlow hhigh
      exact hanswer _ (decodeTail_accepts hlen hexit)

/-- R84, R134: a one-byte row answers what DECODE answers for a type byte of its command code. -/
theorem oneByteRow_eq {k : Kind} {p c : Nibble} (hc : takesOneByte c = true) (hk : kindOf p c = k) (q : List Byte) (s : State) :
    oneByteRow k p c q s = .next (s.emitAll [.codec (.dec (decodeTail (packType p c) q))]) := by
  have hff : packType p c ≠ 0xFF#8 := by
    rw [Ne, packType_eq_ff]; rintro ⟨-, rfl⟩; exact absurd hc (by decide)
  obtain ⟨hone, hother⟩ := oneByteRow_spec k p c q s
  by_cases hlen : q.length = 1
  · rw [hone hlen, decodeTail_accepts (fun _ => hlen) (fun h => absurd h hff), portOf_packType,
      cmdOf_packType, hk]
  · rw [hother hlen, decodeTail_fixedLen (by rwa [cmdOf_packType]) hlen]

/-- R84, R86: so does a row whose payload has any length. -/
theorem anyLengthRow_eq {k : Kind} {p c : Nibble} (hc : takesOneByte c = false) (hff : packType p c ≠ 0xFF#8)
    (hk : kindOf p c = k) (q : List Byte) (s : State) :
    anyLengthRow k p c q s = .next (s.emitAll [.codec (.dec (decodeTail (packType p c) q))]) := by
  rw [decodeTail_accepts (by simp [hc]) (fun h => absurd h hff), portOf_packType, cmdOf_packType, hk]; rfl

/-- R85, R135: and so does ExitKissMode. -/
theorem exec_exitkiss_eq (q : List Byte) (s : State) :
    exec (.exitkiss q) s = .next (s.emitAll [.codec (.dec (decodeTail 0xFF#8 q))]) := by
  show execExitkiss q s = _
  unfold execExitkiss
  split
  case isTrue hlen =>
    rw [decodeTail_accepts (fun h => absurd h (by decide)) (fun _ => List.length_eq_zero_iff.1 hlen)]; rfl
  case isFalse hlen => rw [decodeTail_exitPayload (by simpa using hlen)]; rfl

/-- R84 to R87: the row read for a type byte answers what DECODE answers after its framing checks. -/
theorem exec_decodeType8 (t : Byte) (q : List Byte) (s : State) :
    exec (decodeType8 t q) s = .next (s.emitAll [.codec (.dec (decodeTail t q))]) := by
  rcases eq_ff_or_eq_packType t with rfl | ⟨p, c, rfl, hff, hp⟩
  · exact exec_exitkiss_eq q s
  · rcases nibble_cases c with hany | hone | rfl <;> simp only [decodeType8, portOf_packType, cmdOf_packType, hff]
    · rcases hany with rfl | rfl | rfl | rfl | rfl | rfl | rfl | rfl | rfl | rfl <;> exact anyLengthRow_eq rfl hff rfl q s
    · rcases hone with rfl | rfl | rfl | rfl | rfl <;> exact oneByteRow_eq rfl rfl q s
    · exact anyLengthRow_eq rfl hff (by simp [kindOf, hp rfl]) q s

/-- Settles O22. -/
theorem decodeAgreesWithTypeRows : Obligations.DecodeAgreesWithTypeRows := fun s t body => by
  rw [exec_decodeType8]; exact exec_decode_frameOf rfl s

/-! #### ENCODE and DECODE -/

/-- R153 in the terms of DECODE's length check. -/
theorem decodeTail_of_validTriple {p : List Byte} {port cmd : Nibble} (h : ValidTriple p port cmd) :
    decodeTail (packType port cmd) p = .ok p port cmd (kindOf port cmd) := by
  obtain ⟨hone, hexit⟩ := h
  rw [decodeTail_accepts, portOf_packType, cmdOf_packType]
  · intro htakes
    rw [cmdOf_packType, takesOneByte_iff] at htakes
    exact hone htakes.1 htakes.2
  · intro hff
    obtain ⟨hport, hcmd⟩ := (packType_eq_ff port cmd).1 hff
    exact List.length_eq_zero_iff.1 (hexit hport hcmd)

/-- R141: DECODE after ENCODE. -/
theorem decodeFrame_encoded {p : List Byte} {port cmd : Nibble} (h : ValidTriple p port cmd) :
    decodeFrame (frameOf (packType port cmd) (stuffSeq p)) = .ok p port cmd (kindOf port cmd) := by
  rw [decodeFrame_frameOf, unescapeSeq_stuffSeq, decodeTail_of_validTriple h]

/-- Settles O26. -/
theorem decodeInvertsEncode : Obligations.DecodeInvertsEncode := fun p port cmd h =>
  ⟨_, encodeFrame_toNat p port cmd, decodeFrame_encoded h⟩

theorem frameOf_inj {t t' : Byte} {body body' : List Byte} (h : frameOf t body = frameOf t' body') :
    t = t' ∧ body = body' := by
  have hbody := congrArg bodyOf h
  rw [bodyOf_frameOf, bodyOf_frameOf] at hbody
  exact ⟨by simpa [frameOf, hbody] using h, hbody⟩

theorem stuffSeq_inj {p q : List Byte} (h : stuffSeq p = stuffSeq q) : p = q := by
  rw [← unescapeSeq_stuffSeq p, h, unescapeSeq_stuffSeq]

/-- Settles O30: the type byte gives back the port index and the command, the body the payload. -/
theorem encodeIsInjective : Obligations.EncodeIsInjective := by
  intro p q f port port' cmd cmd' hport hport' hp hq
  obtain ⟨-, rfl⟩ := encodeFrame_ok hp
  obtain ⟨-, hframe⟩ := encodeFrame_ok hq
  obtain ⟨htype, hbody⟩ := frameOf_inj hframe
  obtain ⟨hports, hcmd⟩ := packType_inj htype
  refine ⟨stuffSeq_inj hbody, ?_, hcmd⟩
  have hnat := congrArg BitVec.toNat hports
  rwa [BitVec.toNat_ofNat, BitVec.toNat_ofNat, Nat.mod_eq_of_lt (by omega), Nat.mod_eq_of_lt (by omega)] at hnat

/-! #### Escaped bodies -/

/-- R95: no FEND, and every FESC begins a recognised pair. -/
def Escaped (q : List Byte) : Prop :=
  (∀ b ∈ q, b ≠ FEND) ∧ ∀ i, q[i]? = some FESC → q[i + 1]? = some TFEND ∨ q[i + 1]? = some TFESC

/-- No FESC begins a recognised pair (R140). -/
def Pairless (q : List Byte) : Prop :=
  ∀ i, q[i]? = some FESC → q[i + 1]? ≠ some TFEND ∧ q[i + 1]? ≠ some TFESC

@[simp] theorem escaped_nil : Escaped [] := by simp [Escaped]

/-- The first byte of an escaped body, and the rest, which is one again. -/
theorem escaped_cons (b : Byte) (q : List Byte) :
    Escaped (b :: q) ↔ b ≠ FEND ∧ (b = FESC → q.head? = some TFEND ∨ q.head? = some TFESC) ∧ Escaped q := by
  rw [List.head?_eq_getElem?]
  constructor
  · rintro ⟨hfend, hpair⟩
    exact ⟨hfend b (by simp), fun hb => by simpa using hpair 0 (by simp [hb]), fun x hx => hfend x (by simp [hx]),
      fun i hi => by simpa using hpair (i + 1) (by simpa using hi)⟩
  · rintro ⟨hb, hhead, hfend, hpair⟩
    refine ⟨by simpa [hb] using hfend, fun i hi => ?_⟩
    cases i with
    | zero => simpa using hhead (by simpa using hi)
    | succ i => simpa using hpair i (by simpa using hi)

@[simp] theorem pairless_nil : Pairless [] := by simp [Pairless]

theorem pairless_cons (b : Byte) (q : List Byte) :
    Pairless (b :: q) ↔ (b = FESC → q.head? ≠ some TFEND ∧ q.head? ≠ some TFESC) ∧ Pairless q := by
  rw [List.head?_eq_getElem?]
  constructor
  · intro h
    exact ⟨fun hb => by simpa using h 0 (by simp [hb]), fun i hi => by simpa using h (i + 1) (by simpa using hi)⟩
  · rintro ⟨hhead, htail⟩ i hi
    cases i with
    | zero => simpa using hhead (by simpa using hi)
    | succ i => simpa using htail i (by simpa using hi)

theorem escaped_stuffByte_append (b : Byte) {q : List Byte} (h : Escaped q) : Escaped (stuffByte b ++ q) := by
  have hbytes : FESC ≠ FEND ∧ TFEND ≠ FEND ∧ TFESC ≠ FEND ∧ TFEND ≠ FESC ∧ TFESC ≠ FESC := by decide
  by_cases h1 : b = FEND
  · subst h1; simp [escaped_cons, h, hbytes]
  · by_cases h2 : b = FESC
    · subst h2; simp [escaped_cons, h, hbytes]
    · simp [stuffByte_lit h1 h2, escaped_cons, h, h1, h2]

/-- R152: a stuffed payload is escaped. -/
theorem escaped_stuffSeq (p : List Byte) : Escaped (stuffSeq p) := by
  induction p with
  | nil => exact escaped_nil
  | cons b p ih => rw [stuffSeq_cons]; exact escaped_stuffByte_append b ih

/-- R142: the escaped bodies are those that stuffing the payload gives back, by the cases of the scan. -/
theorem stuffSeq_unescapeSeq {q : List Byte} (h : Escaped q) : stuffSeq (unescapeSeq q) = q := by
  match q with
  | [] => rfl
  | b :: q =>
    obtain ⟨hb, hhead, hq⟩ := (escaped_cons b q).1 h
    rcases unescapeSeq_cases b q with ⟨r, rfl, rfl, hseq⟩ | ⟨r, rfl, rfl, hseq⟩ | ⟨hlone, hseq⟩
    · obtain ⟨-, -, hr⟩ := (escaped_cons TFEND r).1 hq
      simp [hseq, stuffSeq_unescapeSeq hr]
    · obtain ⟨-, -, hr⟩ := (escaped_cons TFESC r).1 hq
      simp [hseq, stuffSeq_unescapeSeq hr]
    · have hfesc : b ≠ FESC := fun hc => by
        obtain ⟨h1, h2⟩ := hlone hc
        rcases hhead hc with hx | hx <;> contradiction
      simp [hseq, stuffByte_lit hb hfesc, stuffSeq_unescapeSeq hq]

theorem stuffSeq_unescapeSeq_iff (q : List Byte) : stuffSeq (unescapeSeq q) = q ↔ Escaped q :=
  ⟨fun h => h ▸ escaped_stuffSeq (unescapeSeq q), stuffSeq_unescapeSeq⟩

/-- R95 on a frame given by its fields. -/
theorem canonical_frameOf (t : Byte) (body : List Byte) : Canonical (frameOf t body) ↔ Escaped body := by
  unfold Canonical
  rw [bodyOf_frameOf]
  exact ⟨fun ⟨_, _, _, hfend, hpair⟩ => ⟨hfend, hpair⟩,
    fun ⟨hfend, hpair⟩ => ⟨by simp, by simp [frameOf], by simp [frameOf], hfend, hpair⟩⟩

/-- What DECODE gives is a valid triple (R153). -/
theorem validTriple_of_decodeFrame {f p : List Byte} {port cmd : Nibble} {k : Kind}
    (h : decodeFrame f = .ok p port cmd k) : ValidTriple p port cmd := by
  obtain ⟨-, -, -, -, hone, hexit⟩ := decodeFrame_ok h
  exact ⟨fun hlow hhigh => hone ((takesOneByte_iff cmd).2 ⟨hlow, hhigh⟩), fun hp hc => by rw [hexit hp hc]; rfl⟩

/-- Settles O27: encoding gives a frame with the same type byte, whose body is the same exactly if it was escaped. -/
theorem encodeInvertsDecodeOnCanonicalFrames : Obligations.EncodeInvertsDecodeOnCanonicalFrames := by
  intro f p port cmd k h
  have hvalid := validTriple_of_decodeFrame h
  obtain ⟨body, rfl, rfl, rfl, -, -⟩ := decodeFrame_ok h
  refine ⟨?_, _, encodeFrame_toNat _ port cmd, by rw [decodeFrame_encoded hvalid, h]⟩
  rw [encodeFrame_toNat, canonical_frameOf, ← stuffSeq_unescapeSeq_iff, EncResult.ok.injEq]
  exact ⟨fun hframe => (frameOf_inj hframe).2, fun hbody => by rw [hbody]⟩

/-- The bytes of a frame from index 2 on are those of its body. -/
theorem frameOf_getElem? {t : Byte} {body : List Byte} {i : Nat} (h : i < body.length) :
    (frameOf t body)[i + 2]? = body[i]? := by
  simp [frameOf, List.getElem?_append_left h]

/-- Settles O29: the positions spoken of are those of the body, which is escaped. -/
theorem encodedBodyIsEscaped : Obligations.EncodedBodyIsEscaped := by
  intro f p port cmd h i hi hlast
  obtain ⟨-, rfl⟩ := encodeFrame_ok h
  obtain ⟨hfend, hpair⟩ := escaped_stuffSeq p
  obtain ⟨j, rfl⟩ : ∃ j, i = j + 2 := ⟨i - 2, by omega⟩
  have hj : j < (stuffSeq p).length := by rw [frameOf_length] at hlast; omega
  rw [frameOf_getElem? hj]
  refine ⟨fun hc => hfend FEND (List.mem_of_getElem? hc) rfl, fun hfesc => ?_⟩
  have hnext : j + 1 < (stuffSeq p).length := by
    rcases hpair j hfesc with hx | hx <;> exact (List.getElem?_eq_some_iff.1 hx).1
  rw [show j + 2 + 1 = (j + 1) + 2 from rfl, frameOf_getElem? hnext]
  exact hpair j hfesc

/-! #### Lengths -/

/-- R140: a recognised pair shortens by one byte, and nothing else does. -/
theorem unescapeSeq_length (q : List Byte) :
    (q.length + 1) / 2 ≤ (unescapeSeq q).length ∧ (unescapeSeq q).length ≤ q.length ∧
      ((unescapeSeq q).length = q.length ↔ Pairless q) := by
  match q with
  | [] => simp
  | b :: q =>
    rcases unescapeSeq_cases b q with ⟨r, rfl, rfl, hseq⟩ | ⟨r, rfl, rfl, hseq⟩ | ⟨hlone, hseq⟩
    · obtain ⟨hlow, hhigh, -⟩ := unescapeSeq_length r
      have hpair : ¬ Pairless (FESC :: TFEND :: r) := fun h => by simp [pairless_cons] at h
      simp only [hseq, List.length_cons, hpair, iff_false]
      omega
    · obtain ⟨hlow, hhigh, -⟩ := unescapeSeq_length r
      have hpair : ¬ Pairless (FESC :: TFESC :: r) := fun h => by simp [pairless_cons] at h
      simp only [hseq, List.length_cons, hpair, iff_false]
      omega
    · obtain ⟨hlow, hhigh, heq⟩ := unescapeSeq_length q
      rw [hseq, pairless_cons, ← heq]
      simp only [List.length_cons]
      refine ⟨by omega, by omega, fun h => ⟨hlone, by omega⟩, fun ⟨_, h⟩ => by omega⟩

/-- R154: one byte more for each FEND and each FESC. -/
theorem stuffSeq_length (p : List Byte) : (stuffSeq p).length = p.length + p.count FEND + p.count FESC := by
  induction p with
  | nil => rfl
  | cons b p ih =>
    rw [stuffSeq_cons, List.length_append, ih, List.length_cons, List.count_cons, List.count_cons]
    by_cases h1 : b = FEND
    · subst h1; simp [show FEND ≠ FESC by decide]; omega
    · by_cases h2 : b = FESC
      · subst h2; simp [h1]; omega
      · simp [stuffByte_lit h1 h2, h1, h2]; omega

theorem count_fend_add_count_fesc_le (p : List Byte) : p.count FEND + p.count FESC ≤ p.length := by
  induction p with
  | nil => simp
  | cons b p ih =>
    have hdistinct : b = FEND → b ≠ FESC := by rintro rfl; decide
    rw [List.length_cons, List.count_cons, List.count_cons]
    split_ifs <;> simp_all <;> omega

/-- Settles O28. -/
theorem codecLengths : Obligations.CodecLengths := by
  refine ⟨fun f p port cmd k h => ?decoded, fun f p port cmd h => ?encoded⟩
  case decoded =>
    obtain ⟨body, rfl, rfl, -⟩ := decodeFrame_ok h
    rw [frameOf_length, bodyOf_frameOf, Nat.add_sub_cancel]
    exact unescapeSeq_length body
  case encoded =>
    obtain ⟨-, rfl⟩ := encodeFrame_ok h
    have hcount := count_fend_add_count_fesc_le p
    rw [frameOf_length, stuffSeq_length]
    omega

end Sys2Proof.Machine

/-! ### Proofs: the segmenter and the assembler -/

namespace Sys2Proof.Machine

/-! #### Calls on an assembler that takes them -/

section

variable {s : State} {d : Dir} (hopen : s.openTo d)

include hopen

theorem exec_drd_of_open : exec (.drd d) s = .next (s.drd d) := whenSoleSource_of_open hopen

theorem exec_processbyte_of_open (b : Byte) :
    exec (.processbyte d b) s = .next ((s.processByte d b).1.answer (.processed d (s.processByte d b).2)) :=
  whenSoleSource_of_open hopen

/-- R41, R91: FEED and the STREAM8 rows are the same call. -/
theorem exec_feedsByte_of_open {i : Instr} {b : Byte} (hi : FeedsByte i d b) :
    exec i s = .next ((s.feed d b).1.answer (.fed d (s.feed d b).2)) := by
  rw [exec_of_feedsByte hi]; exact whenSoleSource_of_open hopen

end

theorem feedsByte_feed (d : Dir) (b : Byte) : FeedsByte (.feed d b) d b := .inl rfl

/-- Settles O15: a second source is refused, whichever of the calls it makes. -/
theorem formsWithoutMeaningAreRefused : Obligations.FormsWithoutMeaningAreRefused := by
  refine ⟨fun s d b i hruns hi => ?secondSource, fun s => rfl⟩
  case secondSource =>
    rcases hi with hi | rfl | rfl
    · rw [exec_of_feedsByte hi]; exact whenSoleSource_refused hruns
    · exact whenSoleSource_refused hruns
    · exact whenSoleSource_refused hruns

theorem State.drd_of_ne {s : State} {d : Dir} (h : ∀ w, s.acc.get d ≠ w ++ [FEND, FEND]) : s.drd d = s := by
  simp [State.drd, State.setAcc, drdAcc_of_ne h]

/-- Settles O7. -/
theorem drdRemovesOneRepeatedFend : Obligations.DrdRemovesOneRepeatedFend := by
  intro s d hopen
  rw [exec_drd_of_open hopen]
  refine ⟨fun w hw => ?_, fun hne => by rw [State.drd_of_ne hne]⟩
  rw [State.drd, hw, drdAcc_append]; rfl

/-! #### PROCESSBYTE -/

/-- R113: on an assembler that is not faulted and does not overflow, PROCESSBYTE changes the accumulator and answers. -/
theorem exec_processbyte_of_eq {s : State} {d : Dir} {b : Byte} {acc acc' : List Byte} {r : Option (List Byte × Bool)}
    (hopen : s.openTo d) (hovf : s.ovf.get d = false) (hacc : s.acc.get d = acc)
    (h : processByteAcc s.cfg.accDepth acc b = ⟨acc', r, false⟩) :
    exec (.processbyte d b) s = .next ({ s with acc := s.acc.set d acc' }.emitAll [.codec (.processed d r)]) := by
  subst hacc
  have hkeep : s.ovf.set d false = s.ovf := by rw [← hovf, PerDir.set_get]
  rw [exec_processbyte_of_open hopen, State.processByte_result s d b hovf, State.processByte_eq, h]
  simp [hovf, hkeep, State.answer_eq_emitAll]

/-- Settles O9: the accumulator's form and the byte choose the row of R114. -/
theorem processByteCases : Obligations.ProcessByteCases := by
  intro s d x y w hopen hovf hroom hx hy hw
  refine ⟨fun hacc => ?empty, fun hacc => ?opened, fun hacc => ?delimited, fun hacc => ?undelimited⟩
  all_goals rw [hacc] at hroom
  case empty =>
    exact ⟨exec_processbyte_of_eq hopen hovf hacc (processByteAcc_open hroom),
      exec_processbyte_of_eq hopen hovf hacc (processByteAcc_data hx hroom)⟩
  case opened =>
    exact ⟨exec_processbyte_of_eq hopen hovf hacc (processByteAcc_discard _),
      exec_processbyte_of_eq hopen hovf hacc (processByteAcc_data hx hroom)⟩
  case delimited =>
    exact ⟨exec_processbyte_of_eq hopen hovf hacc (processByteAcc_close hroom),
      exec_processbyte_of_eq hopen hovf hacc (processByteAcc_data hy hroom)⟩
  case undelimited =>
    exact ⟨exec_processbyte_of_eq hopen hovf hacc (processByteAcc_close_norm hx hroom),
      exec_processbyte_of_eq hopen hovf hacc (processByteAcc_data hy hroom)⟩

/-! #### FEED -/

section

variable {s : State} {d : Dir} {b : Byte} {i : Instr} {acc : List Byte} (hopen : s.openTo d)
  (hovf : s.ovf.get d = false) (hclean : AccClean s d) (hi : FeedsByte i d b) (hacc : s.acc.get d = acc)

include hopen hovf hclean hi hacc

/-- R114, R170: a FEED that completes no frame. -/
theorem exec_feed_collects {acc' : List Byte} (h : processByteAcc s.cfg.accDepth acc b = ⟨acc', none, false⟩) :
    exec i s = .next ({ s with acc := s.acc.set d acc' }.emitAll [.codec (.fed d none)]) := by
  subst hacc
  rw [exec_feedsByte_of_open hopen hi, State.feed_none hovf hclean h]; rfl

/-- R114, R170: a FEED that completes a frame. -/
theorem exec_feed_closes {acc' f : List Byte} {n : Bool}
    (h : processByteAcc s.cfg.accDepth acc b = ⟨acc', some (f, n), false⟩) :
    exec i s = .next ((({ s with acc := s.acc.set d acc' }.emitAll [.frame d f n]).handOff d f n).emitAll
      [.codec (.fed d (some (f, n)))]) := by
  subst hacc
  rw [exec_feedsByte_of_open hopen hi, State.feed_some hovf hclean h]; rfl

end

/-- Settles O10. -/
theorem feedCollects : Obligations.FeedCollects := by
  refine fun s d x i hopen hovf hclean hroom => ⟨fun hx hi => ?data, fun hacc hi => ?opens⟩
  case data => exact exec_feed_collects hopen hovf hclean hi rfl (processByteAcc_data hx hroom)
  case opens =>
    rw [hacc] at hroom
    exact exec_feed_collects hopen hovf hclean hi hacc (processByteAcc_open hroom)

/-- An accumulator that holds FEND, if at all, only in front (R23). -/
theorem accClean_of_acc_eq {s : State} {d : Dir} {x : Byte} {w : List Byte} (hacc : s.acc.get d = x :: w)
    (hw : ∀ b ∈ w, b ≠ FEND) : AccClean s d := accClean_of_tail (hacc ▸ hw)

/-- Settles O11. -/
theorem feedClosesFrame : Obligations.FeedClosesFrame := by
  refine fun s d x w i hopen hovf hroom hx hw hi => ⟨fun hacc => ?delimited, fun hacc => ?undelimited⟩
  all_goals rw [hacc] at hroom
  case delimited =>
    have hclean : AccClean s d := accClean_of_acc_eq hacc (by simpa [hx] using hw)
    exact exec_feed_closes hopen hovf hclean hi hacc (processByteAcc_close hroom)
  case undelimited =>
    have hclean : AccClean s d := accClean_of_acc_eq hacc hw
    exact exec_feed_closes hopen hovf hclean hi hacc (processByteAcc_close_norm hx hroom)

end Sys2Proof.Machine

/-! ### Proofs: the moves of an operation -/

namespace Sys2Proof.Machine

/-- The events a step outside the relay's own transports gives: frames, records, log events and answers. -/
def quietEvent : Event → Bool
  | .frame _ _ _ | .obs _ _ _ | .log _ _ _ | .codec _ => true
  | .rxByte _ _ | .rxFail _ | .txWrite _ _ _ | .listenBind _ _ _ | .accepted | .serOpen _ _ _ | .serClose | .tcpClose
  | .unexpected | .reset => false

/-- What a call on the codec or an assembler and a step of a task leave alone (R22, R225, R263): the engine, the pumps, the transports
and what these are offered. -/
structure QuietStep (s t : State) : Prop where
  eng : t.eng = s.eng
  pump : t.pump = s.pump
  phase : t.phase = s.phase
  tcp : t.tcp = s.tcp
  ser : t.ser = s.ser
  lsn : t.lsn = s.lsn
  cfg : t.cfg = s.cfg
  sched : t.sched = s.sched
  env : ∃ handoff describer, t.env = { s.env with handoff := handoff, describer := describer }
  trace : ∃ more, t.trace = s.trace ++ more ∧ ∀ e ∈ more, quietEvent e = true ∧ CarriesConfig s.cfg e

theorem QuietStep.refl (s : State) : QuietStep s s :=
  ⟨rfl, rfl, rfl, rfl, rfl, rfl, rfl, rfl, ⟨_, _, rfl⟩, [], by simp, by simp⟩

theorem QuietStep.trans {s t u : State} (h1 : QuietStep s t) (h2 : QuietStep t u) : QuietStep s u := by
  obtain ⟨a1, d1, he1⟩ := h1.env
  obtain ⟨a2, d2, he2⟩ := h2.env
  obtain ⟨m1, ht1, hm1⟩ := h1.trace
  obtain ⟨m2, ht2, hm2⟩ := h2.trace
  refine ⟨h2.eng.trans h1.eng, h2.pump.trans h1.pump, h2.phase.trans h1.phase, h2.tcp.trans h1.tcp, h2.ser.trans h1.ser,
    h2.lsn.trans h1.lsn, h2.cfg.trans h1.cfg, h2.sched.trans h1.sched, ⟨a2, d2, by rw [he2, he1]⟩, m1 ++ m2,
    by rw [ht2, ht1, List.append_assoc], fun e he => ?_⟩
  rw [h1.cfg] at hm2
  exact (List.mem_append.1 he).elim (hm1 e) (hm2 e)

theorem quietStep_answer (s : State) (a : Answer) : QuietStep s (s.answer a) :=
  ⟨rfl, rfl, rfl, rfl, rfl, rfl, rfl, rfl, ⟨_, _, rfl⟩, [.codec a], rfl, by simp [quietEvent, CarriesConfig]⟩

theorem quietStep_drd (s : State) (d : Dir) : QuietStep s (s.drd d) :=
  ⟨rfl, rfl, rfl, rfl, rfl, rfl, rfl, rfl, ⟨_, _, rfl⟩, [], by simp, by simp⟩

theorem quietStep_processByte (s : State) (d : Dir) (b : Byte) : QuietStep s (s.processByte d b).1 := by
  rw [State.processByte_eq]
  refine ⟨rfl, rfl, rfl, rfl, rfl, rfl, rfl, rfl, ⟨_, _, rfl⟩, _, rfl, ?_⟩
  split <;> simp [quietEvent, CarriesConfig]

theorem quietStep_frameEvent (s : State) (d : Dir) (f : List Byte) (n : Bool) : QuietStep s (s.frameEvent d f n) := by
  obtain ⟨env, c, tasks, more, heq, ⟨rest, henv⟩, -, hmore⟩ := s.frameEvent_cases d f n
  rw [heq]
  refine ⟨rfl, rfl, rfl, rfl, rfl, rfl, rfl, rfl, ⟨rest, s.env.describer, henv⟩, [.frame d f n] ++ more,
    List.append_assoc _ _ _, ?_⟩
  rcases hmore with rfl | rfl <;> simp [quietEvent, CarriesConfig]

theorem quietStep_feed (s : State) (d : Dir) (b : Byte) : QuietStep s (s.feed d b).1 := by
  have hbyte := (quietStep_drd s d).trans (quietStep_processByte (s.drd d) d b)
  rw [State.feed_eq]
  split
  case h_1 fn _ => exact hbyte.trans (quietStep_frameEvent _ d fn.1 fn.2)
  case h_2 => exact hbyte

/-! #### Calls and tasks -/

/-- What a call on the codec or on an assembler can do (R41), the case that it is not enabled included (R26). -/
inductive CallMove (s : State) : State → Prop
  | stays : CallMove s s
  | answers (a : Answer) : CallMove s (s.answer a)
  | feeds (d : Dir) (b : Byte) : s.openTo d → CallMove s ((s.feed d b).1.answer (.fed d (s.feed d b).2))
  | drops (d : Dir) : s.openTo d → CallMove s (s.drd d)
  | processes (d : Dir) (b : Byte) :
    s.openTo d → CallMove s ((s.processByte d b).1.answer (.processed d (s.processByte d b).2))

theorem CallMove.quiet {s t : State} (h : CallMove s t) : QuietStep s t := by
  cases h with
  | stays => exact .refl s
  | answers a => exact quietStep_answer s a
  | feeds d b => exact (quietStep_feed s d b).trans (quietStep_answer _ _)
  | drops d => exact quietStep_drd s d
  | processes d b => exact (quietStep_processByte s d b).trans (quietStep_answer _ _)

/-- What a step of the task at place `k` can do (R221): put another stage of the task in its place, with records or log events and
perhaps an answer of the describer taken, or remove it. -/
inductive DispatchMove (s : State) (k : Nat) : State → Prop
  | replaces (t task : Task) (rest : List DescAnswer) (free : Nat) (more : List Event) :
    s.inflight[k]? = some t → task.frame = t.frame → (TaskSound t → TaskSound task) →
    (∀ e ∈ more, relayEvent e = false ∧ CarriesConfig s.cfg e) →
    DispatchMove s k { s with
      env := { s.env with describer := rest }, trace := s.trace ++ more, inflight := s.inflight.set k task,
      freeDescriber := free }
  | removes (t : Task) :
    s.inflight[k]? = some t → DispatchMove s k { s with inflight := s.inflight.eraseIdx k }

theorem execDispatch_moves {s t : State} {k : Nat} (h : execDispatch k s = .next t) : t = s ∨ DispatchMove s k t := by
  rcases execDispatch_cases s k with he | ⟨task, hk, ⟨task', rest, free, more, hf, -, hsound, hmore, he⟩ | he⟩ <;>
    (rw [he] at h; cases h)
  · exact .inl rfl
  · exact .inr (.replaces task task' rest free more hk hf hsound hmore)
  · exact .inr (.removes task hk)

/-- The events of a task are records and log events. -/
theorem quietEvent_of_relayEvent {e : Event} (h : relayEvent e = false) : quietEvent e = true := by
  cases e <;> simp_all [relayEvent, quietEvent]

theorem DispatchMove.quiet {s t : State} {k : Nat} (h : DispatchMove s k t) : QuietStep s t := by
  cases h with
  | replaces t task rest free more hk hf hsound hmore =>
    refine ⟨rfl, rfl, rfl, rfl, rfl, rfl, rfl, rfl, ⟨s.env.handoff, rest, rfl⟩, more, rfl, fun e he => ?_⟩
    obtain ⟨hrelay, hcarries⟩ := hmore e he
    exact ⟨quietEvent_of_relayEvent hrelay, hcarries⟩
  | removes => exact ⟨rfl, rfl, rfl, rfl, rfl, rfl, rfl, rfl, ⟨_, _, rfl⟩, [], by simp, by simp⟩

/-! #### The pumps -/

/-- The state after a transport failure of direction `d` (R243, R260): the event `e` that brought it, the transport the pump writes to
closed, the failure logged, the pump stopped in AwaitRead. -/
def State.afterFailure (s : State) (d : Dir) (env : Env) (e : Event) (f : Failure) : State :=
  { s with
    ser := if d = .n2m then .closed else s.ser, tcp := if d = .m2n then .closed else s.tcp,
    phase := s.phase.set d .awaitRead, pump := s.pump.set d .stopped, env := env,
    trace := s.trace ++ [e, if d = .n2m then .serClose else .tcpClose, .log s.cfg.instName f none] }

/-- The state after a byte was read (R181, R182): taken, fed, and held for its write. -/
def State.afterRead (s : State) (d : Dir) (b : Byte) (rest : List RxOffer) : State :=
  ((s.takeByte d b rest).feed d b).1.setPhase d (.awaitWrite b)

/-- What a pump leaves alone when it takes a byte, and what it adds to the port history. -/
structure ReadFrame (s : State) (d : Dir) (b : Byte) (rest : List RxOffer) (t : State) : Prop where
  eng : t.eng = s.eng
  pump : t.pump = s.pump
  phase : t.phase = s.phase.set d (.awaitWrite b)
  tcp : t.tcp = s.tcp
  ser : t.ser = s.ser
  lsn : t.lsn = s.lsn
  cfg : t.cfg = s.cfg
  sched : t.sched = s.sched
  env : ∃ handoff describer,
    t.env = { s.env with rx := s.env.rx.set d rest, handoff := handoff, describer := describer }
  trace : ∃ more, t.trace = s.trace ++ .rxByte d b :: more ∧ ∀ e ∈ more, quietEvent e = true ∧ CarriesConfig s.cfg e

theorem afterRead_frame (s : State) (d : Dir) (b : Byte) (rest : List RxOffer) :
    ReadFrame s d b rest (s.afterRead d b rest) := by
  have hquiet := quietStep_feed (s.takeByte d b rest) d b
  obtain ⟨more, htrace, hmore⟩ := hquiet.trace
  refine ⟨hquiet.eng, hquiet.pump, ?_, hquiet.tcp, hquiet.ser, hquiet.lsn, hquiet.cfg, hquiet.sched, hquiet.env, more, ?_,
    hmore⟩
  · rw [State.afterRead, State.setPhase_phase, hquiet.phase]; rfl
  · rw [State.afterRead, State.setPhase_trace, htrace]; simp [State.takeByte]

/-- What a running pump can do with what it is offered (R181, R182). -/
inductive PumpMove (s : State) (d : Dir) : State → Prop
  | readFails (rest : List RxOffer) :
    s.pumpRuns d → s.phase.get d = .awaitRead → s.env.rx.get d = .fail :: rest →
    PumpMove s d (s.afterFailure d { s.env with rx := s.env.rx.set d rest } (.rxFail d) (readFailure d))
  | reads (b : Byte) (rest : List RxOffer) :
    s.pumpRuns d → s.phase.get d = .awaitRead → s.env.rx.get d = .byte b :: rest →
    PumpMove s d (s.afterRead d b rest)
  | writes (b : Byte) (rest : List Bool) :
    s.pumpRuns d → s.phase.get d = .awaitWrite b → s.env.tx.get d = true :: rest →
    PumpMove s d { s with
      phase := s.phase.set d .awaitRead, env := { s.env with tx := s.env.tx.set d rest },
      trace := s.trace ++ [.txWrite d b true] }
  | writeFails (b : Byte) (rest : List Bool) :
    s.pumpRuns d → s.phase.get d = .awaitWrite b → s.env.tx.get d = false :: rest →
    PumpMove s d (s.afterFailure d { s.env with tx := s.env.tx.set d rest } (.txWrite d b false) (writeFailure d))

theorem pumpStep_moves (s : State) (d : Dir) : pumpStep s d = s ∨ PumpMove s d (pumpStep s d) := by
  rcases pumpStep_cases s d with h | ⟨hr, ⟨hp, ⟨rest, hrx, h⟩ | ⟨b, rest, hrx, h⟩⟩ | ⟨b, hp, ok, rest, htx, h⟩⟩
  · exact .inl h
  · rw [h, pumpRead_fail hrx]; exact .inr (.readFails rest hr hp hrx)
  · rw [h]; exact .inr (.reads b rest hr hp hrx)
  · cases ok
    · rw [h, pumpWrite_fail htx]; exact .inr (.writeFails b rest hr hp htx)
    · rw [h, pumpWrite_ok htx]; exact .inr (.writes b rest hr hp htx)

theorem PumpMove.runs {s t : State} {d : Dir} (h : PumpMove s d t) : s.pumpRuns d := by cases h <;> assumption

/-! #### The engine -/

/-- The rows of the engine's table with what each does (R191 to R197). -/
inductive EngineMove (s : State) : Instr → State → Prop
  | binds (rest : List Bool) : s.eng = .idle → s.env.bind = true :: rest →
    EngineMove s .engBind { s with
      lsn := .bound, eng := .listening, env := { s.env with bind := rest },
      trace := s.trace ++ [.listenBind s.cfg.listenPort s.cfg.loopbackOnly true] }
  | bindFails (rest : List Bool) : s.eng = .idle → s.env.bind = false :: rest →
    EngineMove s .engBind { s with
      eng := .dead, env := { s.env with bind := rest },
      trace := s.trace ++
        [.listenBind s.cfg.listenPort s.cfg.loopbackOnly false, .log s.cfg.instName .bindFail none] }
  | accepts (n : Nat) : s.eng = .listening → s.env.accepted = n + 1 →
    EngineMove s .engAccept { s with
      tcp := .opened, eng := .connected, env := { s.env with accepted := n }, trace := s.trace ++ [.accepted] }
  | opens (rest : List Bool) : s.eng = .connected → s.env.serOpen = true :: rest →
    EngineMove s .engOpen { s with
      ser := .opened, phase := .both .awaitRead, pump := .both .running, eng := .relaying,
      env := { s.env with serOpen := rest }, trace := s.trace ++ [.serOpen s.cfg.serDevice s.cfg.baud true] }
  | openFails (rest : List Bool) : s.eng = .connected → s.env.serOpen = false :: rest →
    EngineMove s .engOpen { s with
      tcp := .closed, eng := .listening, env := { s.env with serOpen := rest },
      trace := s.trace ++
        [.serOpen s.cfg.serDevice s.cfg.baud false, .log s.cfg.instName .serialOpenFail none, .tcpClose] }
  | joins : s.eng = .relaying → s.pump = .both .stopped → EngineMove s .engJoin { s with eng := .tornDown }
  | tearsDown : s.eng = .tornDown →
    EngineMove s .engTeardown { s with
      ser := .closed, tcp := .closed, eng := .listening,
      acc := if s.cfg.flushOnTeardown then .both [] else s.acc, trace := s.trace ++ [.serClose, .tcpClose] }
  | dies (n : Nat) : s.eng ≠ .idle → s.eng ≠ .dead → s.env.unexpected = n + 1 →
    EngineMove s .engFatal { s with
      eng := .dead, env := { s.env with unexpected := n },
      trace := s.trace ++ [.unexpected, .log s.cfg.instName .unexpected none] }

theorem engineStep_moves {i : Instr} {s t : State} (hi : i ∈ engineSteps) (h : exec i s = .next t) :
    t = s ∨ EngineMove s i t := by
  simp only [engineSteps, List.mem_cons, List.not_mem_nil, or_false] at hi
  rcases hi with rfl | rfl | rfl | rfl | rfl | rfl
  · rcases execEngBind_cases s with he | ⟨heng, rest, ⟨hb, he⟩ | ⟨hb, he⟩⟩ <;> cases he.symm.trans h
    · exact .inl rfl
    · exact .inr (.binds rest heng hb)
    · exact .inr (.bindFails rest heng hb)
  · rcases execEngAccept_cases s with he | ⟨heng, n, hn, he⟩ <;> cases he.symm.trans h
    · exact .inl rfl
    · exact .inr (.accepts n heng hn)
  · rcases execEngOpen_cases s with he | ⟨heng, rest, ⟨hb, he⟩ | ⟨hb, he⟩⟩ <;> cases he.symm.trans h
    · exact .inl rfl
    · exact .inr (.opens rest heng hb)
    · exact .inr (.openFails rest heng hb)
  · rcases execEngJoin_cases s with he | ⟨heng, hn2m, hm2n, he⟩ <;> cases he.symm.trans h
    · exact .inl rfl
    · exact .inr (.joins heng (PerDir.ext_get fun d => by cases d <;> simpa))
  · rcases execEngTeardown_cases s with he | ⟨heng, he⟩ <;> cases he.symm.trans h
    · exact .inl rfl
    · exact .inr (.tearsDown heng)
  · rcases execEngFatal_cases s with he | ⟨h1, h2, n, hn, he⟩ <;> cases he.symm.trans h
    · exact .inl rfl
    · exact .inr (.dies n h1 h2 hn)

/-! #### Any operation -/

/-- Every operation that answers a next state is a call, a step of a task, of a pump or of the engine. -/
theorem exec_moves {i : Instr} {s t : State} (h : exec i s = .next t) :
    CallMove s t ∨ (∃ k, i = .dispatch k ∧ DispatchMove s k t) ∨ (∃ d, i = pumpOf d ∧ PumpMove s d t) ∨
      EngineMove s i t := by
  rcases exec_cases h with ⟨-, rfl⟩ | ⟨a, rfl⟩ | ⟨d, b, hd, rfl⟩ | ⟨d, hd, rfl⟩ | ⟨d, b, hd, rfl⟩ | ⟨d, hi, rfl⟩ | hi |
    ⟨k, rfl, hk⟩
  · exact .inl .stays
  · exact .inl (.answers a)
  · exact .inl (.feeds d b hd)
  · exact .inl (.drops d hd)
  · exact .inl (.processes d b hd)
  · rcases pumpStep_moves s d with hs | hs
    · rw [hs]; exact .inl .stays
    · exact .inr (.inr (.inl ⟨d, hi, hs⟩))
  · rcases engineStep_moves hi h with rfl | hs
    · exact .inl .stays
    · exact .inr (.inr (.inr hs))
  · rcases execDispatch_moves hk with rfl | hs
    · exact .inl .stays
    · exact .inr (.inl ⟨k, rfl, hs⟩)

/-- The same with the first two kinds taken together: what the relay sees of an operation. -/
theorem exec_relayMoves {i : Instr} {s t : State} (h : exec i s = .next t) :
    QuietStep s t ∨ (∃ d, i = pumpOf d ∧ PumpMove s d t) ∨ EngineMove s i t := by
  rcases exec_moves h with hcall | ⟨k, -, hdispatch⟩ | hpump | hengine
  · exact .inl hcall.quiet
  · exact .inl hdispatch.quiet
  · exact .inr (.inl hpump)
  · exact .inr (.inr hengine)

end Sys2Proof.Machine

/-! ### Proofs: what every step keeps -/

namespace Sys2Proof.Machine

/-! #### The configuration on records and log events -/

/-- R35: no operation writes the configuration, and each event it gives carries it (R40, R230, R255). -/
theorem exec_appends {i : Instr} {s t : State} (h : exec i s = .next t) :
    t.cfg = s.cfg ∧ ∃ more, t.trace = s.trace ++ more ∧ ∀ e ∈ more, CarriesConfig s.cfg e := by
  rcases exec_relayMoves h with hquiet | ⟨d, -, hpump⟩ | hengine
  · obtain ⟨more, htrace, hmore⟩ := hquiet.trace
    exact ⟨hquiet.cfg, more, htrace, fun e he => (hmore e he).2⟩
  · cases hpump with
    | readFails rest => exact ⟨rfl, _, rfl, by cases d <;> simp [CarriesConfig]⟩
    | reads b rest =>
      have hread := afterRead_frame s d b rest
      obtain ⟨more, htrace, hmore⟩ := hread.trace
      refine ⟨hread.cfg, _, htrace, fun e he => ?_⟩
      rcases List.mem_cons.1 he with rfl | he
      · trivial
      · exact (hmore e he).2
    | writes b rest => exact ⟨rfl, _, rfl, by simp [CarriesConfig]⟩
    | writeFails b rest => exact ⟨rfl, _, rfl, by cases d <;> simp [CarriesConfig]⟩
  · cases hengine with
    | joins => exact ⟨rfl, [], by simp, by simp⟩
    | _ => exact ⟨rfl, _, rfl, by simp [CarriesConfig]⟩

theorem exec_keeps_configInv {i : Instr} {s t : State} (hinv : ConfigInv s) (h : exec i s = .next t) : ConfigInv t := by
  obtain ⟨hcfg, more, htrace, hmore⟩ := exec_appends h
  intro e he
  rw [htrace] at he
  rw [hcfg]
  exact (List.mem_append.1 he).elim (hinv e) (hmore e)

theorem applyReset_keeps_configInv {s : State} (hinv : ConfigInv s) : ConfigInv s.applyReset := by
  intro e he
  rcases List.mem_append.1 (show e ∈ s.trace ++ [.reset] from he) with he | he
  · exact hinv e he
  · obtain rfl := List.mem_singleton.1 he; trivial

theorem step_keeps_cfg {s t : State} (h : step s = .next t) : t.cfg = s.cfg :=
  step_keeps (fun u => u.cfg = s.cfg) (fun _ hu => hu) (fun _ _ hu => hu) (fun _ _ _ hu he => (exec_appends he).1.trans hu)
    h rfl

/-- Settles O58. -/
theorem everyStepKeepsConfigCarried : Obligations.EveryStepKeepsConfigCarried := fun _ _ hinv h =>
  ⟨step_keeps ConfigInv (fun _ hs => applyReset_keeps_configInv hs) (fun _ _ hs => hs)
    (fun _ _ _ hs he => exec_keeps_configInv hs he) h hinv, step_keeps_cfg h⟩

/-! #### Transparency -/

/-- The events that start a relay iteration (R195) in the sense of `iterationBytes`. -/
def startsIteration : Event → Bool
  | .serOpen _ _ true | .reset => true
  | _ => false

theorem iterationBytes_concat_of_starts {e : Event} (h : startsIteration e = true) (pick : Event → List Byte)
    (es : List Event) : iterationBytes pick (es ++ [e]) = [] := by
  rw [iterationBytes, List.foldl_append]
  cases e with
  | serOpen device baud ok => cases ok <;> simp [startsIteration] at h ⊢
  | reset => rfl
  | _ => simp [startsIteration] at h

/-- Within an iteration the bytes of later events follow those of earlier ones. -/
theorem iterationBytes_append {more : List Event} (h : ∀ e ∈ more, startsIteration e = false)
    (pick : Event → List Byte) (es : List Event) :
    iterationBytes pick (es ++ more) = iterationBytes pick es ++ more.flatMap pick := by
  rw [iterationBytes, List.foldl_append, ← iterationBytes]
  generalize iterationBytes pick es = acc
  induction more generalizing acc with
  | nil => simp
  | cons e more ih =>
    obtain ⟨he, hmore⟩ := List.forall_mem_cons.1 h
    rw [List.foldl_cons, ih hmore, List.flatMap_cons, ← List.append_assoc]
    congr 1
    cases e with
    | serOpen device baud ok => cases ok <;> simp [startsIteration] at he ⊢
    | reset => simp [startsIteration] at he
    | _ => rfl

theorem startsIteration_of_quiet {e : Event} (h : quietEvent e = true) : startsIteration e = false := by
  cases e <;> simp_all [quietEvent, startsIteration]

theorem deliveredBy_of_quiet {e : Event} (h : quietEvent e = true) (d : Dir) : deliveredBy d e = [] := by
  cases e <;> simp_all [quietEvent, deliveredBy]

theorem forwardedBy_of_quiet {e : Event} (h : quietEvent e = true) (d : Dir) : forwardedBy d e = [] := by
  cases e <;> simp_all [quietEvent, forwardedBy]

theorem flatMap_deliveredBy_of_quiet {more : List Event} (h : ∀ e ∈ more, quietEvent e = true) (d : Dir) :
    more.flatMap (deliveredBy d) = [] :=
  List.flatMap_eq_nil_iff.2 fun e he => deliveredBy_of_quiet (h e he) d

theorem flatMap_forwardedBy_of_quiet {more : List Event} (h : ∀ e ∈ more, quietEvent e = true) (d : Dir) :
    more.flatMap (forwardedBy d) = [] :=
  List.flatMap_eq_nil_iff.2 fun e he => forwardedBy_of_quiet (h e he) d

/-- Transparency is kept by events within an iteration that put the byte in hand, then what they deliver, where what they forward and
the byte then in hand are. -/
theorem transparentInv_of_append {s t : State} {more : List Event} (hinv : TransparentInv s)
    (htrace : t.trace = s.trace ++ more) (hmore : ∀ e ∈ more, startsIteration e = false)
    (hbytes : ∀ d, heldBytes (s.phase.get d) ++ more.flatMap (deliveredBy d) =
      more.flatMap (forwardedBy d) ++ heldBytes (t.phase.get d)) : TransparentInv t := by
  intro d
  rw [htrace, delivered, forwarded, iterationBytes_append hmore, iterationBytes_append hmore]
  have h := hinv d
  rw [delivered, forwarded] at h
  rw [h, List.append_assoc, hbytes, List.append_assoc]

/-- At the start of an iteration nothing was delivered, nothing forwarded, and no pump holds a byte. -/
theorem transparentInv_of_starts {t : State} {es : List Event} {e : Event} (htrace : t.trace = es ++ [e])
    (he : startsIteration e = true) (hphase : t.phase = .both .awaitRead) : TransparentInv t := by
  intro d
  rw [htrace, delivered, forwarded, iterationBytes_concat_of_starts he, iterationBytes_concat_of_starts he, hphase,
    PerDir.get_both]
  rfl

/-- The byte a pump puts in hand or out of it stands in its own direction only. -/
theorem heldBytes_get_set (x : PerDir Phase) (d e : Dir) (p : Phase) :
    heldBytes ((x.set d p).get e) = if e = d then heldBytes p else heldBytes (x.get e) := by
  rw [PerDir.get_set]; split <;> rfl

theorem QuietStep.keeps_transparentInv {s t : State} (h : QuietStep s t) (hinv : TransparentInv s) : TransparentInv t := by
  obtain ⟨more, htrace, hmore⟩ := h.trace
  have hquiet : ∀ e ∈ more, quietEvent e = true := fun e he => (hmore e he).1
  refine transparentInv_of_append hinv htrace (fun e he => startsIteration_of_quiet (hquiet e he)) fun d => ?_
  rw [flatMap_deliveredBy_of_quiet hquiet, flatMap_forwardedBy_of_quiet hquiet, h.phase]; simp

theorem PumpMove.keeps_transparentInv {s t : State} {d : Dir} (h : PumpMove s d t) (hinv : TransparentInv s) :
    TransparentInv t := by
  cases h with
  | readFails rest hruns hphase hrx =>
    refine transparentInv_of_append hinv rfl (by cases d <;> simp [startsIteration]) fun e => ?_
    simp only [State.afterFailure, heldBytes_get_set]
    by_cases he : e = d
    · subst he; cases e <;> simp [hphase, heldBytes, deliveredBy, forwardedBy]
    · cases d <;> simp [he, deliveredBy, forwardedBy]
  | reads b rest hruns hphase hrx =>
    have hread := afterRead_frame s d b rest
    obtain ⟨more, htrace, hmore⟩ := hread.trace
    have hquiet : ∀ e ∈ more, quietEvent e = true := fun e he => (hmore e he).1
    refine transparentInv_of_append hinv htrace
      (List.forall_mem_cons.2 ⟨rfl, fun e he => startsIteration_of_quiet (hquiet e he)⟩) fun e => ?_
    rw [List.flatMap_cons, List.flatMap_cons, flatMap_deliveredBy_of_quiet hquiet, flatMap_forwardedBy_of_quiet hquiet,
      hread.phase, heldBytes_get_set]
    by_cases he : e = d
    · subst he; simp [hphase, heldBytes, deliveredBy, forwardedBy]
    · simp [he, Ne.symm he, deliveredBy, forwardedBy]
  | writes b rest hruns hphase htx =>
    refine transparentInv_of_append hinv rfl (by simp [startsIteration]) fun e => ?_
    simp only [heldBytes_get_set]
    by_cases he : e = d
    · subst he; simp [hphase, heldBytes, deliveredBy, forwardedBy]
    · simp [he, Ne.symm he, deliveredBy, forwardedBy]
  | writeFails b rest hruns hphase htx =>
    refine transparentInv_of_append hinv rfl (by cases d <;> simp [startsIteration]) fun e => ?_
    simp only [State.afterFailure, heldBytes_get_set]
    by_cases he : e = d
    · subst he; cases e <;> simp [hphase, heldBytes, deliveredBy, forwardedBy]
    · cases d <;> simp [he, Ne.symm he, deliveredBy, forwardedBy]

theorem EngineMove.keeps_transparentInv {s t : State} {i : Instr} (h : EngineMove s i t) (hinv : TransparentInv s) :
    TransparentInv t := by
  cases h with
  | opens rest => exact transparentInv_of_starts rfl rfl rfl
  | joins => exact transparentInv_of_append (more := []) hinv (by simp) (by simp) (by simp)
  | _ =>
    exact transparentInv_of_append hinv rfl (by simp [startsIteration]) fun d => by simp [deliveredBy, forwardedBy]

theorem exec_keeps_transparentInv {i : Instr} {s t : State} (hinv : TransparentInv s) (h : exec i s = .next t) :
    TransparentInv t := by
  rcases exec_relayMoves h with hquiet | ⟨d, -, hpump⟩ | hengine
  · exact hquiet.keeps_transparentInv hinv
  · exact hpump.keeps_transparentInv hinv
  · exact hengine.keeps_transparentInv hinv

theorem applyReset_transparentInv (s : State) : TransparentInv s.applyReset := transparentInv_of_starts rfl rfl rfl

/-- Settles O38: each step keeps transparency, so what was forwarded is the front of what was delivered. -/
theorem relayIsTransparent : Obligations.RelayIsTransparent := by
  intro s t hinv h
  have hkept : TransparentInv t :=
    step_keeps TransparentInv (fun u _ => applyReset_transparentInv u) (fun _ _ hu => hu)
      (fun _ _ _ hu he => exec_keeps_transparentInv hu he) h hinv
  exact ⟨hkept, fun d => ⟨_, (hkept d).symm⟩⟩

/-! #### The life cycle -/

/-- The invariant of the life cycle reads these elements only. -/
theorem lifeInv_congr {s t : State} (heng : t.eng = s.eng) (hpump : t.pump = s.pump) (hphase : t.phase = s.phase)
    (htcp : t.tcp = s.tcp) (hser : t.ser = s.ser) (hlsn : t.lsn = s.lsn) (h : LifeInv s) : LifeInv t := by
  unfold LifeInv at h ⊢
  rwa [heng, hpump, hphase, htcp, hser, hlsn]

theorem lifeInv_relaying {s : State} (heng : s.eng = .relaying) :
    LifeInv s ↔ s.lsn = .bound ∧ (s.ser = .opened ↔ s.pump.n2m = .running) ∧ (s.tcp = .opened ↔ s.pump.m2n = .running) ∧
      ∀ d, s.pump.get d = .stopped → s.phase.get d = .awaitRead := by
  unfold LifeInv; rw [heng]

theorem QuietStep.keeps_lifeInv {s t : State} (h : QuietStep s t) (hinv : LifeInv s) : LifeInv t :=
  lifeInv_congr h.eng h.pump h.phase h.tcp h.ser h.lsn hinv

/-- R243: a failed pump is stopped in AwaitRead, and the transport it writes to is closed. -/
theorem afterFailure_keeps_lifeInv {s : State} (heng : s.eng = .relaying) (hinv : LifeInv s) (d : Dir) (env : Env)
    (e : Event) (f : Failure) : LifeInv (s.afterFailure d env e f) := by
  obtain ⟨hlsn, hser, htcp, hphase⟩ := (lifeInv_relaying heng).1 hinv
  refine (lifeInv_relaying (s := s.afterFailure d env e f) heng).2 ⟨hlsn, ?_, ?_, fun e => ?_⟩
  · cases d <;> simp [State.afterFailure, PerDir.set, hser]
  · cases d <;> simp [State.afterFailure, PerDir.set, htcp]
  · simp only [State.afterFailure, PerDir.get_set]
    split
    · exact fun _ => rfl
    · exact hphase e

/-- A running pump may be in either phase. -/
theorem lifeInv_of_phase {s t : State} {d : Dir} (hruns : s.pumpRuns d) (hinv : LifeInv s) {p : Phase}
    (heng : t.eng = s.eng) (hpump : t.pump = s.pump) (hphase : t.phase = s.phase.set d p) (htcp : t.tcp = s.tcp)
    (hser : t.ser = s.ser) (hlsn : t.lsn = s.lsn) : LifeInv t := by
  obtain ⟨hrelaying, hrunning⟩ := hruns
  obtain ⟨hl, hs, ht, hph⟩ := (lifeInv_relaying hrelaying).1 hinv
  rw [lifeInv_relaying (heng.trans hrelaying), hlsn, hser, htcp, hpump, hphase]
  refine ⟨hl, hs, ht, fun e he => ?_⟩
  have hne : e ≠ d := by rintro rfl; simp [hrunning] at he
  rw [PerDir.get_set, if_neg hne]
  exact hph e he

theorem PumpMove.keeps_lifeInv {s t : State} {d : Dir} (h : PumpMove s d t) (hinv : LifeInv s) : LifeInv t := by
  cases h with
  | readFails rest hruns | writeFails b rest hruns => exact afterFailure_keeps_lifeInv hruns.1 hinv d _ _ _
  | reads b rest hruns =>
    have hread := afterRead_frame s d b rest
    exact lifeInv_of_phase hruns hinv hread.eng hread.pump hread.phase hread.tcp hread.ser hread.lsn
  | writes b rest hruns => exact lifeInv_of_phase hruns hinv rfl rfl rfl rfl rfl rfl

theorem EngineMove.keeps_lifeInv {s t : State} {i : Instr} (h : EngineMove s i t) (hinv : LifeInv s) : LifeInv t := by
  have hclosed : ∀ {l : Link}, l ≠ .opened → l = .closed := fun {l} h => by cases l <;> simp at h ⊢
  cases h with
  | binds rest heng =>
    rw [LifeInv, heng] at hinv
    obtain ⟨-, htcp, hser, hstopped⟩ := hinv
    exact ⟨rfl, htcp, hser, hstopped⟩
  | accepts n heng | openFails rest heng =>
    rw [LifeInv, heng] at hinv
    obtain ⟨hlsn, -, hser, hstopped⟩ := hinv
    exact ⟨hlsn, rfl, hser, hstopped⟩
  | opens rest heng =>
    rw [LifeInv, heng] at hinv
    obtain ⟨hlsn, htcp, -⟩ := hinv
    exact ⟨hlsn, by simp [PerDir.both], by simp [PerDir.both, htcp], by simp⟩
  | joins heng hpump =>
    obtain ⟨hlsn, hser, htcp, hphase⟩ := (lifeInv_relaying heng).1 hinv
    rw [hpump] at hser htcp hphase
    exact ⟨hlsn, hclosed (by simp [htcp, PerDir.both]), hclosed (by simp [hser, PerDir.both]), hpump,
      PerDir.ext_get fun d => by simp [hphase d]⟩
  | tearsDown heng =>
    rw [LifeInv, heng] at hinv
    obtain ⟨hlsn, -, -, hstopped⟩ := hinv
    exact ⟨hlsn, rfl, rfl, hstopped⟩
  | bindFails | dies => trivial

theorem exec_keeps_lifeInv {i : Instr} {s t : State} (hinv : LifeInv s) (h : exec i s = .next t) : LifeInv t := by
  rcases exec_relayMoves h with hquiet | ⟨d, -, hpump⟩ | hengine
  · exact hquiet.keeps_lifeInv hinv
  · exact hpump.keeps_lifeInv hinv
  · exact hengine.keeps_lifeInv hinv

theorem resetWith_lifeInv (c : Cfg) : LifeInv (State.resetWith c) := ⟨rfl, rfl, rfl, rfl, rfl⟩

/-- Settles O55: each row of the engine's table and each step of a pump leads from one of the named states to one. -/
theorem everyStepKeepsLifeCycle : Obligations.EveryStepKeepsLifeCycle := fun _ _ hinv h =>
  step_keeps LifeInv (fun s _ => resetWith_lifeInv s.cfg) (fun _ _ hs => hs) (fun _ _ _ hs he => exec_keeps_lifeInv hs he)
    h hinv

/-! #### The accumulators -/

@[simp] theorem State.processByte_acc (s : State) (d : Dir) (b : Byte) :
    (s.processByte d b).1.acc = s.acc.set d (processByteAcc s.cfg.accDepth (s.acc.get d) b).acc := by
  rw [State.processByte_eq]

@[simp] theorem State.processByte_ovf (s : State) (d : Dir) (b : Byte) : (s.processByte d b).1.ovf =
    s.ovf.set d (s.ovf.get d || (processByteAcc s.cfg.accDepth (s.acc.get d) b).overflow) := by
  rw [State.processByte_eq]

@[simp] theorem State.feed_acc (s : State) (d : Dir) (b : Byte) :
    (s.feed d b).1.acc = s.acc.set d (processByteAcc s.cfg.accDepth (drdAcc (s.acc.get d)) b).acc := by
  obtain ⟨env, c, g, tasks, more, o, heq, -⟩ := s.feed_cases d b
  rw [heq]

@[simp] theorem State.feed_ovf (s : State) (d : Dir) (b : Byte) : (s.feed d b).1.ovf =
    s.ovf.set d (s.ovf.get d || (processByteAcc s.cfg.accDepth (drdAcc (s.acc.get d)) b).overflow) := by
  obtain ⟨env, c, g, tasks, more, o, heq, rfl, -⟩ := s.feed_cases d b
  rw [heq]

@[simp] theorem State.afterRead_acc (s : State) (d : Dir) (b : Byte) (rest : List RxOffer) :
    (s.afterRead d b rest).acc = s.acc.set d (processByteAcc s.cfg.accDepth (drdAcc (s.acc.get d)) b).acc :=
  State.feed_acc (s.takeByte d b rest) d b

@[simp] theorem State.afterRead_ovf (s : State) (d : Dir) (b : Byte) (rest : List RxOffer) : (s.afterRead d b rest).ovf =
    s.ovf.set d (s.ovf.get d || (processByteAcc s.cfg.accDepth (drdAcc (s.acc.get d)) b).overflow) :=
  State.feed_ovf (s.takeByte d b rest) d b

/-- What an operation can do to an accumulator under the capacity `depth` (R57): nothing, the flush, DRD, PROCESSBYTE, FEED. -/
inductive AccMove (depth : Option Nat) (acc : List Byte) : List Byte → Prop
  | keeps : AccMove depth acc acc
  | flushes : AccMove depth acc []
  | drops : AccMove depth acc (drdAcc acc)
  | processes (b : Byte) : AccMove depth acc (processByteAcc depth acc b).acc
  | feeds (b : Byte) : AccMove depth acc (processByteAcc depth (drdAcc acc) b).acc

/-- A move of one accumulator keeps the other. -/
theorem accMove_set {depth : Option Nat} {x : PerDir (List Byte)} {d : Dir} {v : List Byte}
    (h : AccMove depth (x.get d) v) (e : Dir) : AccMove depth (x.get e) ((x.set d v).get e) := by
  rw [PerDir.get_set]
  split
  · subst e; exact h
  · exact .keeps

theorem exec_accMove {i : Instr} {s t : State} (h : exec i s = .next t) (e : Dir) :
    AccMove s.cfg.accDepth (s.acc.get e) (t.acc.get e) := by
  rcases exec_moves h with hcall | ⟨k, -, hdispatch⟩ | ⟨d, -, hpump⟩ | hengine
  · cases hcall with
    | stays | answers a => exact .keeps
    | feeds d b => rw [State.answer_acc, State.feed_acc]; exact accMove_set (.feeds b) e
    | drops d => exact accMove_set .drops e
    | processes d b => rw [State.answer_acc, State.processByte_acc]; exact accMove_set (.processes b) e
  · cases hdispatch <;> exact .keeps
  · cases hpump with
    | reads b rest => rw [State.afterRead_acc]; exact accMove_set (.feeds b) e
    | readFails | writes | writeFails => exact .keeps
  · cases hengine with
    | tearsDown =>
      dsimp only
      split
      · rw [PerDir.get_both]; exact .flushes
      · exact .keeps
    | _ => exact .keeps

/-- R116: each of them keeps an accumulator clean. -/
theorem AccMove.clean {depth : Option Nat} {acc acc' : List Byte} (h : AccMove depth acc acc')
    (hclean : ∀ b ∈ acc.tail, b ≠ FEND) : ∀ b ∈ acc'.tail, b ≠ FEND := by
  have hdrd : ∀ b ∈ (drdAcc acc).tail, b ≠ FEND := fun b hb => hclean b (drdAcc_tail_subset acc b hb)
  cases h with
  | keeps => exact hclean
  | flushes => simp
  | drops => exact hdrd
  | processes b => exact processByteAcc_clean hclean
  | feeds b => exact processByteAcc_clean hdrd

/-- R21, R60: and within the capacity. -/
theorem AccMove.length_le {depth : Option Nat} {acc acc' : List Byte} (h : AccMove depth acc acc') {n : Nat}
    (hdepth : depth = some n) (hlen : acc.length ≤ n) : acc'.length ≤ n := by
  have hdrd : (drdAcc acc).length ≤ n := (drdAcc_length_le acc).trans hlen
  cases h with
  | keeps => exact hlen
  | flushes => simp
  | drops => exact hdrd
  | processes b => exact processByteAcc_length hdepth hlen
  | feeds b => exact processByteAcc_length hdepth hdrd

theorem exec_keeps_accInv {i : Instr} {s t : State} (hinv : AccInv s) (h : exec i s = .next t) : AccInv t := fun d =>
  accClean_of_tail ((exec_accMove h d).clean (accClean_tail (hinv d)))

theorem exec_keeps_depthInv {i : Instr} {s t : State} (hinv : DepthInv s) (h : exec i s = .next t) : DepthInv t := by
  obtain ⟨hcfg, -⟩ := exec_appends h
  intro d n hn
  rw [hcfg] at hn
  exact (exec_accMove h d).length_le hn (hinv d n hn)

theorem resetWith_accInv (c : Cfg) : AccInv (State.resetWith c) := fun d => accClean_of_tail (by simp [State.resetWith])

theorem resetWith_depthInv (c : Cfg) : DepthInv (State.resetWith c) := fun d n _ => by simp [State.resetWith]

/-- R24: the four conditions of a clean accumulator. -/
theorem accCondition_of_clean {acc : List Byte} (h : ∀ b ∈ acc.tail, b ≠ FEND) :
    (accCondition acc = some .empty ∧ acc = []) ∨ (accCondition acc = some .opened ∧ acc = [FEND]) ∨
    (accCondition acc = some .collectingDelimited ∧
      ∃ (x : Byte) (w : List Byte), acc = FEND :: x :: w ∧ acc.getLast? ≠ some FEND) ∨
    (accCondition acc = some .collectingUndelimited ∧
      ∃ (x : Byte) (w : List Byte), x ≠ FEND ∧ acc = x :: w ∧ acc.getLast? ≠ some FEND) := by
  match acc with
  | [] => exact .inl ⟨rfl, rfl⟩
  | [x] =>
    by_cases hx : x = FEND
    · subst hx; exact .inr (.inl ⟨by simp [accCondition], rfl⟩)
    · exact .inr (.inr (.inr ⟨by simp [accCondition, hx], x, [], hx, rfl, by simpa using hx⟩))
  | x :: y :: w =>
    have hlast : (x :: y :: w).getLast? ≠ some FEND := by
      rw [List.getLast?_cons_cons]
      exact fun hc => h FEND (List.mem_of_getLast? hc) rfl
    by_cases hx : x = FEND
    · subst hx
      refine .inr (.inr (.inl ⟨?_, y, w, rfl, hlast⟩))
      rw [accCondition, if_neg (by simp), if_neg (by simp), if_neg hlast, if_pos (by simp)]
    · refine .inr (.inr (.inr ⟨?_, x, y :: w, hx, rfl, hlast⟩))
      rw [accCondition, if_neg (by simp), if_neg (by simp), if_neg hlast, if_neg (by simpa using hx)]

/-- Settles O54. -/
theorem everyStepKeepsAccumulators : Obligations.EveryStepKeepsAccumulators := by
  refine ⟨fun s t h => ⟨fun hinv => ?clean, fun hinv => ?depth⟩,
    fun s d hclean => accCondition_of_clean (accClean_tail hclean)⟩
  case clean =>
    exact step_keeps AccInv (fun u _ => resetWith_accInv u.cfg) (fun _ _ hu => hu)
      (fun _ _ _ hu he => exec_keeps_accInv hu he) h hinv
  case depth =>
    exact step_keeps DepthInv (fun u _ => resetWith_depthInv u.cfg) (fun _ _ hu => hu)
      (fun _ _ _ hu he => exec_keeps_depthInv hu he) h hinv

/-! #### The overflow flags -/

/-- What an operation can do to a flag under the capacity `depth` (R30, R119): nothing, or what an append does. -/
inductive OvfMove (depth : Option Nat) (old : Bool) : Bool → Prop
  | keeps : OvfMove depth old old
  | appends (acc : List Byte) (b : Byte) : OvfMove depth old (old || (processByteAcc depth acc b).overflow)

/-- A move of one flag keeps the other. -/
theorem ovfMove_set {depth : Option Nat} {x : PerDir Bool} {d : Dir} {v : Bool} (h : OvfMove depth (x.get d) v) (e : Dir) :
    OvfMove depth (x.get e) ((x.set d v).get e) := by
  rw [PerDir.get_set]
  split
  · subst e; exact h
  · exact .keeps

theorem exec_ovfMove {i : Instr} {s t : State} (h : exec i s = .next t) (e : Dir) :
    OvfMove s.cfg.accDepth (s.ovf.get e) (t.ovf.get e) := by
  rcases exec_moves h with hcall | ⟨k, -, hdispatch⟩ | ⟨d, -, hpump⟩ | hengine
  · cases hcall with
    | stays | answers | drops => exact .keeps
    | feeds d b => rw [State.answer_ovf, State.feed_ovf]; exact ovfMove_set (.appends _ b) e
    | processes d b => rw [State.answer_ovf, State.processByte_ovf]; exact ovfMove_set (.appends _ b) e
  · cases hdispatch <;> exact .keeps
  · cases hpump with
    | reads b rest => rw [State.afterRead_ovf]; exact ovfMove_set (.appends _ b) e
    | readFails | writes | writeFails => exact .keeps
  · cases hengine <;> exact .keeps

theorem OvfMove.sticky {depth : Option Nat} {old new : Bool} (h : OvfMove depth old new) (hold : old = true) :
    new = true := by
  cases h with
  | keeps => exact hold
  | appends acc b => rw [hold, Bool.true_or]

theorem OvfMove.of_unbounded {old new : Bool} (h : OvfMove none old new) : new = old := by
  cases h with
  | keeps => rfl
  | appends acc b => rw [processByteAcc_none_overflow, Bool.or_false]

/-- R30: the flag is sticky. -/
theorem exec_ovf_sticky {i : Instr} {s t : State} {d : Dir} (hovf : s.ovf.get d = true) (h : exec i s = .next t) :
    t.ovf.get d = true := (exec_ovfMove h d).sticky hovf

/-- R30: with an unbounded accumulator the flag never changes. -/
theorem exec_ovf_of_unbounded {i : Instr} {s t : State} (hdepth : s.cfg.accDepth = none) (h : exec i s = .next t) :
    t.ovf = s.ovf :=
  PerDir.ext_get fun d => OvfMove.of_unbounded (hdepth ▸ exec_ovfMove h d)

/-! #### The frames and the tasks -/

/-- FEED of some byte to direction `d` hands out this frame (R113, R170). -/
def HandsOut (s : State) (d : Dir) (f : List Byte) (n : Bool) : Prop := ∃ b, (s.feed d b).2 = some (f, n)

/-- A FEED adds the frame event of the frame it returns, and no other. -/
theorem mem_feed_trace {s : State} {d e : Dir} {b : Byte} {f : List Byte} {n : Bool}
    (h : .frame e f n ∈ (s.feed d b).1.trace) : .frame e f n ∈ s.trace ∨ e = d ∧ (s.feed d b).2 = some (f, n) := by
  obtain ⟨env, c, g, tasks, more, o, heq, -, -, -, ⟨hnone, -, hmore⟩ | ⟨f', n', hsome, -, hmore⟩⟩ := s.feed_cases d b
  · rw [heq] at h
    refine .inl ((List.mem_append.1 h).resolve_right fun hin => ?_)
    rcases hmore with rfl | rfl <;> simp at hin
  · rw [heq] at h
    refine (List.mem_append.1 h).imp_right fun hin => ?_
    rw [hsome]
    rcases hmore with rfl | rfl <;> (simp at hin; simp [hin])

/-- A FEED adds the task of the frame it returns, and no other (R220). -/
theorem mem_feed_inflight {s : State} {d : Dir} {b : Byte} {task : Task} (h : task ∈ (s.feed d b).1.inflight) :
    task ∈ s.inflight ∨ ∃ f n, task = newTask d f n ∧ (s.feed d b).2 = some (f, n) := by
  obtain ⟨env, c, g, tasks, more, o, heq, -, -, -, ⟨-, rfl, -⟩ | ⟨f, n, hsome, htasks, -⟩⟩ := s.feed_cases d b
  · rw [heq] at h; exact .inl (by simpa using h)
  · rw [heq] at h
    refine (List.mem_append.1 h).imp_right fun hin => ⟨f, n, ?_, hsome⟩
    rcases htasks with rfl | rfl
    · simp at hin
    · simpa using hin

theorem handsOut_of_takeByte {s : State} {d e : Dir} {b : Byte} {rest : List RxOffer} {f : List Byte} {n : Bool}
    (h : HandsOut (s.takeByte d b rest) e f n) : HandsOut s e f n := by
  obtain ⟨c, hc⟩ := h
  exact ⟨c, by rw [State.feed_result] at hc ⊢; exact hc⟩

/-- Every frame event there is after an operation was there before, or is of a frame handed out. -/
theorem exec_frames {i : Instr} {s t : State} (h : exec i s = .next t) {d : Dir} {f : List Byte} {n : Bool}
    (hmem : .frame d f n ∈ t.trace) : .frame d f n ∈ s.trace ∨ HandsOut s d f n := by
  rcases exec_moves h with hcall | ⟨k, -, hdispatch⟩ | ⟨d', -, hpump⟩ | hengine
  · cases hcall with
    | stays | drops => exact .inl hmem
    | answers a => simp at hmem; exact .inl hmem
    | feeds d' b =>
      simp at hmem
      exact (mem_feed_trace hmem).imp_right fun ⟨hd, hsome⟩ => ⟨b, hd ▸ hsome⟩
    | processes d' b =>
      rw [State.answer_trace, State.processByte_eq] at hmem
      split at hmem <;> simp at hmem <;> exact .inl hmem
  · cases hdispatch with
    | removes => exact .inl hmem
    | replaces t' task rest free more hk hf hsound hmore =>
      exact .inl ((List.mem_append.1 hmem).resolve_right fun hin => by simpa [relayEvent] using hmore _ hin)
  · cases hpump with
    | reads b rest =>
      rcases mem_feed_trace hmem with hmem | ⟨rfl, hsome⟩
      · simp [State.takeByte] at hmem; exact .inl hmem
      · exact .inr (handsOut_of_takeByte ⟨b, hsome⟩)
    | writes b rest => simp at hmem; exact .inl hmem
    | readFails rest | writeFails b rest =>
      refine .inl ((List.mem_append.1 hmem).resolve_right fun hin => ?_)
      cases d' <;> simp at hin
  · cases hengine with
    | joins => exact .inl hmem
    | _ => simp at hmem; exact .inl hmem

/-- Every task after an operation was there before, was there before at another stage, or is of a frame handed out. -/
theorem exec_tasks {i : Instr} {s t : State} (h : exec i s = .next t) {task : Task} (hmem : task ∈ t.inflight) :
    (∃ task' ∈ s.inflight, task.frame = task'.frame ∧ (TaskSound task' → TaskSound task)) ∨
      ∃ d f n, task = newTask d f n ∧ HandsOut s d f n := by
  have hkept : task ∈ s.inflight →
      ∃ task' ∈ s.inflight, task.frame = task'.frame ∧ (TaskSound task' → TaskSound task) :=
    fun hin => ⟨task, hin, rfl, id⟩
  rcases exec_moves h with hcall | ⟨k, -, hdispatch⟩ | ⟨d, -, hpump⟩ | hengine
  · cases hcall with
    | stays | answers | drops => exact .inl (hkept hmem)
    | feeds d b =>
      exact (mem_feed_inflight hmem).imp hkept fun ⟨f, n, htask, hsome⟩ => ⟨d, f, n, htask, b, hsome⟩
    | processes d b => rw [State.answer_inflight, State.processByte_eq] at hmem; exact .inl (hkept hmem)
  · cases hdispatch with
    | removes => exact .inl (hkept (List.mem_of_mem_eraseIdx hmem))
    | replaces t' task' rest free more hk hf hsound =>
      rcases List.mem_or_eq_of_mem_set hmem with hin | rfl
      · exact .inl (hkept hin)
      · exact .inl ⟨t', List.mem_of_getElem? hk, hf, hsound⟩
  · cases hpump with
    | reads b rest =>
      exact (mem_feed_inflight hmem).imp hkept
        fun ⟨f, n, htask, hsome⟩ => ⟨d, f, n, htask, handsOut_of_takeByte ⟨b, hsome⟩⟩
    | readFails | writes | writeFails => exact .inl (hkept hmem)
  · cases hengine <;> exact .inl (hkept hmem)

theorem taskSound_newTask (d : Dir) (f : List Byte) (n : Bool) : TaskSound (newTask d f n) := trivial

theorem exec_keeps_tasksInv {i : Instr} {s t : State} (hinv : TasksInv s) (h : exec i s = .next t) : TasksInv t := by
  intro task hmem
  rcases exec_tasks h hmem with ⟨task', hin, -, hsound⟩ | ⟨d, f, n, rfl, -⟩
  · exact hsound (hinv task' hin)
  · exact taskSound_newTask d f n

theorem resetWith_tasksInv (c : Cfg) : TasksInv (State.resetWith c) := fun t ht => by simp [State.resetWith] at ht

/-- Settles O57. -/
theorem everyStepKeepsTasksSound : Obligations.EveryStepKeepsTasksSound := fun _ _ hinv h =>
  step_keeps TasksInv (fun s _ => resetWith_tasksInv s.cfg) (fun _ _ hs => hs)
    (fun _ _ _ hs he => exec_keeps_tasksInv hs he) h hinv

/-- R117: a frame handed out by an assembler that is clean and not faulted is well formed. -/
theorem HandsOut.wellFramed {s : State} {d : Dir} {f : List Byte} {n : Bool} (hovf : s.ovf.get d = false)
    (hclean : AccClean s d) (h : HandsOut s d f n) : WellFramed f := by
  obtain ⟨b, hb⟩ := h
  have hframe : (processByteAcc s.cfg.accDepth (drdAcc (s.acc.get d)) b).frame = some (f, n) := by
    rw [State.feed_result] at hb
    simpa [State.assemblerResult, hovf] using hb
  exact processByteAcc_frame_wellFramed (fun x hx => accClean_tail hclean x (drdAcc_tail_subset _ x hx)) hframe

theorem exec_keeps_framesInv {i : Instr} {s t : State} (hinv : FramesInv s) (h : exec i s = .next t) : FramesInv t := by
  obtain ⟨hdepth, hovf, hacc, hframes, htasks⟩ := hinv
  have hnew : ∀ {d f n}, HandsOut s d f n → WellFramed f := fun {d f n} hout =>
    hout.wellFramed (by rw [hovf, PerDir.get_both]) (hacc d)
  refine ⟨(exec_appends h).1 ▸ hdepth, (exec_ovf_of_unbounded hdepth h).trans hovf, exec_keeps_accInv hacc h,
    fun d f n hmem => ?_, fun task hmem => ?_⟩
  · exact (exec_frames h hmem).elim (hframes d f n) hnew
  · rcases exec_tasks h hmem with ⟨task', hin, hframe, -⟩ | ⟨d, f, n, rfl, hout⟩
    · exact hframe ▸ htasks task' hin
    · exact hnew hout

theorem applyReset_keeps_framesInv {s : State} (hinv : FramesInv s) : FramesInv s.applyReset := by
  obtain ⟨hdepth, -, -, hframes, -⟩ := hinv
  refine ⟨hdepth, rfl, resetWith_accInv s.cfg, fun d f n hmem => hframes d f n ?_,
    fun t ht => by simp [State.applyReset, State.resetWith] at ht⟩
  rcases List.mem_append.1 (show _ ∈ s.trace ++ [.reset] from hmem) with hin | hin
  · exact hin
  · simp at hin

/-- R143: DECODE of a well-formed frame passes the framing checks. -/
theorem decodeFrame_of_wellFramed {f : List Byte} {r : FrameReason} (hf : WellFramed f)
    (h : decodeFrame f = .invalidFrame r) : r = .fixedLen ∨ r = .exitPayload := by
  obtain ⟨hlen, hfirst, hlast, -⟩ := hf
  obtain ⟨t, body, rfl⟩ := frameOf_of_ends hlen hfirst hlast
  rw [decodeFrame_frameOf] at h
  unfold decodeTail at h
  split_ifs at h <;> cases h
  · exact .inl rfl
  · exact .inr rfl

/-- Settles O56: frames come from clean accumulators only, and the reset input gives none. -/
theorem everyStepKeepsFramesWellFormed : Obligations.EveryStepKeepsFramesWellFormed :=
  ⟨fun _ _ hinv h => step_keeps FramesInv (fun _ hs => applyReset_keeps_framesInv hs) (fun _ _ hs => hs)
    (fun _ _ _ hs he => exec_keeps_framesInv hs he) h hinv, fun _ _ hf h => decodeFrame_of_wellFramed hf h⟩

/-! #### At reset -/

theorem resetWith_transparentInv (c : Cfg) : TransparentInv (State.resetWith c) := fun d => by
  simp [State.resetWith, delivered, forwarded, iterationBytes, heldBytes]

theorem resetWith_configInv (c : Cfg) : ConfigInv (State.resetWith c) := fun e he => by simp [State.resetWith] at he

theorem resetWith_framesInv {c : Cfg} (hdepth : c.accDepth = none) : FramesInv (State.resetWith c) :=
  ⟨hdepth, rfl, resetWith_accInv c, fun d f n hmem => by simp [State.resetWith] at hmem,
    fun t ht => by simp [State.resetWith] at ht⟩

/-- Settles O59. -/
theorem invariantsHoldAtReset : Obligations.InvariantsHoldAtReset := fun c =>
  ⟨resetWith_accInv c, resetWith_depthInv c, resetWith_transparentInv c, resetWith_lifeInv c, resetWith_tasksInv c,
    resetWith_configInv c, resetWith_framesInv⟩

end Sys2Proof.Machine

/-! ### Proofs: streams through an assembler -/

namespace Sys2Proof.Machine

/-! #### A full accumulator -/

/-- R119: an append that finds no room sets the flag, logs and returns no frame, whether or not the flag was set. -/
theorem State.processByte_of_overflow {s : State} {d : Dir} {b : Byte}
    (h : processByteAcc s.cfg.accDepth (s.acc.get d) b = ⟨s.acc.get d, none, true⟩) :
    s.processByte d b = ({ s with ovf := s.ovf.set d true }.emitAll [.log s.cfg.instName .accOverflow (some d)], none) := by
  refine Prod.ext ?_ (State.processByte_result_full s d b (by rw [h]))
  rw [State.processByte_eq, h]
  simp [State.emitAll]

theorem State.feed_of_overflow {s : State} {d : Dir} {b : Byte} (hclean : AccClean s d)
    (h : processByteAcc s.cfg.accDepth (s.acc.get d) b = ⟨s.acc.get d, none, true⟩) :
    s.feed d b = s.processByte d b := by
  rw [State.feed_eq, State.drd_of_clean s d hclean, State.processByte_of_overflow h]

section

variable {s : State} {d : Dir} {b : Byte} (hopen : s.openTo d)
  (hbyte : processByteAcc s.cfg.accDepth (s.acc.get d) b = ⟨s.acc.get d, none, true⟩)

include hopen hbyte

theorem exec_processbyte_overflows : exec (.processbyte d b) s = .next ({ s with ovf := s.ovf.set d true }.emitAll
    [.log s.cfg.instName .accOverflow (some d), .codec (.processed d none)]) := by
  rw [exec_processbyte_of_open hopen, State.processByte_of_overflow hbyte]
  simp [State.answer, State.emit, State.emitAll]

theorem exec_feed_overflows {i : Instr} (hi : FeedsByte i d b) (hclean : AccClean s d) :
    exec i s = .next ({ s with ovf := s.ovf.set d true }.emitAll
      [.log s.cfg.instName .accOverflow (some d), .codec (.fed d none)]) := by
  rw [exec_feedsByte_of_open hopen hi, State.feed_of_overflow hclean hbyte, State.processByte_of_overflow hbyte]
  simp [State.answer, State.emit, State.emitAll]

end

/-- Settles O12: the overflow, the discard that comes before it, and the flag under every operation. -/
theorem fullAccumulatorOverflows : Obligations.FullAccumulatorOverflows := by
  refine ⟨fun s d b hopen => ⟨fun hfull hnotDiscard => ?overflow, fun hovf hb hacc => ?discard⟩,
    fun s t i d hovf h => exec_ovf_sticky hovf h⟩
  case overflow =>
    have hbyte := processByteAcc_full hnotDiscard hfull
    exact ⟨exec_processbyte_overflows hopen hbyte, fun i hi hclean => exec_feed_overflows hopen hbyte hi hclean⟩
  case discard =>
    subst hb
    have hkeep : ({ s with acc := s.acc.set d [FEND] } : State) = s := by rw [← hacc, PerDir.set_get]
    have hclean : AccClean s d := accClean_of_acc_eq hacc (by simp)
    refine ⟨?_, fun i hi => ?_⟩
    · rw [exec_processbyte_of_eq hopen hovf hacc (processByteAcc_discard _), hkeep]
    · rw [exec_feed_collects hopen hovf hclean hi hacc (processByteAcc_discard _), hkeep]

/-! #### FEED and the rest of the state -/

theorem exec_feedsByte_of_dead {s : State} {d : Dir} {b : Byte} {i : Instr} (hdead : s.eng = .dead)
    (hi : FeedsByte i d b) : exec i s = .next s := by
  rw [exec_of_feedsByte hi]; exact whenSoleSource_dead hdead

/-- R26, R171: where the pump of its direction does not run a FEED completes, in `Dead` as the unchanged state. -/
theorem exec_feedsByte_of_not_runs {s : State} {d : Dir} {b : Byte} {i : Instr} (hruns : ¬ s.pumpRuns d)
    (hi : FeedsByte i d b) :
    (s.eng = .dead ∧ exec i s = .next s) ∨
      (s.openTo d ∧ exec i s = .next ((s.feed d b).1.answer (.fed d (s.feed d b).2))) := by
  by_cases hdead : s.eng = .dead
  · exact .inl ⟨hdead, exec_feedsByte_of_dead hdead hi⟩
  · exact .inr ⟨⟨hdead, hruns⟩, exec_feedsByte_of_open ⟨hdead, hruns⟩ hi⟩

/-- Settles O13. -/
theorem feedTouchesItsOwnDirectionOnly : Obligations.FeedTouchesItsOwnDirectionOnly := by
  intro s d b i hruns hi
  rcases exec_feedsByte_of_not_runs hruns hi with ⟨-, hexec⟩ | ⟨-, hexec⟩
  · exact ⟨s, hexec, rfl, rfl, id, rfl, rfl, rfl, rfl, rfl, rfl, rfl, rfl, rfl, rfl⟩
  · have hquiet := quietStep_feed s d b
    obtain ⟨handoff, describer, henv⟩ := hquiet.env
    refine ⟨_, hexec, by simp, by simp, fun hovf => exec_ovf_sticky hovf hexec, hquiet.eng, hquiet.pump, hquiet.phase,
      hquiet.tcp, hquiet.ser, hquiet.lsn, hquiet.cfg, hquiet.sched, ?_, ?_⟩ <;> simp [henv]

theorem QuietStep.pumpRuns_iff {s t : State} (h : QuietStep s t) (d : Dir) : t.pumpRuns d ↔ s.pumpRuns d := by
  unfold State.pumpRuns; rw [h.eng, h.pump]

theorem QuietStep.openTo {s t : State} (h : QuietStep s t) {d : Dir} (hopen : s.openTo d) : t.openTo d :=
  ⟨h.eng ▸ hopen.1, fun hruns => hopen.2 ((h.pumpRuns_iff d).1 hruns)⟩

theorem execAll_cons {i : Instr} {l : List Instr} {s t : State} (h : exec i s = .next t) :
    execAll (i :: l) s = execAll l t := by
  rw [execAll, h]

theorem exec_of_execAll_singleton {i : Instr} {s t : State} (h : execAll [i] s = .next t) : exec i s = .next t := by
  rw [execAll] at h
  split at h
  · rename_i hexec; cases h; exact hexec
  · cases h
  · cases h

/-- Two FEEDs of different directions, one after the other, on the accumulators and the flags. -/
theorem execAll_feed_feed {s : State} {d : Dir} (b c : Byte) (hd : s.openTo d) (hother : s.openTo d.other) :
    ∃ t, execAll [.feed d b, .feed d.other c] s = .next t ∧
      t.acc = (s.feed d b).1.acc.set d.other ((s.feed d.other c).1.acc.get d.other) ∧
      t.ovf = (s.feed d b).1.ovf.set d.other ((s.feed d.other c).1.ovf.get d.other) := by
  have hquiet := quietStep_feed s d b
  have hsecond : ((s.feed d b).1.answer (.fed d (s.feed d b).2)).openTo d.other := hquiet.openTo hother
  refine ⟨_, (execAll_cons (exec_feedsByte_of_open hd (feedsByte_feed d b))).trans
    (execAll_cons (exec_feedsByte_of_open hsecond (feedsByte_feed d.other c))), ?_, ?_⟩
  · simp [hquiet.cfg]
  · simp [hquiet.cfg]

/-- Settles O14: each FEED writes its own direction with a value that the other does not change. -/
theorem feedsOfTwoDirectionsCommute : Obligations.FeedsOfTwoDirectionsCommute := by
  intro s d b c hd hother
  by_cases hdead : s.eng = .dead
  · have hstays := fun (e : Dir) (x : Byte) => exec_feedsByte_of_dead hdead (feedsByte_feed e x)
    exact ⟨s, s, by simp only [execAll, hstays], by simp only [execAll, hstays], rfl, rfl⟩
  · obtain ⟨t, ht, htacc, htovf⟩ := execAll_feed_feed b c ⟨hdead, hd⟩ ⟨hdead, hother⟩
    obtain ⟨u, hu, huacc, huovf⟩ := execAll_feed_feed (d := d.other) c b ⟨hdead, hother⟩
      ⟨hdead, by rwa [Dir.other_other]⟩
    rw [Dir.other_other] at hu huacc huovf
    refine ⟨t, u, ht, hu, ?_, ?_⟩
    · rw [htacc, huacc]; cases d <;> simp [PerDir.set, PerDir.get, Dir.other]
    · rw [htovf, huovf]; cases d <;> simp [PerDir.set, PerDir.get, Dir.other]

/-- R172: on a clean accumulator FEED is PROCESSBYTE, up to the frame event. -/
theorem State.feed_of_clean {s : State} {d : Dir} (b : Byte) (hclean : AccClean s d) :
    (s.feed d b).2 = (s.processByte d b).2 ∧ (s.feed d b).1.acc = (s.processByte d b).1.acc ∧
      (s.feed d b).1.ovf = (s.processByte d b).1.ovf := by
  have hdrd : drdAcc (s.acc.get d) = s.acc.get d := drdAcc_of_clean (accClean_tail hclean)
  refine ⟨?_, by simp [hdrd], by simp [hdrd]⟩
  rw [State.feed_result, hdrd]; rfl

/-- Settles O16. -/
theorem feedEqualsProcessByte : Obligations.FeedEqualsProcessByte := by
  intro s d b hclean hopen
  obtain ⟨hresult, hacc, hovf⟩ := State.feed_of_clean b hclean
  refine ⟨_, _, (s.feed d b).2, exec_feedsByte_of_open hopen (feedsByte_feed d b), exec_processbyte_of_open hopen b,
    by simp, by simp [hresult], by rw [State.answer_acc, State.answer_acc, hacc],
    by rw [State.answer_ovf, State.answer_ovf, hovf]⟩

/-! #### The segmenter on a stream -/

/-- R120: a run of bytes other than FEND is collected. -/
theorem segmentAll_run {w : List Byte} (hw : ∀ b ∈ w, b ≠ FEND) {acc : List Byte} (hacc : ∀ b ∈ acc.tail, b ≠ FEND)
    (rest : List Byte) : segmentAll acc (w ++ rest) = segmentAll (acc ++ w) rest := by
  induction w generalizing acc with
  | nil => simp
  | cons b w ih =>
    obtain ⟨hb, hw⟩ := List.forall_mem_cons.1 hw
    have hnext : ∀ x ∈ (acc ++ [b]).tail, x ≠ FEND := by
      cases acc with
      | nil => simp
      | cons a acc => simpa [or_imp, forall_and, hb] using hacc
    rw [List.cons_append, segmentAll, drdAcc_of_clean hacc, processByteAcc_data hb (by simp)]
    simp [ih hw hnext]

theorem segmentAll_fend {acc acc' : List Byte} {frame : Option (List Byte × Bool)}
    (hacc : ∀ b ∈ acc.tail, b ≠ FEND) (h : processByteAcc none acc FEND = ⟨acc', frame, false⟩) (rest : List Byte) :
    segmentAll acc (FEND :: rest) = ((segmentAll acc' rest).1, frame.toList ++ (segmentAll acc' rest).2) := by
  rw [segmentAll, drdAcc_of_clean hacc, h]

/-- R114 rows 1 and 3: a FEND at an accumulator without data leaves it opened. -/
theorem segmentAll_open {acc : List Byte} (hacc : acc = [] ∨ acc = [FEND]) (rest : List Byte) :
    segmentAll acc (FEND :: rest) = segmentAll [FEND] rest := by
  rcases hacc with rfl | rfl
  · rw [segmentAll_fend (by simp) (processByteAcc_open (by simp))]; rfl
  · rw [segmentAll_fend (by simp) (processByteAcc_discard _)]; rfl

/-- R114 row 5: a FEND closes what was collected after an opening FEND. -/
theorem segmentAll_close {w : List Byte} (hw : ∀ b ∈ w, b ≠ FEND) (hne : w ≠ []) (rest : List Byte) :
    segmentAll (FEND :: w) (FEND :: rest) =
      ((segmentAll [] rest).1, ([FEND] ++ w ++ [FEND], false) :: (segmentAll [] rest).2) := by
  obtain ⟨x, w, rfl⟩ := List.exists_cons_of_ne_nil hne
  rw [segmentAll_fend (by simpa using hw) (processByteAcc_close (by simp))]; rfl

/-- R114 row 7: and what was collected without one. -/
theorem segmentAll_close_norm {w : List Byte} (hw : ∀ b ∈ w, b ≠ FEND) (hne : w ≠ []) (rest : List Byte) :
    segmentAll w (FEND :: rest) =
      ((segmentAll [] rest).1, ([FEND] ++ w ++ [FEND], true) :: (segmentAll [] rest).2) := by
  obtain ⟨x, w, rfl⟩ := List.exists_cons_of_ne_nil hne
  obtain ⟨hx, hw⟩ := List.forall_mem_cons.1 hw
  rw [segmentAll_fend (by simpa using hw) (processByteAcc_close_norm hx (by simp))]; rfl

/-- The accumulator that holds the run `w` of bytes other than FEND, opened or not. -/
def runAcc (opened : Bool) (w : List Byte) : List Byte := if opened then FEND :: w else w

theorem runsOf_ne_nil (q : List Byte) : runsOf q ≠ [] := by
  cases q with
  | nil => simp [runsOf]
  | cons b q => unfold runsOf; split_ifs <;> [simp; (split <;> simp)]

/-- A run of bytes other than FEND goes to the first run of what follows. -/
theorem runsOf_append {w : List Byte} (hw : ∀ b ∈ w, b ≠ FEND) {q r : List Byte} {rs : List (List Byte)}
    (h : runsOf q = r :: rs) : runsOf (w ++ q) = (w ++ r) :: rs := by
  induction w with
  | nil => exact h
  | cons b w ih =>
    obtain ⟨hb, hw⟩ := List.forall_mem_cons.1 hw
    rw [List.cons_append, runsOf, if_neg hb, ih hw]; rfl

theorem runsOf_run {w : List Byte} (hw : ∀ b ∈ w, b ≠ FEND) : runsOf w = [w] := by
  simpa using runsOf_append hw (q := []) rfl

theorem runsOf_run_fend {w : List Byte} (hw : ∀ b ∈ w, b ≠ FEND) (q : List Byte) :
    runsOf (w ++ FEND :: q) = w :: runsOf q := by
  simpa using runsOf_append hw (q := FEND :: q) (r := []) (rs := runsOf q) (by simp [runsOf])

/-- What the runs that begin with a closed run give (R173). -/
theorem runs_cons (opened : Bool) (w : List Byte) {rs : List (List Byte)} (hrs : rs ≠ []) :
    restOfRuns opened (w :: rs) = restOfRuns (w = []) rs ∧
      framesOfRuns opened (w :: rs) =
        (if w = [] then [] else [([FEND] ++ w ++ [FEND], !opened)]) ++ framesOfRuns (w = []) rs := by
  obtain ⟨r, rs, rfl⟩ := List.exists_cons_of_ne_nil hrs
  by_cases hw : w = [] <;> simp [restOfRuns, framesOfRuns, hw]

/-- R173 in the middle of a run: what the accumulator holds belongs to the first run of the stream. -/
theorem segmentAll_runAcc (opened : Bool) {w : List Byte} (hw : ∀ b ∈ w, b ≠ FEND) (bytes : List Byte) :
    segmentAll (runAcc opened w) bytes =
      (restOfRuns opened (runsOf (w ++ bytes)), framesOfRuns opened (runsOf (w ++ bytes))) := by
  induction bytes generalizing opened w with
  | nil => rw [List.append_nil, runsOf_run hw]; rfl
  | cons b bytes ih =>
    by_cases hb : b = FEND
    · subst hb
      obtain ⟨hrest, hframes⟩ := runs_cons opened w (runsOf_ne_nil bytes)
      rw [runsOf_run_fend hw, hrest, hframes]
      by_cases hne : w = []
      · subst hne
        have hopened := ih true hw
        rw [segmentAll_open (by cases opened <;> simp [runAcc])]
        simpa [runAcc] using hopened
      · have hclosed := ih false (w := []) (by simp)
        cases opened with
        | false => rw [runAcc, if_neg (by simp), segmentAll_close_norm hw hne]; simp_all [runAcc]
        | true => rw [runAcc, if_pos rfl, segmentAll_close hw hne]; simp_all [runAcc]
    · have hnext : ∀ x ∈ w ++ [b], x ≠ FEND := by simpa [or_imp, forall_and, hb] using hw
      have hclean : ∀ x ∈ (runAcc opened w).tail, x ≠ FEND := by
        cases opened with
        | false => exact fun x hx => hw x (List.mem_of_mem_tail hx)
        | true => exact hw
      have hacc : runAcc opened w ++ [b] = runAcc opened (w ++ [b]) := by cases opened <;> rfl
      rw [← List.singleton_append, segmentAll_run (by simpa using hb) hclean, hacc, ih opened hnext, List.append_assoc]

/-- R173 from an empty accumulator. -/
theorem segmentAll_nil (bytes : List Byte) :
    segmentAll [] bytes = (restOfRuns false (runsOf bytes), framesOfRuns false (runsOf bytes)) :=
  segmentAll_runAcc false (w := []) (by simp) bytes

/-! #### The assembler as the segmenter -/

/-- The state `t` is what `s` is once the bytes went to the unbounded, unfaulted assembler of direction `d`. -/
structure Assembled (d : Dir) (bytes : List Byte) (s t : State) : Prop where
  depth : t.cfg.accDepth = none
  ovf : t.ovf.get d = false
  acc : t.acc.get d = (segmentAll (s.acc.get d) bytes).1
  frames : frameEvents d t.trace = frameEvents d s.trace ++ (segmentAll (s.acc.get d) bytes).2

theorem Assembled.refl {s : State} {d : Dir} (hdepth : s.cfg.accDepth = none) (hovf : s.ovf.get d = false) :
    Assembled d [] s s := ⟨hdepth, hovf, rfl, by simp [segmentAll]⟩

theorem Assembled.cons {d : Dir} {b : Byte} {bytes : List Byte} {s t u : State} (h : Assembled d [b] s t)
    (h' : Assembled d bytes t u) : Assembled d (b :: bytes) s u := by
  have hacc := h.acc
  have hframes := h.frames
  simp only [segmentAll, List.append_nil] at hacc hframes
  exact ⟨h'.depth, h'.ovf, by rw [h'.acc, hacc, segmentAll],
    by rw [h'.frames, hframes, hacc, segmentAll, List.append_assoc]⟩

/-- The frame events of a FEED's direction grow by the frame it returns (R170). -/
theorem frameEvents_feed (s : State) (d : Dir) (b : Byte) :
    frameEvents d (s.feed d b).1.trace = frameEvents d s.trace ++ (s.feed d b).2.toList := by
  obtain ⟨env, c, g, tasks, more, o, heq, -, -, -, ⟨hnone, -, hmore⟩ | ⟨f, n, hsome, -, hmore⟩⟩ := s.feed_cases d b
  · rw [heq, hnone, frameEvents_append]
    rcases hmore with rfl | rfl <;> simp [frameEvents]
  · rw [heq, hsome, frameEvents_append]
    rcases hmore with rfl | rfl <;> simp [frameEvents]

/-- One byte (R170): FEED on an unbounded, unfaulted assembler is one step of the segmenter. -/
theorem assembled_feed {s : State} {d : Dir} (b : Byte) (hdepth : s.cfg.accDepth = none) (hovf : s.ovf.get d = false) :
    Assembled d [b] s (s.feed d b).1 := by
  refine ⟨by rw [(quietStep_feed s d b).cfg, hdepth], ?_, ?_, ?_⟩
  · simp [hdepth, hovf]
  · simp [hdepth, segmentAll]
  · rw [frameEvents_feed, State.feed_result]
    simp [State.assemblerResult, hovf, hdepth, segmentAll]

/-- What comes after the bytes of the assembler's own direction and adds no frame event. -/
theorem Assembled.congr {d : Dir} {bytes : List Byte} {s t u : State} (h : Assembled d bytes s t) (hcfg : u.cfg = t.cfg)
    (hovf : u.ovf = t.ovf) (hacc : u.acc = t.acc) (hframes : frameEvents d u.trace = frameEvents d t.trace) :
    Assembled d bytes s u :=
  ⟨hcfg ▸ h.depth, hovf ▸ h.ovf, hacc ▸ h.acc, hframes.trans h.frames⟩

/-- R173: any stream, byte by byte. -/
theorem execAll_feed {d : Dir} (bytes : List Byte) {s : State} (hopen : s.openTo d) (hdepth : s.cfg.accDepth = none)
    (hovf : s.ovf.get d = false) :
    ∃ t, execAll (bytes.map (Instr.feed d)) s = .next t ∧ t.openTo d ∧ Assembled d bytes s t := by
  induction bytes generalizing s with
  | nil => exact ⟨s, rfl, hopen, .refl hdepth hovf⟩
  | cons b bytes ih =>
    have hfirst : Assembled d [b] s ((s.feed d b).1.answer (.fed d (s.feed d b).2)) :=
      (assembled_feed b hdepth hovf).congr rfl rfl rfl (by simp [frameEvents])
    have hquiet := (quietStep_feed s d b).trans (quietStep_answer _ (.fed d (s.feed d b).2))
    obtain ⟨t, ht, htopen, hrest⟩ := ih (hquiet.openTo hopen) hfirst.depth hfirst.ovf
    refine ⟨t, ?_, htopen, hfirst.cons hrest⟩
    rw [List.map_cons, execAll_cons (exec_feedsByte_of_open hopen (feedsByte_feed d b)), ht]

/-- Settles O17: FEED is the segmenter, and the segmenter cuts a stream at its FENDs. -/
theorem feedCutsStreamAtFend : Obligations.FeedCutsStreamAtFend := by
  intro s d bytes hopen hdepth hovf hacc
  obtain ⟨t, ht, -, hassembled⟩ := execAll_feed bytes hopen hdepth hovf
  have hframes := hassembled.frames
  have hrest := hassembled.acc
  rw [hacc, segmentAll_nil] at hframes hrest
  exact ⟨t, ht, hframes, hrest⟩

/-! #### Encoded frames through the segmenter -/

/-- Settles O31: the opening FEND opens, the type byte and the escaped body are collected, the closing FEND closes. -/
theorem encodedFrameComesOutOfAssembler : Obligations.EncodedFrameComesOutOfAssembler := by
  intro s d p f port cmd hopen hdepth hovf hacc hencode htype
  rw [encodeFrame_toNat, EncResult.ok.injEq] at hencode
  obtain ⟨w, hw, hwne, hfront, hframe⟩ : ∃ w : List Byte, (∀ b ∈ w, b ≠ FEND) ∧ w ≠ [] ∧
      f.dropLast = FEND :: w ∧ f = [FEND] ++ w ++ [FEND] :=
    ⟨packType port cmd :: stuffSeq p, by simpa [htype] using stuffSeq_ne_fend p, by simp,
      by simp [← hencode, frameOf, List.dropLast_cons_of_ne_nil], by simp [← hencode, frameOf]⟩
  have hcollect : segmentAll (s.acc.get d) (f.dropLast) = (FEND :: w, []) := by
    have hrun := segmentAll_run hw (acc := [FEND]) (by simp) []
    rw [List.append_nil] at hrun
    rw [hfront, segmentAll_open hacc, hrun]; rfl
  obtain ⟨t, ht, htopen, htass⟩ := execAll_feed f.dropLast hopen hdepth hovf
  obtain ⟨u, hu, -, huass⟩ := execAll_feed [FEND] htopen htass.depth htass.ovf
  have htframes := htass.frames
  have huframes := huass.frames
  have huacc := huass.acc
  rw [hcollect, List.append_nil] at htframes
  rw [htass.acc, hcollect, segmentAll_close hw hwne] at huframes huacc
  refine ⟨t, u, ht, htframes, ?_, ?_, huacc, fun hvalid => hencode ▸ decodeFrame_encoded hvalid⟩
  · exact exec_of_execAll_singleton hu
  · rw [huframes, htframes, hframe]; rfl

/-- R285: port 12 with command 0 gives the type byte FEND. -/
theorem packType_fend : packType (BitVec.ofNat 4 12) 0x0#4 = FEND := by decide

/-- Settles O32: the type byte repeats the opening FEND, and the segmenter discards it. -/
theorem typeByteFendIsSwallowed : Obligations.TypeByteFendIsSwallowed := by
  intro p f hencode
  obtain ⟨-, rfl⟩ := encodeFrame_ok hencode
  have hbody : segmentAll [] (frameOf FEND (stuffSeq p)) = segmentAll (FEND :: stuffSeq p) [FEND] := by
    have hrun := segmentAll_run (stuffSeq_ne_fend p) (acc := [FEND]) (by simp) [FEND]
    show segmentAll [] (FEND :: FEND :: (stuffSeq p ++ [FEND])) = _
    rw [segmentAll_open (.inl rfl), segmentAll_open (.inr rfl), hrun]; rfl
  rw [packType_fend, hbody]
  refine ⟨fun hp => ?data, fun hp => ?empty⟩
  case data =>
    have hne : stuffSeq p ≠ [] := fun h => hp (by simpa using congrArg unescapeSeq h)
    rw [segmentAll_close (stuffSeq_ne_fend p) hne]; rfl
  case empty =>
    rw [hp, stuffSeq_nil, segmentAll_open (.inr rfl)]; rfl

end Sys2Proof.Machine

/-! ### Proofs: the relay -/

namespace Sys2Proof.Machine

/-! #### The pumps -/

section

variable {s : State} {d : Dir} {b : Byte} {rest : List RxOffer} (hruns : s.pumpRuns d)
  (hphase : s.phase.get d = .awaitRead) (hrx : s.env.rx.get d = .byte b :: rest)

include hruns hphase hrx

/-- R181, R182: a pump with a byte on offer. -/
theorem exec_pumpOf_reads :
    exec (pumpOf d) s = .next (s.afterRead d b rest) := by
  rw [exec_pumpOf, pumpStep_read hruns hphase, pumpRead_byte hrx]; rfl

variable (hovf : s.ovf.get d = false) (hclean : AccClean s d)

include hovf hclean

theorem exec_pumpOf_collects {acc : List Byte}
    (h : processByteAcc s.cfg.accDepth (s.acc.get d) b = ⟨acc, none, false⟩) :
    exec (pumpOf d) s = .next { s with
      acc := s.acc.set d acc, phase := s.phase.set d (.awaitWrite b),
      env := { s.env with rx := s.env.rx.set d rest }, trace := s.trace ++ [.rxByte d b] } := by
  rw [exec_pumpOf_reads hruns hphase hrx, State.afterRead, State.feed_none (s := s.takeByte d b rest) hovf hclean h]; rfl

theorem exec_pumpOf_closes {acc f : List Byte} {n : Bool}
    (h : processByteAcc s.cfg.accDepth (s.acc.get d) b = ⟨acc, some (f, n), false⟩) :
    exec (pumpOf d) s = .next ((({ s with
      acc := s.acc.set d acc, env := { s.env with rx := s.env.rx.set d rest } }.emitAll
        [.rxByte d b, .frame d f n]).handOff d f n).setPhase d (.awaitWrite b)) := by
  rw [exec_pumpOf_reads hruns hphase hrx, State.afterRead, State.feed_some (s := s.takeByte d b rest) hovf hclean h]
  simp [State.frameEvent, State.emit, State.emitAll, State.takeByte]

end

/-- Settles O33: the accumulator's form and the byte choose the row of R114. -/
theorem pumpReadsByte : Obligations.PumpReadsByte := by
  refine fun s d b x w rest hruns hphase hrx hovf hclean hroom =>
    ⟨fun hb => ?data, fun hb hacc => ?opens, fun hb hacc => ?delimited, fun hb hx hacc => ?undelimited⟩
  case data => exact exec_pumpOf_collects hruns hphase hrx hovf hclean (processByteAcc_data hb hroom)
  all_goals subst hb
  case opens =>
    refine exec_pumpOf_collects hruns hphase hrx hovf hclean ?_
    rcases hacc with hacc | hacc <;> rw [hacc] at hroom ⊢
    · exact processByteAcc_open hroom
    · exact processByteAcc_discard _
  case delimited =>
    refine exec_pumpOf_closes hruns hphase hrx hovf hclean ?_
    rw [hacc] at hroom ⊢
    exact processByteAcc_close hroom
  case undelimited =>
    refine exec_pumpOf_closes hruns hphase hrx hovf hclean ?_
    rw [hacc] at hroom ⊢
    exact processByteAcc_close_norm hx hroom

theorem exec_pumpOf_writes {s : State} {d : Dir} {b : Byte} {rest : List Bool} (hruns : s.pumpRuns d)
    (hphase : s.phase.get d = .awaitWrite b) (htx : s.env.tx.get d = true :: rest) :
    exec (pumpOf d) s = .next { s with
      phase := s.phase.set d .awaitRead, env := { s.env with tx := s.env.tx.set d rest },
      trace := s.trace ++ [.txWrite d b true] } := by
  rw [exec_pumpOf, pumpStep_write hruns hphase, pumpWrite_ok htx]

/-- Settles O34. -/
theorem pumpHoldsAndWritesEveryByte : Obligations.PumpHoldsAndWritesEveryByte := by
  refine fun s d b hruns => ⟨fun rest hphase hrx => ?reads, fun rest hphase htx => exec_pumpOf_writes hruns hphase htx⟩
  case reads =>
    have hread := afterRead_frame s d b rest
    obtain ⟨handoff, describer, henv⟩ := hread.env
    obtain ⟨more, htrace, -⟩ := hread.trace
    exact ⟨_, exec_pumpOf_reads hruns hphase hrx, by simp [hread.phase], by simp [henv], hread.pump, hread.eng, hread.tcp,
      hread.ser, by simp [henv], more, by simp [htrace]⟩

theorem exec_pumpOf_readFails {s : State} {d : Dir} {rest : List RxOffer} (hruns : s.pumpRuns d)
    (hphase : s.phase.get d = .awaitRead) (hrx : s.env.rx.get d = .fail :: rest) :
    exec (pumpOf d) s =
      .next (s.afterFailure d { s.env with rx := s.env.rx.set d rest } (.rxFail d) (readFailure d)) := by
  rw [exec_pumpOf, pumpStep_read hruns hphase, pumpRead_fail hrx]; rfl

theorem exec_pumpOf_writeFails {s : State} {d : Dir} {b : Byte} {rest : List Bool} (hruns : s.pumpRuns d)
    (hphase : s.phase.get d = .awaitWrite b) (htx : s.env.tx.get d = false :: rest) :
    exec (pumpOf d) s =
      .next (s.afterFailure d { s.env with tx := s.env.tx.set d rest } (.txWrite d b false) (writeFailure d)) := by
  rw [exec_pumpOf, pumpStep_write hruns hphase, pumpWrite_fail htx]; rfl

/-- Settles O35: the four failures are those of the reads and the writes of the two directions. -/
theorem pumpFailureClosesItsSink : Obligations.PumpFailureClosesItsSink := fun _ _ _ _ =>
  ⟨fun hruns hphase hrx => exec_pumpOf_readFails (d := .n2m) hruns hphase hrx,
    fun hruns hphase htx => exec_pumpOf_writeFails (d := .n2m) hruns hphase htx,
    fun hruns hphase hrx => exec_pumpOf_readFails (d := .m2n) hruns hphase hrx,
    fun hruns hphase htx => exec_pumpOf_writeFails (d := .m2n) hruns hphase htx⟩

/-- What no step of the pump of `d` changes (R180, R263). -/
structure PumpFrame (s t : State) (d : Dir) : Prop where
  acc : t.acc.get d.other = s.acc.get d.other
  ovf : t.ovf.get d.other = s.ovf.get d.other
  pump : t.pump.get d.other = s.pump.get d.other
  phase : t.phase.get d.other = s.phase.get d.other
  rx : t.env.rx.get d.other = s.env.rx.get d.other
  tx : t.env.tx.get d.other = s.env.tx.get d.other
  eng : t.eng = s.eng
  lsn : t.lsn = s.lsn
  cfg : t.cfg = s.cfg
  sched : t.sched = s.sched
  source : (d = .n2m → t.tcp = s.tcp) ∧ (d = .m2n → t.ser = s.ser)
  offers : t.env.bind = s.env.bind ∧ t.env.serOpen = s.env.serOpen ∧ t.env.accepted = s.env.accepted ∧
    t.env.unexpected = s.env.unexpected

theorem PumpMove.frame {s t : State} {d : Dir} (h : PumpMove s d t) : PumpFrame s t d := by
  cases h with
  | reads b rest =>
    have hread := afterRead_frame s d b rest
    obtain ⟨handoff, describer, henv⟩ := hread.env
    exact ⟨by simp, by simp, by rw [hread.pump], by simp [hread.phase], by simp [henv], by simp [henv], hread.eng,
      hread.lsn, hread.cfg, hread.sched, ⟨fun _ => hread.tcp, fun _ => hread.ser⟩, by simp [henv]⟩
  | writes b rest =>
    exact ⟨rfl, rfl, rfl, by simp, rfl, by simp, rfl, rfl, rfl, rfl, ⟨fun _ => rfl, fun _ => rfl⟩, rfl, rfl, rfl, rfl⟩
  | readFails rest | writeFails b rest =>
    exact ⟨rfl, rfl, by simp [State.afterFailure], by simp [State.afterFailure], by simp [State.afterFailure],
      by simp [State.afterFailure], rfl, rfl, rfl, rfl,
      ⟨by rintro rfl; rfl, by rintro rfl; rfl⟩, rfl, rfl, rfl, rfl⟩

theorem pumpFrame_refl (s : State) (d : Dir) : PumpFrame s s d :=
  ⟨rfl, rfl, rfl, rfl, rfl, rfl, rfl, rfl, rfl, rfl, ⟨fun _ => rfl, fun _ => rfl⟩, rfl, rfl, rfl, rfl⟩

theorem exec_pumpOf_frame {s t : State} {d : Dir} (h : exec (pumpOf d) s = .next t) : PumpFrame s t d := by
  rw [exec_pumpOf] at h
  cases h
  rcases pumpStep_moves s d with hstays | hmoves
  · rw [hstays]; exact pumpFrame_refl s d
  · exact hmoves.frame

/-- Settles O36. -/
theorem pumpOwnsItsDirectionOnly : Obligations.PumpOwnsItsDirectionOnly := by
  intro s t d h
  have hf := exec_pumpOf_frame h
  exact ⟨hf.acc, hf.ovf, hf.pump, hf.phase, hf.rx, hf.tx, hf.eng, hf.lsn, hf.cfg, hf.sched, hf.source⟩

/-- R186: a stopped pump is not enabled. -/
theorem exec_pumpOf_of_stopped {s : State} {d : Dir} (h : s.pump.get d = .stopped) : exec (pumpOf d) s = .next s := by
  rw [exec_pumpOf, pumpStep, if_neg (by simp [State.pumpRuns, h])]; rfl

/-- A direction other than that of a running pump is the other one. -/
theorem eq_other_of_stopped {s : State} {d e : Dir} (hruns : s.pumpRuns e) (h : s.pump.get d = .stopped) :
    d = e.other := by
  refine (Dir.eq_or_other e d).resolve_left ?_
  rintro rfl
  simp [State.pumpRuns, h] at hruns

/-- Settles O37: only the pump of its own direction takes a byte or an answer, and only ENG.OPEN starts a pump. -/
theorem stoppedPumpStaysStopped : Obligations.StoppedPumpStaysStopped := by
  intro s t i d hstopped h
  refine ⟨exec_pumpOf_of_stopped hstopped, ?_⟩
  rcases exec_relayMoves h with hquiet | ⟨e, -, hpump⟩ | hengine
  · obtain ⟨handoff, describer, henv⟩ := hquiet.env
    exact ⟨by rw [henv], by rw [henv], .inl (by rw [hquiet.pump, hstopped])⟩
  · obtain rfl := eq_other_of_stopped hpump.runs hstopped
    exact ⟨hpump.frame.rx, hpump.frame.tx, .inl (hpump.frame.pump.trans hstopped)⟩
  · cases hengine with
    | opens rest heng => exact ⟨rfl, rfl, .inr ⟨rfl, heng, rfl⟩⟩
    | _ => exact ⟨rfl, rfl, .inl hstopped⟩

/-! #### A stream through a pump -/

/-- The assembler takes the byte in the same step in which the pump does. -/
theorem assembled_afterRead {s : State} {d : Dir} (b : Byte) (rest : List RxOffer) (hdepth : s.cfg.accDepth = none)
    (hovf : s.ovf.get d = false) : Assembled d [b] s (s.afterRead d b rest) := by
  have hfeed := assembled_feed (s := s.takeByte d b rest) b hdepth hovf
  have htaken : frameEvents d (s.takeByte d b rest).trace = frameEvents d s.trace := by
    simp [State.takeByte, frameEvents]
  exact ⟨hfeed.depth, hfeed.ovf, hfeed.acc, hfeed.frames.trans (by rw [htaken]; rfl)⟩

/-- R201, R205: a byte read and written is forwarded, and its assembler takes one step of the segmenter. -/
theorem pump_forwards_byte {s : State} {d : Dir} {b : Byte} {rx : List RxOffer} {tx : List Bool} (hruns : s.pumpRuns d)
    (hphase : s.phase.get d = .awaitRead) (hdepth : s.cfg.accDepth = none) (hovf : s.ovf.get d = false)
    (hrx : s.env.rx.get d = .byte b :: rx) (htx : s.env.tx.get d = true :: tx) :
    ∃ t, execAll [pumpOf d, pumpOf d] s = .next t ∧ Assembled d [b] s t ∧
      writtenBytes d t.trace = writtenBytes d s.trace ++ [b] ∧ t.pumpRuns d ∧ t.phase.get d = .awaitRead ∧
      t.env.rx.get d = rx ∧ t.env.tx.get d = tx := by
  have hread := afterRead_frame s d b rx
  obtain ⟨handoff, describer, henv⟩ := hread.env
  obtain ⟨more, htrace, hmore⟩ := hread.trace
  have hruns' : (s.afterRead d b rx).pumpRuns d := by rw [State.pumpRuns, hread.eng, hread.pump]; exact hruns
  have hwrite := exec_pumpOf_writes (s := s.afterRead d b rx) (b := b) hruns' (by simp [hread.phase])
    (by rw [henv]; exact htx)
  have hassembled := assembled_afterRead b rx hdepth hovf
  refine ⟨_, (execAll_cons (exec_pumpOf_reads hruns hphase hrx)).trans (execAll_cons hwrite),
    hassembled.congr rfl rfl rfl (by simp [frameEvents]), ?_, hruns', by simp, by simp [henv], by simp [henv]⟩
  have hquiet : ∀ e ∈ more, quietEvent e = true := fun e he => (hmore e he).1
  simp [writtenBytes, htrace, flatMap_forwardedBy_of_quiet hquiet, forwardedBy]

/-- Settles O39: byte by byte, two steps each. -/
theorem pumpForwardsStreamAndObservesFrames : Obligations.PumpForwardsStreamAndObservesFrames := by
  intro s d bytes rx tx hruns hphase hdepth hovf hrx htx
  suffices h : ∃ t, execAll (List.replicate (2 * bytes.length) (pumpOf d)) s = .next t ∧ Assembled d bytes s t ∧
      writtenBytes d t.trace = writtenBytes d s.trace ++ bytes ∧ t.pumpRuns d ∧ t.phase.get d = .awaitRead ∧
      t.env.rx.get d = rx ∧ t.env.tx.get d = tx by
    obtain ⟨t, ht, hassembled, hwritten, hrest⟩ := h
    exact ⟨t, ht, hwritten, hassembled.frames, hassembled.acc, hrest⟩
  induction bytes generalizing s with
  | nil => exact ⟨s, rfl, .refl hdepth hovf, by simp, hruns, hphase, hrx, htx⟩
  | cons b bytes ih =>
    obtain ⟨t, ht, hfirst, hwritten, htruns, htphase, htrx, httx⟩ :=
      pump_forwards_byte hruns hphase hdepth hovf hrx htx
    obtain ⟨u, hu, hrest, huwritten, hready⟩ := ih t htruns htphase hfirst.depth hfirst.ovf htrx httx
    refine ⟨u, ?_, hfirst.cons hrest, by rw [huwritten, hwritten, List.append_assoc]; rfl, hready⟩
    rw [show List.replicate (2 * (b :: bytes).length) (pumpOf d) =
      [pumpOf d, pumpOf d] ++ List.replicate (2 * bytes.length) (pumpOf d) from rfl, execAll_append _ ht, hu]

/-! #### The engine -/

/-! A step of the engine that is not enabled waits (R258). -/

theorem exec_engBind_of_ne {s : State} (h : s.eng ≠ .idle) : exec .engBind s = .next s := congrArg _ (if_neg h)

theorem exec_engAccept_of_ne {s : State} (h : s.eng ≠ .listening) : exec .engAccept s = .next s :=
  congrArg _ (if_neg h)

theorem exec_engOpen_of_ne {s : State} (h : s.eng ≠ .connected) : exec .engOpen s = .next s := congrArg _ (if_neg h)

theorem exec_engJoin_of_not {s : State}
    (h : ¬ (s.eng = .relaying ∧ s.pump.get .n2m = .stopped ∧ s.pump.get .m2n = .stopped)) :
    exec .engJoin s = .next s := congrArg _ (if_neg h)

theorem exec_engTeardown_of_ne {s : State} (h : s.eng ≠ .tornDown) : exec .engTeardown s = .next s :=
  congrArg _ (if_neg h)

theorem mayFail_iff (e : Eng) : e.mayFail = true ↔ e ≠ .idle ∧ e ≠ .dead := by cases e <;> decide

theorem exec_engFatal_of_not {s : State} (h : s.eng.mayFail ≠ true) : exec .engFatal s = .next s :=
  congrArg _ (if_neg h)

/-- Every row of the engine's table is what its step does where it is enabled and its answer is on offer. -/
theorem EngineMove.exec_eq {s t : State} {i : Instr} (h : EngineMove s i t) : exec i s = .next t := by
  cases h with
  | binds rest heng hoffer => simp [exec, execEngBind, heng, hoffer, State.callBind, State.emit]
  | bindFails rest heng hoffer =>
    simp [exec, execEngBind, heng, hoffer, State.callBind, State.die, State.logFailure, State.emit]
  | accepts n heng hoffer => simp [exec, execEngAccept, heng, hoffer, State.emit]
  | opens rest heng hoffer =>
    simp [exec, execEngOpen, heng, hoffer, State.callSerOpen, State.startPumps, State.emit]
  | openFails rest heng hoffer =>
    simp [exec, execEngOpen, heng, hoffer, State.callSerOpen, State.closeTcp, State.logFailure, State.emit]
  | joins heng hpump => simp [exec, execEngJoin, heng, hpump, PerDir.both]
  | tearsDown heng =>
    simp [exec, execEngTeardown, heng, State.closeSer, State.closeTcp, State.flush_eq, State.emit]
  | dies n hidle hdead hoffer =>
    have hmay : s.eng.mayFail = true := (mayFail_iff _).2 ⟨hidle, hdead⟩
    simp [exec, execEngFatal, hmay, hoffer, State.die, State.logFailure, State.emit]

/-- Settles O40. -/
theorem engineBindsAndAccepts : Obligations.EngineBindsAndAccepts := fun _ rest n =>
  ⟨fun heng hoffer => (EngineMove.binds rest heng hoffer).exec_eq,
    fun heng hoffer => (EngineMove.bindFails rest heng hoffer).exec_eq, exec_engBind_of_ne,
    fun heng hoffer => (EngineMove.accepts n heng hoffer).exec_eq, exec_engAccept_of_ne⟩

/-- Settles O41. -/
theorem engineOpens : Obligations.EngineOpens := fun _ rest =>
  ⟨fun heng hoffer => (EngineMove.opens rest heng hoffer).exec_eq,
    fun heng hoffer => (EngineMove.openFails rest heng hoffer).exec_eq, exec_engOpen_of_ne⟩

theorem pump_eq_both_stopped {s : State} (hn2m : s.pump.n2m = .stopped) (hm2n : s.pump.m2n = .stopped) :
    s.pump = .both .stopped :=
  PerDir.ext_get fun d => by cases d <;> simpa

/-- Settles O42. -/
theorem engineJoinsAndTearsDown : Obligations.EngineJoinsAndTearsDown := fun s =>
  ⟨fun heng hn2m hm2n => (EngineMove.joins heng (pump_eq_both_stopped hn2m hm2n)).exec_eq,
    fun hnot => exec_engJoin_of_not (by rintro ⟨heng, hn2m, hm2n⟩; rcases hnot with h | h | h <;> simp_all),
    fun heng => (EngineMove.tearsDown heng).exec_eq, exec_engTeardown_of_ne⟩

/-- Settles O43. -/
theorem unexpectedFailureEndsTheInstance : Obligations.UnexpectedFailureEndsTheInstance := fun s n =>
  ⟨fun hidle hdead hoffer => (EngineMove.dies n hidle hdead hoffer).exec_eq,
    fun heng => exec_engFatal_of_not (by rw [Ne, mayFail_iff]; rintro ⟨hidle, hdead⟩; exact heng.elim hidle hdead)⟩

/-- R199: a move of the engine is a row of its table. -/
theorem EngineMove.mem_table {s t : State} {i : Instr} (h : EngineMove s i t) : (i, s.eng, t.eng) ∈ engineTable := by
  cases h with
  | dies n hidle hdead => cases heng : s.eng <;> simp_all [engineTable]
  | binds rest heng | bindFails rest heng | accepts n heng | opens rest heng | openFails rest heng | joins heng
  | tearsDown heng => simp [heng, engineTable]

theorem exec_eng {i : Instr} {s t : State} (h : exec i s = .next t) : t.eng = s.eng ∨ EngineMove s i t := by
  rcases exec_relayMoves h with hquiet | ⟨d, -, hpump⟩ | hengine
  · exact .inl hquiet.eng
  · exact .inl hpump.frame.eng
  · exact .inr hengine

/-- Settles O44. -/
theorem engineMovesAlongItsTable : Obligations.EngineMovesAlongItsTable := fun _ _ _ h hne =>
  ((exec_eng h).resolve_left hne).mem_table

/-! #### In Dead -/

theorem not_pumpRuns_of_dead {s : State} (h : s.eng = .dead) (d : Dir) : ¬ s.pumpRuns d := by
  simp [State.pumpRuns, h]

/-- R26, R198: in Dead nothing is enabled but the codec's calls, which answer, and the steps of the tasks. -/
theorem exec_cases_of_dead {i : Instr} {s t : State} (hdead : s.eng = .dead) (h : exec i s = .next t) :
    t = s ∨ (∃ a, t = s.answer a) ∨ ∃ k, DispatchMove s k t := by
  rcases exec_moves h with hcall | ⟨k, -, hdispatch⟩ | ⟨d, -, hpump⟩ | hengine
  · cases hcall with
    | stays => exact .inl rfl
    | answers a => exact .inr (.inl ⟨a, rfl⟩)
    | feeds d b hopen | drops d hopen | processes d b hopen => exact absurd hdead hopen.1
  · exact .inr (.inr ⟨k, hdispatch⟩)
  · exact absurd hpump.runs (not_pumpRuns_of_dead hdead d)
  · cases hengine <;> simp_all

/-- A step of a task neither reads nor writes the state of the engine (R225). -/
theorem exec_dispatch_of_eng {k : Nat} {s t : State} (h : exec (.dispatch k) s = .next t) (e : Eng) :
    exec (.dispatch k) { s with eng := e } = .next { t with eng := e } := by
  rcases htask : s.inflight[k]? with _ | task
  · simp only [exec, execDispatch, htask] at h ⊢; cases h; rfl
  · rcases hstage : task.stage
    · rw [exec_dispatch_framed htask hstage] at h; cases h
      exact exec_dispatch_framed (s := { s with eng := e }) htask hstage
    · rw [exec_dispatch_decode htask hstage] at h; cases h
      rw [exec_dispatch_decode (s := { s with eng := e }) htask hstage]
      rcases hdec : decodeFrame task.frame with ⟨p, port, cmd, kind⟩ | r
      · rw [dispatchDecode_of_ok hdec, dispatchDecode_of_ok hdec]; rfl
      · rw [dispatchDecode_of_invalidFrame hdec, dispatchDecode_of_invalidFrame hdec]; rfl
    · rw [exec_dispatch_unframed htask hstage] at h; cases h
      exact exec_dispatch_unframed (s := { s with eng := e }) htask hstage
    · rw [exec_dispatch_describe htask hstage] at h; cases h
      rw [exec_dispatch_describe (s := { s with eng := e }) htask hstage]
      rcases hdescriber : s.env.describer with _ | ⟨a, rest⟩
      · rw [dispatchDescribe_nil (s := { s with eng := e }) hdescriber, dispatchDescribe_nil hdescriber]
      · rw [dispatchDescribe_cons (s := { s with eng := e }) hdescriber, dispatchDescribe_cons hdescriber]
    · rw [exec_dispatch_done htask hstage] at h; cases h
      exact exec_dispatch_done (s := { s with eng := e }) htask hstage

/-- The events of a task are none of `frame_ev`. -/
theorem frameEvents_of_relayEvent {more : List Event} (h : ∀ e ∈ more, relayEvent e = false) (d : Dir) :
    frameEvents d more = [] := by
  refine List.filterMap_eq_nil_iff.2 fun e he => ?_
  have hrelay := h e he
  cases e <;> simp_all [relayEvent]

/-- R225: what a step of a task leaves of the relay's elements, and that it adds no task and no frame event. -/
theorem DispatchMove.frame {s t : State} {k : Nat} (h : DispatchMove s k t) :
    t.acc = s.acc ∧ t.ovf = s.ovf ∧ t.inflight.length ≤ s.inflight.length ∧
      ∀ d, frameEvents d t.trace = frameEvents d s.trace := by
  cases h with
  | replaces task task' rest free more hk hf hsound hmore =>
    refine ⟨rfl, rfl, by simp, fun d => ?_⟩
    rw [frameEvents_append, frameEvents_of_relayEvent (fun e he => (hmore e he).1), List.append_nil]
  | removes => exact ⟨rfl, rfl, List.length_eraseIdx_le _ _, fun _ => rfl⟩

/-- Settles O45. -/
theorem deadIsFinal : Obligations.DeadIsFinal := by
  intro s hdead
  have hne : ∀ e : Eng, e ≠ .dead → s.eng ≠ e := fun e he => by rw [hdead]; exact he.symm
  refine ⟨fun i hi => ?relaySteps, fun d b i hi => ?calls, fun i t h => ?operations, fun k e t h => ?tasks,
    fun hreset => ⟨_, step_of_resetIn hreset, rfl⟩, fun t hreset h => ?steps⟩
  case relaySteps =>
    simp only [List.mem_cons, List.not_mem_nil, or_false] at hi
    rcases hi with rfl | rfl | rfl | rfl | rfl | rfl | rfl | rfl
    · exact congrArg _ (if_neg (not_pumpRuns_of_dead hdead .n2m))
    · exact congrArg _ (if_neg (not_pumpRuns_of_dead hdead .m2n))
    · exact exec_engBind_of_ne (hne .idle (by decide))
    · exact exec_engAccept_of_ne (hne .listening (by decide))
    · exact exec_engOpen_of_ne (hne .connected (by decide))
    · exact exec_engJoin_of_not fun hjoin => hne .relaying (by decide) hjoin.1
    · exact exec_engTeardown_of_ne (hne .tornDown (by decide))
    · exact exec_engFatal_of_not (by rw [hdead]; decide)
  case calls =>
    rcases hi with hi | rfl | rfl
    · exact exec_feedsByte_of_dead hdead hi
    · exact whenSoleSource_dead hdead
    · exact whenSoleSource_dead hdead
  case operations =>
    rcases exec_cases_of_dead hdead h with rfl | ⟨a, rfl⟩ | ⟨k, hdispatch⟩
    · exact ⟨hdead, rfl, rfl, rfl, rfl, rfl, rfl, rfl, le_rfl, fun _ => rfl⟩
    · exact ⟨hdead, rfl, rfl, rfl, rfl, rfl, rfl, rfl, le_rfl, fun d => by simp [frameEvents]⟩
    · have hquiet := hdispatch.quiet
      obtain ⟨hacc, hovf, hlen, hframes⟩ := hdispatch.frame
      exact ⟨hquiet.eng.trans hdead, hquiet.pump, hquiet.phase, hquiet.tcp, hquiet.ser, hquiet.lsn, hacc, hovf, hlen,
        hframes⟩
  case tasks =>
    have hs : ({ s with eng := .dead } : State) = s := by rw [← hdead]
    exact hs ▸ exec_dispatch_of_eng h .dead
  case steps =>
    rcases step_cases h with ⟨hr, -⟩ | ⟨-, -, rfl⟩ | ⟨-, r, rest, i, -, -, hexec⟩
    · simp [hr] at hreset
    · exact hdead
    · rcases exec_cases_of_dead (s := { s with sched := rest }) hdead hexec with rfl | ⟨a, rfl⟩ | ⟨k, hdispatch⟩
      · exact hdead
      · exact hdead
      · exact hdispatch.quiet.eng.trans hdead

/-! #### Events -/

/-- Settles O46. -/
theorem eventsAreConsumedOnlyWhereAwaited : Obligations.EventsAreConsumedOnlyWhereAwaited := by
  intro s t i h
  rcases exec_relayMoves h with hquiet | ⟨d, rfl, hpump⟩ | hengine
  · obtain ⟨handoff, describer, henv⟩ := hquiet.env
    simp [henv]
  · obtain ⟨-, -, haccepted, hunexpected⟩ := hpump.frame.offers
    refine ⟨fun hne => absurd haccepted hne, fun hne => absurd hunexpected hne, fun e hne => ?_⟩
    obtain rfl : e = d := (Dir.eq_or_other d e).resolve_right (by rintro rfl; exact hne hpump.frame.rx)
    refine ⟨hpump.runs, ?_, rfl⟩
    cases hpump with
    | readFails rest hruns hphase | reads b rest hruns hphase => exact hphase
    | writes | writeFails => exact absurd rfl hne
  · cases hengine with
    | accepts n heng => exact ⟨fun _ => ⟨heng, rfl⟩, fun hne => absurd rfl hne, fun e hne => absurd rfl hne⟩
    | dies n hidle hdead =>
      exact ⟨fun hne => absurd rfl hne, fun _ => ⟨hidle, hdead, rfl⟩, fun e hne => absurd rfl hne⟩
    | _ => exact ⟨fun hne => absurd rfl hne, fun hne => absurd rfl hne, fun e hne => absurd rfl hne⟩

/-! #### A disconnect -/

/-- A running pump with a failure on offer for its read stops (R244, R246). -/
theorem exec_pumpOf_fails {s : State} {d : Dir} (hruns : s.pumpRuns d) (hphase : s.phase.get d = .awaitRead)
    (hrx : (s.env.rx.get d).head? = some .fail) :
    ∃ rest, exec (pumpOf d) s =
      .next (s.afterFailure d { s.env with rx := s.env.rx.set d rest } (.rxFail d) (readFailure d)) := by
  obtain ⟨rest, hrest⟩ := List.head?_eq_some_iff.1 hrx
  exact ⟨rest, exec_pumpOf_readFails hruns hphase hrest⟩

/-- Settles O47: two failures, the join and the teardown. -/
theorem disconnectReturnsToListening : Obligations.DisconnectReturnsToListening := by
  intro s d heng hpump hphase hrx
  have hrun : ∀ e, s.pump.get e = .running := fun e => by rw [hpump]; cases e <;> rfl
  have hread : ∀ e, s.phase.get e = .awaitRead := fun e => by rw [hphase]; cases e <;> rfl
  obtain ⟨rest, hfirst⟩ := exec_pumpOf_fails ⟨heng, hrun d⟩ (hread d) (hrx d)
  generalize ht : s.afterFailure d { s.env with rx := s.env.rx.set d rest } (.rxFail d) (readFailure d) = t at hfirst
  have hother : t.pumpRuns d.other ∧ t.phase.get d.other = .awaitRead ∧ (t.env.rx.get d.other).head? = some .fail := by
    subst ht; exact ⟨⟨heng, by simp [State.afterFailure, hrun]⟩, by simp [State.afterFailure, hread],
      by simp [State.afterFailure, hrx]⟩
  obtain ⟨hruns, hphase', hrx'⟩ := hother
  obtain ⟨rest', hsecond⟩ := exec_pumpOf_fails hruns hphase' hrx'
  generalize hu : t.afterFailure d.other { t.env with rx := t.env.rx.set d.other rest' } (.rxFail d.other)
    (readFailure d.other) = u at hsecond
  have hueng : u.eng = .relaying := by subst hu ht; exact heng
  have hupump : u.pump = .both .stopped := by subst hu ht; cases d <;> rfl
  have hjoin := (EngineMove.joins hueng hupump).exec_eq
  have hteardown := (EngineMove.tearsDown (s := { u with eng := .tornDown }) rfl).exec_eq
  refine ⟨_, (execAll_cons hfirst).trans ((execAll_cons hsecond).trans ((execAll_cons hjoin).trans
    (execAll_cons hteardown))), rfl, rfl, rfl, ?_, hupump, ?_, ?_, ?_⟩ <;> (subst hu ht; rfl)

end Sys2Proof.Machine

/-! ### Proofs: the dispatcher -/

namespace Sys2Proof.Machine

/-! #### The hand-off -/

theorem State.handOff_noSink {s : State} (h : s.cfg.sinkPresent = false) (d : Dir) (f : List Byte) (n : Bool) :
    s.handOff d f n = s := by
  simp [State.handOff, h]

/-- R220: with a sink the choice decides between the new task and HandoffFail. -/
theorem State.handOff_sink {s : State} (h : s.cfg.sinkPresent = true) {c : Bool} {s' : State}
    (htake : s.takeHandoff = (c, s')) (d : Dir) (f : List Byte) (n : Bool) :
    s.handOff d f n = if c then { s' with inflight := s'.inflight ++ [newTask d f n] }
      else s'.logFailure .handoffFail none := by
  cases c <;> simp [State.handOff, h, htake]

theorem State.takeHandoff_cons {s : State} {c : Bool} {rest : List Bool} (h : s.env.handoff = c :: rest) :
    s.takeHandoff = (c, { s with env := { s.env with handoff := rest } }) := by
  simp [State.takeHandoff, h]

theorem State.takeHandoff_nil {s : State} (h : s.env.handoff = []) :
    s.takeHandoff = (Config.handoffSucceeds s.freeHandoff, { s with freeHandoff := s.freeHandoff + 1 }) := by
  simp [State.takeHandoff, h]

/-- Settles O49: the choice is the one listed, or one of the two. -/
theorem handOffOfFrame : Obligations.HandOffOfFrame := by
  refine fun s d f n rest => ⟨fun hsink => State.handOff_noSink hsink d f n,
    fun hsink hlist => State.handOff_sink hsink (State.takeHandoff_cons hlist) d f n,
    fun hsink hlist => State.handOff_sink hsink (State.takeHandoff_cons hlist) d f n, fun hsink hlist => ?free⟩
  case free =>
    rw [State.handOff_sink hsink (State.takeHandoff_nil hlist)]
    cases Config.handoffSucceeds s.freeHandoff
    · exact .inr rfl
    · exact .inl rfl

/-! #### One step of a task -/

theorem filter_relayEvent_of_false {more : List Event} (h : ∀ e ∈ more, relayEvent e = false) :
    more.filter relayEvent = [] := by
  simpa [List.filter_eq_nil_iff] using h

/-- R226: a step of a task is not seen by the relay. -/
theorem DispatchMove.relayView_eq {s t : State} {k : Nat} (h : DispatchMove s k t) : relayView t = relayView s := by
  cases h with
  | replaces task task' rest free more hk hf hsound hmore =>
    have hfilter := filter_relayEvent_of_false fun e he => (hmore e he).1
    simp [relayView, hfilter]
  | removes => rfl

theorem exec_dispatch_moves {s t : State} {k : Nat} (h : exec (.dispatch k) s = .next t) : t = s ∨ DispatchMove s k t :=
  execDispatch_moves h

theorem exec_dispatch_relayView {s t : State} {k : Nat} (h : exec (.dispatch k) s = .next t) :
    relayView t = relayView s := by
  rcases exec_dispatch_moves h with rfl | hmove
  · rfl
  · exact hmove.relayView_eq

/-- The place a task stands at exists. -/
theorem DispatchMove.lt_length {s t : State} {k : Nat} (h : DispatchMove s k t) : k < s.inflight.length := by
  cases h <;> exact (List.getElem?_eq_some_iff.1 ‹_›).1

/-- Putting back what stands at a place, or removing at a place that does not exist, changes nothing. -/
theorem exists_eq_set_or_eq_eraseIdx {α : Type} (l : List α) (k : Nat) : (∃ a, l = l.set k a) ∨ l = l.eraseIdx k := by
  by_cases hk : k < l.length
  · exact .inl ⟨l[k], by simp⟩
  · exact .inr (List.eraseIdx_of_length_le (by omega)).symm

/-- Settles O52. -/
theorem dispatchTouchesItsTaskOnly : Obligations.DispatchTouchesItsTaskOnly := by
  intro s t k h
  rcases exec_dispatch_moves h with rfl | hmove
  · exact ⟨rfl, rfl, rfl, rfl, rfl, fun _ => rfl, exists_eq_set_or_eq_eraseIdx t.inflight k⟩
  · have hlt := hmove.lt_length
    have hview := hmove.relayView_eq
    have hquiet := hmove.quiet
    cases hmove with
    | replaces task task' rest free more =>
      exact ⟨hview, rfl, rfl, rfl, rfl, fun hge => absurd hlt (by omega), .inl ⟨task', rfl⟩⟩
    | removes task => exact ⟨hview, rfl, rfl, rfl, rfl, fun hge => absurd hlt (by omega), .inr rfl⟩

/-! #### The life of a task -/

/-- At most `n` steps of the task at place `k` end it, and leave the others. -/
def EndsWithin (n k : Nat) (s : State) : Prop :=
  ∃ (m : Nat) (u : State), m ≤ n ∧ execAll (List.replicate m (.dispatch k)) s = .next u ∧
    u.inflight = s.inflight.eraseIdx k

theorem EndsWithin.mono {n m k : Nat} {s : State} (h : EndsWithin n k s) (hle : n ≤ m) : EndsWithin m k s := by
  obtain ⟨j, u, hj, hu⟩ := h
  exact ⟨j, u, hj.trans hle, hu⟩

theorem endsWithin_succ {n k : Nat} {s t : State} {task : Task} (hstep : exec (.dispatch k) s = .next t)
    (hset : t.inflight = s.inflight.set k task) (h : EndsWithin n k t) : EndsWithin (n + 1) k s := by
  obtain ⟨m, u, hm, hu, hinflight⟩ := h
  refine ⟨m + 1, u, by omega, ?_, by rw [hinflight, hset, List.eraseIdx_set_eq]⟩
  rw [List.replicate_succ, execAll_cons hstep, hu]

theorem getElem?_set_of_some {s t : State} {k : Nat} {task task' : Task} (htask : s.inflight[k]? = some task)
    (hset : t.inflight = s.inflight.set k task') : t.inflight[k]? = some task' := by
  have hlt : k < s.inflight.length := (List.getElem?_eq_some_iff.1 htask).1
  simp [hset, hlt]

section

variable {s : State} {k : Nat} {t : Task} (htask : s.inflight[k]? = some t)

include htask

theorem endsWithin_done (hstage : t.stage = .done) : EndsWithin 1 k s :=
  ⟨1, s.dropTask k, le_rfl, execAll_cons (exec_dispatch_done htask hstage), rfl⟩

theorem endsWithin_describe (hstage : t.stage = .describe) : EndsWithin 2 k s := by
  have hset : (dispatchDescribe s k t).inflight = s.inflight.set k { t with stage := .done } := by
    rcases hdescriber : s.env.describer with _ | ⟨a, rest⟩
    · rw [dispatchDescribe_nil hdescriber]
    · rw [dispatchDescribe_cons hdescriber]
  exact endsWithin_succ (exec_dispatch_describe htask hstage) hset
    (endsWithin_done (getElem?_set_of_some htask hset) rfl)

end

/-- R222 to R224: the stages before the last two, each one step from the next. -/
theorem endsWithin_unframed {s : State} {k : Nat} {t : Task} (htask : s.inflight[k]? = some t)
    (hstage : t.stage = .unframed) : EndsWithin 3 k s := by
  have hset : (dispatchUnframed s k t).inflight = s.inflight.set k
      { t with stage := if (kindOf t.port t.cmd).described then .describe else .done } := rfl
  have hnext := getElem?_set_of_some htask hset
  refine endsWithin_succ (exec_dispatch_unframed htask hstage) hset ?_
  by_cases hdescribed : (kindOf t.port t.cmd).described
  · exact endsWithin_describe hnext (if_pos hdescribed)
  · exact (endsWithin_done hnext (if_neg hdescribed)).mono (by omega)

theorem endsWithin_decode {s : State} {k : Nat} {t : Task} (htask : s.inflight[k]? = some t)
    (hstage : t.stage = .decode) : EndsWithin 4 k s := by
  have hstep := exec_dispatch_decode htask hstage
  rcases hdec : decodeFrame t.frame with ⟨p, port, cmd, kind⟩ | r
  · rw [dispatchDecode_of_ok hdec] at hstep
    exact endsWithin_succ hstep rfl (endsWithin_unframed (getElem?_set_of_some htask rfl) rfl)
  · rw [dispatchDecode_of_invalidFrame hdec] at hstep
    exact endsWithin_succ hstep rfl ((endsWithin_done (getElem?_set_of_some htask rfl) rfl).mono (by omega))

theorem endsWithin_framed {s : State} {k : Nat} {t : Task} (htask : s.inflight[k]? = some t)
    (hstage : t.stage = .framed) : EndsWithin 5 k s :=
  endsWithin_succ (exec_dispatch_framed htask hstage) rfl (endsWithin_decode (getElem?_set_of_some htask rfl) rfl)

/-- R228: whatever its stage, a task ends. -/
theorem endsWithin_five {s : State} {k : Nat} {t : Task} (htask : s.inflight[k]? = some t) : EndsWithin 5 k s := by
  rcases hstage : t.stage
  · exact endsWithin_framed htask hstage
  · exact (endsWithin_decode htask hstage).mono (by omega)
  · exact (endsWithin_unframed htask hstage).mono (by omega)
  · exact (endsWithin_describe htask hstage).mono (by omega)
  · exact (endsWithin_done htask hstage).mono (by omega)

/-- The step from `s` to `u` put the task `t` at the place `k` and emitted `es`; the configuration and the offers are as they were. -/
structure StageStep (s : State) (k : Nat) (t : Task) (es : List Event) (u : State) : Prop where
  exec_eq : exec (.dispatch k) s = .next u
  inflight : u.inflight = s.inflight.set k t
  trace : u.trace = s.trace ++ es
  cfg : u.cfg = s.cfg

section

variable {s : State} {k : Nat} {t : Task} (htask : s.inflight[k]? = some t)

include htask

theorem stageStep_framed (hstage : t.stage = .framed) : ∃ u,
    StageStep s k { t with stage := .decode } [.obs s.cfg.instName s.cfg.b64 (.framed t.dir t.frame t.norm)] u ∧
      u.env = s.env :=
  ⟨_, ⟨exec_dispatch_framed htask hstage, rfl, rfl, rfl⟩, rfl⟩

theorem stageStep_decode (hstage : t.stage = .decode) {p : List Byte} {port cmd : Nibble} {kind : Kind}
    (hdec : decodeFrame t.frame = .ok p port cmd kind) : ∃ u,
    StageStep s k { t with stage := .unframed, payload := p, port := port, cmd := cmd } [] u ∧ u.env = s.env := by
  have hstep := exec_dispatch_decode htask hstage
  rw [dispatchDecode_of_ok hdec] at hstep
  exact ⟨_, ⟨hstep, rfl, by simp, rfl⟩, rfl⟩

theorem stageStep_unframed (hstage : t.stage = .unframed) (hdescribed : (kindOf t.port t.cmd).described = true) : ∃ u,
    StageStep s k { t with stage := .describe }
      [.obs s.cfg.instName s.cfg.b64 (.unframed t.dir t.port t.cmd (kindOf t.port t.cmd) t.payload)] u ∧
      u.env = s.env :=
  ⟨_, ⟨exec_dispatch_unframed htask hstage, by simp [dispatchUnframed, hdescribed], rfl, rfl⟩, rfl⟩

/-- R228: the answer always comes, the one the environment states or a free one. -/
theorem stageStep_describe (hstage : t.stage = .describe) : ∃ (u : State) (a : DescAnswer),
    StageStep s k { t with stage := .done } (describeEvents s.cfg t a) u ∧
      ∀ a' rest, s.env.describer = a' :: rest → a = a' ∧ u.env.describer = rest := by
  have hstep := exec_dispatch_describe htask hstage
  rcases hdescriber : s.env.describer with _ | ⟨a, rest⟩
  · rw [dispatchDescribe_nil hdescriber] at hstep
    exact ⟨_, _, ⟨hstep, rfl, rfl, rfl⟩, by simp⟩
  · rw [dispatchDescribe_cons hdescriber] at hstep
    exact ⟨_, _, ⟨hstep, rfl, rfl, rfl⟩, by simp⟩

end

/-- R138: DECODE gives the kind of its port and command, and R224 says when that kind is described. -/
theorem decodeFrame_described {f p : List Byte} {port cmd : Nibble} {kind : Kind} (h : decodeFrame f = .ok p port cmd kind)
    (hkind : kind = .dataFrame ∨ kind = .ackMode) : kind = kindOf port cmd ∧ (kindOf port cmd).described = true := by
  obtain ⟨-, -, -, rfl, -⟩ := decodeFrame_ok h
  exact ⟨rfl, by rcases hkind with hkind | hkind <;> rw [hkind] <;> rfl⟩

/-- Settles O51: every stage is left, and the five stages of a described frame emit their records in turn. -/
theorem describedTaskRecordsInOrder : Obligations.DescribedTaskRecordsInOrder := by
  refine fun s k t htask => ⟨endsWithin_five htask, fun p port cmd kind hstage hdec hkind => ?records⟩
  case records =>
    obtain ⟨rfl, hdescribed⟩ := decodeFrame_described hdec hkind
    obtain ⟨u1, h1, henv1⟩ := stageStep_framed htask hstage
    have ht1 := getElem?_set_of_some htask h1.inflight
    obtain ⟨u2, h2, henv2⟩ := stageStep_decode ht1 rfl hdec
    have ht2 := getElem?_set_of_some ht1 h2.inflight
    obtain ⟨u3, h3, henv3⟩ := stageStep_unframed ht2 rfl hdescribed
    have ht3 := getElem?_set_of_some ht2 h3.inflight
    obtain ⟨u4, a, h4, hanswer⟩ := stageStep_describe ht3 rfl
    have ht4 := getElem?_set_of_some ht3 h4.inflight
    have h5 := exec_dispatch_done ht4 rfl
    rw [henv3, henv2, henv1] at hanswer
    refine ⟨u4.dropTask k, a, ?run, ?tasks, hanswer, ?trace⟩
    case run =>
      exact (execAll_cons h1.exec_eq).trans ((execAll_cons h2.exec_eq).trans ((execAll_cons h3.exec_eq).trans
        ((execAll_cons h4.exec_eq).trans (execAll_cons h5))))
    case tasks => simp [h4.inflight, h3.inflight, h2.inflight, h1.inflight, List.eraseIdx_set_eq]
    case trace =>
      simp only [State.dropTask_trace, h4.trace, h3.trace, h2.trace, h1.trace, h3.cfg, h2.cfg, h1.cfg, describeEvents]
      cases a <;> simp

end Sys2Proof.Machine

/-! ### Proofs: the relay without its observer -/

namespace Sys2Proof.Machine

/-! #### What the relay sees of the assembler -/

@[simp] theorem relayView_answer (s : State) (a : Answer) : relayView (s.answer a) = relayView s := by
  simp [relayView, relayEvent]

/-- What PROCESSBYTE of `b` to `d` gives, with the accumulator `acc`, as far as the relay sees it (R113). -/
def RelayView.processByte (v : RelayView) (d : Dir) (r : ByteResult) : RelayView :=
  { v with
    acc := v.acc.set d r.acc, ovf := v.ovf.set d (v.ovf.get d || r.overflow),
    freeFrame := v.freeFrame + if v.ovf.get d ∧ ¬ r.overflow then 1 else 0 }

/-- The frame handed out, if any (R113, R256). -/
def RelayView.frameOut (v : RelayView) (d : Dir) (r : ByteResult) : Option (List Byte × Bool) :=
  if v.ovf.get d ∧ ¬ r.overflow then Config.faultedFrame v.freeFrame else r.frame

theorem relayView_processByte (s : State) (d : Dir) (b : Byte) : relayView (s.processByte d b).1 =
    (relayView s).processByte d (processByteAcc s.cfg.accDepth (s.acc.get d) b) := by
  rw [State.processByte_eq]
  split <;> simp [relayView, RelayView.processByte, relayEvent, *]

theorem State.feed_result_relayView (s : State) (d : Dir) (b : Byte) :
    (s.feed d b).2 = (relayView s).frameOut d (processByteAcc s.cfg.accDepth (drdAcc (s.acc.get d)) b) :=
  State.feed_result s d b

/-- The relay sees of a FEED what PROCESSBYTE does after DRD, and the frame event of the frame handed out (R170). -/
theorem relayView_feed (s : State) (d : Dir) (b : Byte) : relayView (s.feed d b).1 =
    { (relayView s).processByte d (processByteAcc s.cfg.accDepth (drdAcc (s.acc.get d)) b) with
      events := (relayView s).events ++ (s.feed d b).2.toList.map fun fn => .frame d fn.1 fn.2 } := by
  obtain ⟨env, c, g, tasks, more, o, heq, rfl, ⟨rest, rfl⟩, rfl, ⟨hnone, -, hmore⟩ | ⟨f, n, hsome, -, hmore⟩⟩ :=
    s.feed_cases d b
  · rw [heq, hnone]
    rcases hmore with rfl | rfl <;> simp [relayView, RelayView.processByte, relayEvent]
  · rw [heq, hsome]
    rcases hmore with rfl | rfl <;> simp [relayView, RelayView.processByte, relayEvent, List.filter]

/-! #### Operations on states that look the same to the relay -/

section

variable {s s' : State} (hview : relayView s = relayView s')

include hview

theorem relayView_processByte_congr (d : Dir) (b : Byte) :
    relayView (s.processByte d b).1 = relayView (s'.processByte d b).1 := by
  have hacc : s.acc = s'.acc := congrArg RelayView.acc hview
  have hdepth : s.cfg.accDepth = s'.cfg.accDepth := congrArg RelayView.accDepth hview
  rw [relayView_processByte, relayView_processByte, hview, hacc, hdepth]

theorem relayView_feed_congr (d : Dir) (b : Byte) : relayView (s.feed d b).1 = relayView (s'.feed d b).1 := by
  have hacc : s.acc = s'.acc := congrArg RelayView.acc hview
  have hdepth : s.cfg.accDepth = s'.cfg.accDepth := congrArg RelayView.accDepth hview
  rw [relayView_feed, relayView_feed, State.feed_result_relayView, State.feed_result_relayView, hview, hacc, hdepth]

theorem relayView_drd_congr (d : Dir) : relayView (s.drd d) = relayView (s'.drd d) := by
  have hacc : s.acc = s'.acc := congrArg RelayView.acc hview
  have hdrd : ∀ u : State, relayView (u.drd d) = { relayView u with acc := u.acc.set d (drdAcc (u.acc.get d)) } :=
    fun _ => rfl
  rw [hdrd, hdrd, hview, hacc]

theorem pumpRuns_congr (d : Dir) : s.pumpRuns d ↔ s'.pumpRuns d := by
  have heng : s.eng = s'.eng := congrArg RelayView.eng hview
  have hpump : s.pump = s'.pump := congrArg RelayView.pump hview
  rw [State.pumpRuns, State.pumpRuns, heng, hpump]

/-- A call on an assembler whose effects look the same, where the two states do. -/
theorem whenSoleSource_congr {d : Dir} {t t' u : State} (ht : relayView t = relayView t')
    (h : whenSoleSource s d t = .next u) : ∃ u', whenSoleSource s' d t' = .next u' ∧ relayView u = relayView u' := by
  have heng : s.eng = s'.eng := congrArg RelayView.eng hview
  rcases whenSoleSource_next h with ⟨hdead, rfl⟩ | ⟨hopen, rfl⟩
  · exact ⟨s', whenSoleSource_dead (heng ▸ hdead), hview⟩
  · exact ⟨t', whenSoleSource_of_open ⟨heng ▸ hopen.1, fun hruns => hopen.2 ((pumpRuns_congr hview d).2 hruns)⟩, ht⟩

end

/-- A byte on offer taken from two states that look the same. -/
theorem relayView_takeByte_congr {s s' : State} (hview : relayView s = relayView s') (d : Dir) (b : Byte)
    (rest : List RxOffer) : relayView (s.takeByte d b rest) = relayView (s'.takeByte d b rest) := by
  simp only [relayView, RelayView.mk.injEq] at hview
  simp [relayView, State.takeByte, hview]

theorem relayView_afterRead_congr {s s' : State} (hview : relayView s = relayView s') (d : Dir) (b : Byte)
    (rest : List RxOffer) : relayView (s.afterRead d b rest) = relayView (s'.afterRead d b rest) := by
  have hfeed := relayView_feed_congr (relayView_takeByte_congr hview d b rest) d b
  have hphase : ∀ u : State, relayView (u.setPhase d (.awaitWrite b)) =
      { relayView u with phase := (relayView u).phase.set d (.awaitWrite b) } := fun _ => rfl
  rw [State.afterRead, State.afterRead, hphase, hphase, hfeed]

/-- A pump with the same surroundings does the same. -/
theorem PumpMove.congr {s s' t : State} {d : Dir} (hview : relayView s = relayView s') (h : PumpMove s d t) :
    ∃ t', PumpMove s' d t' ∧ relayView t = relayView t' := by
  have hruns : ∀ {e}, s.pumpRuns e → s'.pumpRuns e := fun {e} => (pumpRuns_congr hview e).1
  have hphase : s.phase = s'.phase := congrArg RelayView.phase hview
  have hrx : s.env.rx = s'.env.rx := congrArg RelayView.rx hview
  have htx : s.env.tx = s'.env.tx := congrArg RelayView.tx hview
  cases h with
  | reads b rest h1 h2 h3 =>
    exact ⟨_, .reads b rest (hruns h1) (hphase ▸ h2) (hrx ▸ h3), relayView_afterRead_congr hview d b rest⟩
  | readFails rest h1 h2 h3 =>
    refine ⟨_, .readFails rest (hruns h1) (hphase ▸ h2) (hrx ▸ h3), ?_⟩
    simp only [relayView, RelayView.mk.injEq] at hview
    simp [relayView, State.afterFailure, hview, List.filter, relayEvent]
  | writes b rest h1 h2 h3 =>
    refine ⟨_, .writes b rest (hruns h1) (hphase ▸ h2) (htx ▸ h3), ?_⟩
    simp only [relayView, RelayView.mk.injEq] at hview
    simp [relayView, hview]
  | writeFails b rest h1 h2 h3 =>
    refine ⟨_, .writeFails b rest (hruns h1) (hphase ▸ h2) (htx ▸ h3), ?_⟩
    simp only [relayView, RelayView.mk.injEq] at hview
    simp [relayView, State.afterFailure, hview, List.filter, relayEvent]

/-- So does the engine. -/
theorem EngineMove.congr {s s' t : State} {i : Instr} (hview : relayView s = relayView s') (h : EngineMove s i t) :
    ∃ t', EngineMove s' i t' ∧ relayView t = relayView t' := by
  simp only [relayView, RelayView.mk.injEq] at hview
  obtain ⟨hacc, heng, hpump, hphase, htcp, hser, hlsn, hovf, hevents, hfree, hrx, htx, hbind, hserOpen, haccepted,
    hunexpected, hport, hloopback, hdevice, hbaud, hdepth, hflush⟩ := hview
  cases h with
  | binds rest h1 h2 => exact ⟨_, .binds rest (heng ▸ h1) (hbind ▸ h2), by simp [relayView, *]⟩
  | bindFails rest h1 h2 =>
    exact ⟨_, .bindFails rest (heng ▸ h1) (hbind ▸ h2), by simp [relayView, relayEvent, List.filter, *]⟩
  | accepts n h1 h2 => exact ⟨_, .accepts n (heng ▸ h1) (haccepted ▸ h2), by simp [relayView, *]⟩
  | opens rest h1 h2 => exact ⟨_, .opens rest (heng ▸ h1) (hserOpen ▸ h2), by simp [relayView, *]⟩
  | openFails rest h1 h2 =>
    exact ⟨_, .openFails rest (heng ▸ h1) (hserOpen ▸ h2), by simp [relayView, relayEvent, List.filter, *]⟩
  | joins h1 h2 => exact ⟨_, .joins (heng ▸ h1) (hpump ▸ h2), by simp [relayView, *]⟩
  | tearsDown h1 => exact ⟨_, .tearsDown (heng ▸ h1), by simp [relayView, *]⟩
  | dies n h1 h2 h3 =>
    exact ⟨_, .dies n (heng ▸ h1) (heng ▸ h2) (hunexpected ▸ h3), by simp [relayView, relayEvent, List.filter, *]⟩

/-! #### Any operation but a step of a task -/

theorem PumpMove.exec_eq {s t : State} {d : Dir} (h : PumpMove s d t) : exec (pumpOf d) s = .next t := by
  cases h with
  | reads b rest hruns hphase hrx => exact exec_pumpOf_reads hruns hphase hrx
  | readFails rest hruns hphase hrx => exact exec_pumpOf_readFails hruns hphase hrx
  | writes b rest hruns hphase htx => exact exec_pumpOf_writes hruns hphase htx
  | writeFails b rest hruns hphase htx => exact exec_pumpOf_writeFails hruns hphase htx

theorem exec_pumpOf_moves {s t : State} {d : Dir} (h : exec (pumpOf d) s = .next t) : t = s ∨ PumpMove s d t := by
  rw [exec_pumpOf] at h
  cases h
  exact pumpStep_moves s d

theorem exec_engineStep_next {i : Instr} (hi : i ∈ engineSteps) (s : State) : ∃ t, exec i s = .next t := by
  simp only [engineSteps, List.mem_cons, List.not_mem_nil, or_false] at hi
  rcases hi with rfl | rfl | rfl | rfl | rfl | rfl <;> exact ⟨_, rfl⟩

/-- An operation that either moves, as it does from every state that looks the same, or waits: where the one state waits the
other does, since its move would be the first one's too. -/
theorem exec_congr_of_moves {i : Instr} {Move : State → State → Prop}
    (hmoves : ∀ {s t}, exec i s = .next t → t = s ∨ Move s t) (hexec : ∀ {s t}, Move s t → exec i s = .next t)
    (hnext : ∀ s, ∃ t, exec i s = .next t)
    (hcongr : ∀ {s s' t}, relayView s = relayView s' → Move s t → ∃ t', Move s' t' ∧ relayView t = relayView t')
    {s s' t : State} (hview : relayView s = relayView s') (h : exec i s = .next t) :
    ∃ t', exec i s' = .next t' ∧ relayView t = relayView t' := by
  rcases hmoves h with rfl | hmove
  · obtain ⟨t', ht'⟩ := hnext s'
    refine ⟨t', ht', ?_⟩
    rcases hmoves ht' with rfl | hmove'
    · exact hview
    · obtain ⟨u, hu, hviewu⟩ := hcongr hview.symm hmove'
      have hsame := hexec hu
      rw [h] at hsame
      cases hsame
      exact hviewu.symm
  · obtain ⟨t', ht', hviewt⟩ := hcongr hview hmove
    exact ⟨t', hexec ht', hviewt⟩

/-- A one-byte row answers, whatever the payload. -/
theorem oneByteRow_answers (k : Kind) (p c : Nibble) (q : List Byte) :
    ∃ a, ∀ s, oneByteRow k p c q s = .next (s.answer a) := by
  by_cases hq : q.length = 1
  · exact ⟨_, fun s => (oneByteRow_spec k p c q s).1 hq⟩
  · exact ⟨_, fun s => (oneByteRow_spec k p c q s).2 hq⟩

/-- What an operation is to the relay: an answer that reads no state, a refusal that reads none, a call on an assembler, or a
step of an agent. -/
theorem instr_cases (i : Instr) :
    (∃ a, ∀ s, exec i s = .next (s.answer a)) ∨ (∃ r, ∀ s, exec i s = .refused r) ∨
    (∃ d b, ∀ s, exec i s = feedCall s d b) ∨ (∃ d, i = .drd d) ∨ (∃ d b, i = .processbyte d b) ∨
    (∃ d, i = pumpOf d) ∨ i ∈ engineSteps ∨ ∃ k, i = .dispatch k := by
  cases i with
  | feedFend d => exact .inr (.inr (.inl ⟨d, FEND, fun _ => rfl⟩))
  | feedData d b | feed d b => exact .inr (.inr (.inl ⟨d, b, fun _ => rfl⟩))
  | drd d => exact .inr (.inr (.inr (.inl ⟨d, rfl⟩)))
  | processbyte d b => exact .inr (.inr (.inr (.inr (.inl ⟨d, b, rfl⟩))))
  | pumpN2m => exact .inr (.inr (.inr (.inr (.inr (.inl ⟨.n2m, rfl⟩)))))
  | pumpM2n => exact .inr (.inr (.inr (.inr (.inr (.inl ⟨.m2n, rfl⟩)))))
  | engBind | engAccept | engOpen | engJoin | engTeardown | engFatal => simp [engineSteps]
  | dispatch k => simp
  | txdelay | persistence | slottime | txtail | fullduplex => exact .inl (oneByteRow_answers _ _ _ _)
  | exitkiss q =>
    by_cases hq : q.length = 0
    · exact .inl ⟨_, fun s => if_pos hq⟩
    · exact .inl ⟨_, fun s => if_neg hq⟩
  | normalize q =>
    by_cases hq : q = []
    · exact .inr (.inl ⟨_, fun s => if_pos hq⟩)
    · exact .inl ⟨_, fun s => if_neg hq⟩
  | _ => exact .inl ⟨_, fun _ => rfl⟩

/-- R226 for one operation that is no step of a task. -/
theorem exec_congr {i : Instr} (hi : isDispatch i = false) {s s' t : State} (hview : relayView s = relayView s')
    (h : exec i s = .next t) : ∃ t', exec i s' = .next t' ∧ relayView t = relayView t' := by
  rcases instr_cases i with ⟨a, ha⟩ | ⟨r, hr⟩ | ⟨d, b, hfeed⟩ | ⟨d, rfl⟩ | ⟨d, b, rfl⟩ | ⟨d, rfl⟩ | hengine | ⟨k, rfl⟩
  · rw [ha] at h
    cases h
    exact ⟨_, ha s', by rw [relayView_answer, relayView_answer, hview]⟩
  · rw [hr] at h; cases h
  · rw [hfeed] at h ⊢
    refine whenSoleSource_congr hview ?_ h
    rw [relayView_answer, relayView_answer, relayView_feed_congr hview]
  · exact whenSoleSource_congr hview (relayView_drd_congr hview d) h
  · refine whenSoleSource_congr hview ?_ h
    rw [relayView_answer, relayView_answer, relayView_processByte_congr hview]
  · exact exec_congr_of_moves exec_pumpOf_moves PumpMove.exec_eq (fun s => ⟨_, exec_pumpOf d s⟩)
      (fun hv hm => hm.congr hv) hview h
  · exact exec_congr_of_moves (engineStep_moves hengine) EngineMove.exec_eq (exec_engineStep_next hengine)
      (fun hv hm => hm.congr hv) hview h
  · simp [isDispatch, Instr.place] at hi

/-- A dispatch step is one of the operation DISPATCH. -/
theorem eq_dispatch_of_isDispatch {i : Instr} (h : isDispatch i = true) : ∃ k, i = .dispatch k := by
  cases i <;> simp [isDispatch, Instr.place] at h
  exact ⟨_, rfl⟩

theorem execAll_cons_next {i : Instr} {l : List Instr} {s t : State} (h : execAll (i :: l) s = .next t) :
    ∃ u, exec i s = .next u ∧ execAll l u = .next t := by
  rw [execAll] at h
  split at h
  · exact ⟨_, ‹_›, h⟩
  · cases h
  · cases h

/-- Settles O53: a step of a task leaves the view, and any other operation does the same to states with the same view. -/
theorem observerNeverAffectsRelay : Obligations.ObserverNeverAffectsRelay := by
  intro run
  induction run with
  | nil => intro s s' t hview h; cases h; exact ⟨s', rfl, hview⟩
  | cons i run ih =>
    intro s s' t hview h
    obtain ⟨u, hu, hrest⟩ := execAll_cons_next h
    cases hi : isDispatch i with
    | true =>
      obtain ⟨k, rfl⟩ := eq_dispatch_of_isDispatch hi
      rw [List.filter_cons_of_neg (by simp [hi])]
      exact ih u s' t ((exec_dispatch_relayView hu).trans hview) hrest
    | false =>
      obtain ⟨u', hu', hviewu⟩ := exec_congr hi hview hu
      rw [List.filter_cons_of_pos (by simp [hi]), execAll_cons hu']
      exact ih u u' t hviewu hrest

end Sys2Proof.Machine

/-! ### Proofs: a disconnect in every fair run -/

namespace Sys2Proof.Machine

/-! #### Fairness -/

/-- The rule of weak fairness: where `P` keeps the step `i` enabled, every step keeps `P` or brings about `Q`, and `i` brings about
`Q`, there `P` leads to `Q`. -/
theorem FairRun.leadsTo {ops : Nat → Instr} {run : Nat → State} (hrun : IsRun ops run) (hfair : FairRun ops run)
    {i : Instr} (hi : i ∈ relaySteps) {P Q : State → Prop} (henabled : ∀ s, P s → Enabled i s)
    (hkeeps : ∀ s t j, P s → exec j s = .next t → P t ∨ Q t) (htaken : ∀ s t, P s → exec i s = .next t → Q t)
    {n : Nat} (hn : P (run n)) : ∃ m, Q (run m) := by
  obtain ⟨m, hle, hm⟩ := hfair i hi n (henabled _ hn)
  have huntil : ∀ k, P (run (n + k)) ∨ ∃ m, Q (run m) := by
    intro k
    induction k with
    | zero => exact .inl hn
    | succ k ih =>
      refine ih.elim (fun hk => ?_) .inr
      exact (hkeeps _ _ _ hk (hrun (n + k))).imp_right fun hq => ⟨_, hq⟩
  obtain ⟨k, rfl⟩ := Nat.exists_eq_add_of_le hle
  rcases huntil k with hk | hq
  · rcases hm with hop | hdisabled
    · exact ⟨n + k + 1, htaken _ _ hk (hop ▸ hrun (n + k))⟩
    · exact absurd (henabled _ hk) hdisabled
  · exact hq

/-! #### The work left to a direction -/

/-- How many bytes are on offer before the first failure. -/
def bytesBeforeFail : List RxOffer → Nat
  | .byte _ :: rest => bytesBeforeFail rest + 1
  | .fail :: _ | [] => 0

/-- The steps the pump of `d` has left: none once it is stopped; else one for the failure, two for each byte before it, one for the byte
in hand. -/
def workLeft (s : State) (d : Dir) : Nat :=
  match s.pump.get d with
  | .stopped => 0
  | .running => 1 + 2 * bytesBeforeFail (s.env.rx.get d) + (heldBytes (s.phase.get d)).length

/-- The steps both pumps have left. -/
def totalWork (s : State) : Nat := workLeft s .n2m + workLeft s .m2n

theorem totalWork_eq (s : State) (d : Dir) : totalWork s = workLeft s d + workLeft s d.other := by
  cases d
  · rfl
  · exact Nat.add_comm _ _

/-- The offers of direction `d` bring its pump to a stop (R184): its reads end in a failure, and every write up to it is answered. -/
def StopsInTime (s : State) (d : Dir) : Prop :=
  s.pump.get d = .running →
    .fail ∈ s.env.rx.get d ∧
      bytesBeforeFail (s.env.rx.get d) + (heldBytes (s.phase.get d)).length ≤ (s.env.tx.get d).length

/-- Relaying with nothing unexpected on offer, and both directions coming to a stop. -/
structure Draining (l : Listener) (s : State) : Prop where
  eng : s.eng = .relaying
  unexpected : s.env.unexpected = 0
  lsn : s.lsn = l
  stops : ∀ d, StopsInTime s d

theorem bytesBeforeFail_append (bytes : List Byte) (rest : List RxOffer) :
    bytesBeforeFail (bytes.map RxOffer.byte ++ .fail :: rest) = bytes.length := by
  induction bytes with
  | nil => rfl
  | cons b bytes ih => simp [bytesBeforeFail, ih]

theorem workLeft_eq_zero_iff (s : State) (d : Dir) : workLeft s d = 0 ↔ s.pump.get d = .stopped := by
  unfold workLeft
  split <;> simp_all

theorem workLeft_congr {s t : State} {d : Dir} (hpump : t.pump.get d = s.pump.get d)
    (hphase : t.phase.get d = s.phase.get d) (hrx : t.env.rx.get d = s.env.rx.get d) : workLeft t d = workLeft s d := by
  unfold workLeft; rw [hpump, hphase, hrx]

theorem stopsInTime_congr {s t : State} {d : Dir} (hpump : t.pump.get d = s.pump.get d)
    (hphase : t.phase.get d = s.phase.get d) (hrx : t.env.rx.get d = s.env.rx.get d)
    (htx : t.env.tx.get d = s.env.tx.get d) (h : StopsInTime s d) : StopsInTime t d := by
  unfold StopsInTime at h ⊢; rwa [hpump, hphase, hrx, htx]

/-- Each move of a pump is one step less to its stop. -/
theorem PumpMove.workLeft_lt {s t : State} {d : Dir} (h : PumpMove s d t) (hstops : StopsInTime s d) :
    workLeft t d < workLeft s d ∧ StopsInTime t d := by
  have hrunning : s.pump.get d = .running := h.runs.2
  obtain ⟨hfail, hanswers⟩ := hstops hrunning
  cases h with
  | readFails rest hruns hphase hrx | writeFails b rest hruns hphase htx =>
    have hstopped : (s.pump.set d .stopped).get d = .stopped := PerDir.get_set_same _ _ _
    refine ⟨?_, fun hr => ?_⟩
    · rw [(workLeft_eq_zero_iff _ _).2 hstopped, Nat.pos_iff_ne_zero, Ne, workLeft_eq_zero_iff, hrunning]; decide
    · rw [show (State.afterFailure s d _ _ _).pump.get d = .stopped from hstopped] at hr; cases hr
  | reads b rest hruns hphase hrx =>
    have hread := afterRead_frame s d b rest
    obtain ⟨handoff, describer, henv⟩ := hread.env
    rw [hrx, hphase] at hanswers
    rw [hrx] at hfail
    refine ⟨?_, fun _ => ?_⟩
    · simp [workLeft, hread.pump, hrunning, henv, hread.phase, hrx, hphase, bytesBeforeFail, heldBytes]
      omega
    · simp [bytesBeforeFail, heldBytes] at hanswers hfail ⊢
      simpa [henv, hread.phase, heldBytes, hfail] using hanswers
  | writes b rest hruns hphase htx =>
    rw [htx, hphase] at hanswers
    refine ⟨by simp [workLeft, hrunning, hphase, heldBytes], fun _ => ⟨hfail, ?_⟩⟩
    simpa [heldBytes] using hanswers

/-- A pump that comes to a stop has a move until then. -/
theorem exists_pumpMove {s : State} {d : Dir} (hruns : s.pumpRuns d) (hstops : StopsInTime s d) : ∃ t, PumpMove s d t := by
  obtain ⟨hfail, hanswers⟩ := hstops hruns.2
  cases hphase : s.phase.get d with
  | awaitRead =>
    rcases hrx : s.env.rx.get d with _ | ⟨b | _, rest⟩
    · rw [hrx] at hfail; cases hfail
    · exact ⟨_, .reads b rest hruns hphase hrx⟩
    · exact ⟨_, .readFails rest hruns hphase hrx⟩
  | awaitWrite b =>
    rcases htx : s.env.tx.get d with _ | ⟨_ | _, rest⟩
    · rw [htx, hphase] at hanswers; simp [heldBytes] at hanswers
    · exact ⟨_, .writeFails b rest hruns hphase htx⟩
    · exact ⟨_, .writes b rest hruns hphase htx⟩

theorem enabled_pumpOf {s : State} {d : Dir} (hruns : s.pumpRuns d) (hstops : StopsInTime s d) :
    Enabled (pumpOf d) s := by
  obtain ⟨t, hmove⟩ := exists_pumpMove hruns hstops
  obtain ⟨hlt, -⟩ := hmove.workLeft_lt hstops
  intro hstays
  rw [hmove.exec_eq] at hstays
  cases hstays
  exact absurd hlt (lt_irrefl _)

/-! #### The stages of the way back -/

/-- Between the join and the teardown. -/
structure Joined (l : Listener) (s : State) : Prop where
  eng : s.eng = .tornDown
  unexpected : s.env.unexpected = 0
  lsn : s.lsn = l

/-- The way back is at its end. -/
structure Released (l : Listener) (s : State) : Prop where
  eng : s.eng = .listening
  ser : s.ser = .closed
  tcp : s.tcp = .closed
  lsn : s.lsn = l

theorem QuietStep.keeps_draining {l : Listener} {s t : State} (h : QuietStep s t) (hs : Draining l s) :
    Draining l t ∧ ∀ d, workLeft t d = workLeft s d := by
  obtain ⟨handoff, describer, henv⟩ := h.env
  have hpump : ∀ d, t.pump.get d = s.pump.get d := fun d => by rw [h.pump]
  have hphase : ∀ d, t.phase.get d = s.phase.get d := fun d => by rw [h.phase]
  have hrx : ∀ d, t.env.rx.get d = s.env.rx.get d := fun d => by rw [henv]
  have htx : ∀ d, t.env.tx.get d = s.env.tx.get d := fun d => by rw [henv]
  exact ⟨⟨h.eng.trans hs.eng, by rw [henv]; exact hs.unexpected, h.lsn.trans hs.lsn,
    fun d => stopsInTime_congr (hpump d) (hphase d) (hrx d) (htx d) (hs.stops d)⟩,
    fun d => workLeft_congr (hpump d) (hphase d) (hrx d)⟩

theorem PumpMove.keeps_draining {l : Listener} {s t : State} {d : Dir} (h : PumpMove s d t) (hs : Draining l s) :
    Draining l t ∧ workLeft t d < workLeft s d ∧ workLeft t d.other = workLeft s d.other := by
  have hf := h.frame
  obtain ⟨-, -, -, hunexpected⟩ := hf.offers
  obtain ⟨hlt, hstops⟩ := h.workLeft_lt (hs.stops d)
  refine ⟨⟨hf.eng.trans hs.eng, hunexpected.trans hs.unexpected, hf.lsn.trans hs.lsn, fun e => ?_⟩, hlt,
    workLeft_congr hf.pump hf.phase hf.rx⟩
  rcases Dir.eq_or_other d e with rfl | rfl
  · exact hstops
  · exact stopsInTime_congr hf.pump hf.phase hf.rx hf.tx (hs.stops d.other)

/-- While the relay drains every operation keeps it draining, with no more work left, or is the join of two stopped pumps. -/
theorem exec_draining {l : Listener} {s t : State} {j : Instr} (hs : Draining l s) (h : exec j s = .next t) :
    (Draining l t ∧ ∀ d, workLeft t d ≤ workLeft s d) ∨ (s.pump = .both .stopped ∧ Joined l t) := by
  rcases exec_relayMoves h with hquiet | ⟨d, -, hpump⟩ | hengine
  · obtain ⟨ht, hwork⟩ := hquiet.keeps_draining hs
    exact .inl ⟨ht, fun d => (hwork d).le⟩
  · obtain ⟨ht, hlt, hother⟩ := hpump.keeps_draining hs
    refine .inl ⟨ht, fun e => ?_⟩
    rcases Dir.eq_or_other d e with rfl | rfl
    · exact hlt.le
    · exact hother.le
  · have heng := hs.eng
    cases hengine with
    | joins _ hpump => exact .inr ⟨hpump, rfl, hs.unexpected, hs.lsn⟩
    | dies n _ _ hoffer => rw [hs.unexpected] at hoffer; cases hoffer
    | binds _ hne | bindFails _ hne | accepts _ hne | opens _ hne | openFails _ hne | tearsDown hne =>
      rw [heng] at hne; cases hne

/-- After the join every operation but the teardown leaves the engine there. -/
theorem exec_joined {l : Listener} {s t : State} {j : Instr} (hs : Joined l s) (h : exec j s = .next t) :
    Joined l t ∨ Released l t := by
  rcases exec_relayMoves h with hquiet | ⟨d, -, hpump⟩ | hengine
  · obtain ⟨handoff, describer, henv⟩ := hquiet.env
    exact .inl ⟨hquiet.eng.trans hs.eng, by rw [henv]; exact hs.unexpected, hquiet.lsn.trans hs.lsn⟩
  · have heng := hpump.runs.1
    rw [hs.eng] at heng; cases heng
  · have heng := hs.eng
    cases hengine with
    | tearsDown => exact .inr ⟨rfl, rfl, rfl, hs.lsn⟩
    | dies n _ _ hoffer => rw [hs.unexpected] at hoffer; cases hoffer
    | binds _ hne | bindFails _ hne | accepts _ hne | opens _ hne | openFails _ hne | joins hne =>
      rw [heng] at hne; cases hne

/-- A move of the engine changes its state, so it is enabled. -/
theorem EngineMove.enabled {s t : State} {i : Instr} (h : EngineMove s i t) (hne : t.eng ≠ s.eng) : Enabled i s := by
  intro hstays
  rw [h.exec_eq] at hstays
  cases hstays
  exact hne rfl

section

variable {ops : Nat → Instr} {run : Nat → State} (hrun : IsRun ops run) (hfair : FairRun ops run) {l : Listener}

include hrun hfair

/-- The teardown comes. -/
theorem joined_leadsTo {n : Nat} (h : Joined l (run n)) : ∃ m, Released l (run m) := by
  refine hfair.leadsTo hrun (i := .engTeardown) (P := Joined l) (by decide) (fun s hs => ?enabled)
    (fun s t j hs => exec_joined hs) (fun s t hs hexec => ?taken) h
  case enabled => exact (EngineMove.tearsDown hs.eng).enabled (by simp [hs.eng])
  case taken =>
    rw [(EngineMove.tearsDown hs.eng).exec_eq] at hexec
    cases hexec
    exact ⟨rfl, rfl, rfl, hs.lsn⟩

/-- With both pumps stopped the join comes. -/
theorem stopped_leadsTo {n : Nat} (h : Draining l (run n)) (hstopped : (run n).pump = .both .stopped) :
    ∃ m, Joined l (run m) := by
  refine hfair.leadsTo hrun (i := .engJoin) (P := fun s => Draining l s ∧ s.pump = .both .stopped) (by decide)
    (fun s hs => ?enabled) (fun s t j hs hexec => ?keeps) (fun s t hs hexec => ?taken) ⟨h, hstopped⟩
  case enabled => exact (EngineMove.joins hs.1.eng hs.2).enabled (by simp [hs.1.eng])
  case keeps =>
    obtain ⟨hdrain, hpump⟩ := hs
    refine (exec_draining hdrain hexec).imp (fun ⟨ht, hwork⟩ => ⟨ht, PerDir.ext_get fun d => ?_⟩) fun ⟨_, ht⟩ => ht
    have hzero : workLeft s d = 0 := (workLeft_eq_zero_iff s d).2 (by rw [hpump, PerDir.get_both])
    rw [PerDir.get_both, ← workLeft_eq_zero_iff]
    exact Nat.le_zero.1 (hzero ▸ hwork d)
  case taken =>
    obtain ⟨hdrain, hpump⟩ := hs
    rw [(EngineMove.joins hdrain.eng hpump).exec_eq] at hexec
    cases hexec
    exact ⟨rfl, hdrain.unexpected, hdrain.lsn⟩

/-- A running pump comes to its next step, and the other direction has no more work for it. -/
theorem running_leadsTo {n : Nat} {d : Dir} (h : Draining l (run n)) (hrunning : (run n).pump.get d = .running) :
    ∃ m, Draining l (run m) ∧ totalWork (run m) < totalWork (run n) := by
  generalize hw : totalWork (run n) = w
  refine hfair.leadsTo hrun (i := pumpOf d) (Q := fun s => Draining l s ∧ totalWork s < w)
    (P := fun s => Draining l s ∧ s.pump.get d = .running ∧ totalWork s = w)
    (by cases d <;> decide) (fun s hs => ?enabled) (fun s t j hs hexec => ?keeps) (fun s t hs hexec => ?taken)
    ⟨h, hrunning, hw⟩
  all_goals obtain ⟨hdrain, hruns, hwork⟩ := hs
  case enabled => exact enabled_pumpOf ⟨hdrain.eng, hruns⟩ (hdrain.stops d)
  case keeps =>
    rcases exec_draining hdrain hexec with ⟨ht, hle⟩ | ⟨hpump, -⟩
    · have hd := hle d
      have hother := hle d.other
      rw [totalWork_eq s d] at hwork
      by_cases hlt : totalWork t < w
      · exact .inr ⟨ht, hlt⟩
      · rw [totalWork_eq t d] at hlt
        refine .inl ⟨ht, ?_, by rw [totalWork_eq t d]; omega⟩
        have hpos : workLeft s d ≠ 0 := by rw [Ne, workLeft_eq_zero_iff, hruns]; decide
        cases hstopped : t.pump.get d with
        | running => rfl
        | stopped =>
          have hzero := (workLeft_eq_zero_iff t d).2 hstopped
          omega
    · rw [hpump, PerDir.get_both] at hruns; cases hruns
  case taken =>
    obtain ⟨u, hmove⟩ := exists_pumpMove ⟨hdrain.eng, hruns⟩ (hdrain.stops d)
    rw [hmove.exec_eq] at hexec
    cases hexec
    obtain ⟨ht, hlt, hother⟩ := hmove.keeps_draining hdrain
    rw [totalWork_eq s d] at hwork
    exact ⟨ht, by rw [totalWork_eq t d]; omega⟩

/-- By the work left, both pumps come to a stop, and then the join comes. -/
theorem draining_leadsTo {n : Nat} (h : Draining l (run n)) : ∃ m, Joined l (run m) := by
  generalize hw : totalWork (run n) = w
  induction w using Nat.strong_induction_on generalizing n with
  | _ w ih =>
    by_cases hrunning : ∃ d, (run n).pump.get d = .running
    · obtain ⟨d, hd⟩ := hrunning
      obtain ⟨m, hm, hlt⟩ := running_leadsTo hrun hfair h hd
      exact ih _ (hw ▸ hlt) hm rfl
    · refine stopped_leadsTo hrun hfair h (PerDir.ext_get fun d => ?_)
      rw [PerDir.get_both]
      cases hd : (run n).pump.get d with
      | stopped => rfl
      | running => exact absurd ⟨d, hd⟩ hrunning

end

/-- Settles O48: the pumps drain and stop, the join comes, then the teardown. -/
theorem disconnectRecoversInEveryFairRun : Obligations.DisconnectRecoversInEveryFairRun := by
  intro ops run hrun hfair heng hunexpected hoffers
  have hdrain : Draining (run 0).lsn (run 0) := by
    refine ⟨heng, hunexpected, rfl, fun d _ => ?_⟩
    obtain ⟨-, bytes, rest, hrx, hanswers⟩ := hoffers d
    rw [hrx, bytesBeforeFail_append]
    exact ⟨by simp, hanswers⟩
  obtain ⟨m, hm⟩ := draining_leadsTo hrun hfair hdrain
  obtain ⟨k, hk⟩ := joined_leadsTo hrun hfair hm
  exact ⟨k, hk.eng, hk.ser, hk.tcp, hk.lsn⟩

end Sys2Proof.Machine
